-- ==== Sys2Proof/Word.lean ====
section
/-! DEFINITION. Word.lean: the plain value types of the TSE, by the spec's own names (00_scope.md rules R9 and R10). -/

namespace Sys2Proof

/-- A byte, `u8` (rule R10). -/
abbrev Byte : Type := BitVec 8

/-- A byte string in transmission order: index 0 is the first byte on the wire (rule R10). -/
abbrev Bytes : Type := List Byte

/-- The 32-bit header word of a command, and a 32-bit checksum (rules R90 and R131). -/
abbrev Word : Type := BitVec 32

/-- A channel id, 0..8191 (rule R7, CHANNEL_BITS). -/
abbrev Channel : Type := BitVec 13

/-- A sequence counter, modulo 16 (rule R7, CC_BITS). -/
abbrev Counter : Type := BitVec 4

/-- An entry id as an operand or a result carries it, 0..32767 (rule R7, ENTRY_ID_BITS). -/
abbrev EntryId : Type := BitVec 15

end Sys2Proof
end

