-- ==== Sys2Proof/Syntax.lean ====
section
/-! DEFINITION. Syntax.lean: the twelve TSE commands (30_encoding.md section 1), one constructor for each row of the opcode
table, and the command as the host sends it (rule R90). -/

namespace Sys2Proof

/-- The exhaustion mode of a channel's Packetizer, a `u1`: 0 is STUFF, 1 is SIGNAL (10_state.md rule R42). -/
inductive PktMode where
  /-- 0: PKT_NEXT on an empty queue gives a stuffing packet. -/
  | stuff
  /-- 1: PKT_NEXT on an empty queue gives status EXHAUSTED. -/
  | signal
deriving DecidableEq, Repr

/-- The three units of the TSE (00_scope.md rule R3). -/
inductive TseUnit where
  | crc
  | dmx
  | enc
deriving DecidableEq, Repr

/-- A command as it comes over the command port: a 32-bit header word and a data operand (rule R90). -/
structure Command where
  header : Word
  data : Bytes
deriving DecidableEq, Repr

/-- The commands (rule R92), with the operands of rule R94. The length `n` of FEED, CRC_COMPUTE, CRC_VERIFY and PKT_LOAD is
the length of the data operand the constructor carries: a mismatch is no command (rule R108). -/
inductive Instr where
  /-- FEED: consume one packet (41_reassembler.md rule R150). -/
  | feed (ch : Channel) (cc : Counter) (pusi scr : Bool) (payload : Bytes)
  /-- DMX_RESET: discard one channel's state (42_demux.md rule R199). -/
  | dmxReset (ch : Channel)
  /-- DMX_RESET_ALL: discard every channel's state (42_demux.md rule R200). -/
  | dmxResetAll
  /-- CRC_COMPUTE: compute a checksum (40_checksum.md rule R133). -/
  | crcCompute (data : Bytes)
  /-- CRC_VERIFY: check a byte string that ends in its checksum (40_checksum.md rule R134). -/
  | crcVerify (data : Bytes)
  /-- PKT_LOAD: queue one section for transmission (43_packetizer.md rule R212). -/
  | pktLoad (ch : Channel) (data : Bytes)
  /-- PKT_NEXT: produce the next packet of a channel (43_packetizer.md rule R214). -/
  | pktNext (ch : Channel)
  /-- PKT_CONFIG: set the exhaustion mode of a channel's Packetizer (43_packetizer.md rule R221). -/
  | pktConfig (ch : Channel) (mode : PktMode)
  /-- CYC_ADD: register a cycle entry; the data operand is the interval and a table operand (44_cycling.md rule R242). -/
  | cycAdd (ch : Channel) (data : Bytes)
  /-- CYC_REMOVE: delete a cycle entry (44_cycling.md rule R244). -/
  | cycRemove (id : EntryId)
  /-- CYC_REPLACE: change the table of a cycle entry (44_cycling.md rule R245). -/
  | cycReplace (id : EntryId) (data : Bytes)
  /-- CYC_TICK: one transmission tick of a channel (44_cycling.md rule R246). -/
  | cycTick (ch : Channel)
deriving DecidableEq, Repr

end Sys2Proof
end

