-- ==== Sys2Proof/WellFormed.lean ====
section
/-! DEFINITION. WellFormed.lean: which terms of Instr a header word can carry. The one check is the length of the data
operand against the width of the header's length field (30_encoding.md rule R94): 8 bits for FEED, 13 bits for CRC_COMPUTE,
CRC_VERIFY and PKT_LOAD. CYC_ADD and CYC_REPLACE hold no length in the header (rule R108), so every data operand is well formed
as a command; a table operand that does not split is a command that fails ERR_SECTION (rule R99). -/

namespace Sys2Proof

/-- The command has a header word (rules R91 and R94). -/
def Instr.wellFormed : Instr → Bool
  | .feed _ _ _ _ payload => decide (payload.length < 256)
  | .dmxReset _ => true
  | .dmxResetAll => true
  | .crcCompute data => decide (data.length < 8192)
  | .crcVerify data => decide (data.length < 8192)
  | .pktLoad _ data => decide (data.length < 8192)
  | .pktNext _ => true
  | .pktConfig _ _ => true
  | .cycAdd _ _ => true
  | .cycRemove _ => true
  | .cycReplace _ _ => true
  | .cycTick _ => true

end Sys2Proof
end

