-- ==== Sys2Proof/Decode.lean ====
section
/-! DEFINITION. Decode.lean: the decoder and the encoder of TSE commands, from 30_encoding.md rules R91 to R94, R107 and R108,
and the opcode table of rule R93 as masks and matches. The decoder reads the fields of rule R91; the table stands beside it
as rule R93 writes it, and the statements say that the two agree. -/

namespace Sys2Proof

/-- Why a command is not one of the twelve. -/
inductive DecodeError where
  /-- The header word is ILLEGAL (rule R107). The machine answers it with status ILLEGAL. -/
  | illegal
  /-- The data operand has not the length the header fixes: not a TSE command (rule R108). -/
  | operandLength
deriving DecidableEq, Repr

/-- OP, bits 31:28 of the header word (rule R91). -/
def opField (w : Word) : BitVec 4 := w.extractLsb' 28 4

/-- CH, bits 27:15 of the header word (rule R91). -/
def chField (w : Word) : Channel := w.extractLsb' 15 13

/-- ARG, bits 14:0 of the header word (rule R91). -/
def argField (w : Word) : BitVec 15 := w.extractLsb' 0 15

/-- The payload length `n = ARG[13:6]` of FEED (rule R94). -/
def feedLength (w : Word) : Nat := (w.extractLsb' 6 8).toNat

/-- The operand length `n = ARG[12:0]` of CRC_COMPUTE, CRC_VERIFY and PKT_LOAD (rule R94). -/
def sectionLength (w : Word) : Nat := (w.extractLsb' 0 13).toNat

/-- The mode bit of PKT_CONFIG (rule R94: 0 STUFF, 1 SIGNAL). -/
def modeOfBit (b : Bool) : PktMode := if b then .signal else .stuff

/-- The instruction `i` when the data operand has the length `n` that the header fixes (rule R108). -/
def withOperand (n : Nat) (d : Bytes) (i : Instr) : Except DecodeError Instr :=
  if d.length = n then .ok i else .error .operandLength

/-- The command of a header word and a data operand, total on both. Fixed bits are checked before the operand is looked at, so
an ILLEGAL word reads no data operand (rules R93, R94, R107 and R108). The commands that take no data operand get the
empty one; log 7. -/
def decode (c : Command) : Except DecodeError Instr :=
  let w := c.header
  let d := c.data
  match (opField w).toNat with
  | 0x1 =>
    if w.getLsbD 14 then .error .illegal
    else withOperand (feedLength w) d (.feed (chField w) (w.extractLsb' 0 4) (w.getLsbD 4) (w.getLsbD 5) d)
  | 0x2 => if argField w = 0#15 then withOperand 0 d (.dmxReset (chField w)) else .error .illegal
  | 0x3 => if chField w = 0#13 ∧ argField w = 0#15 then withOperand 0 d .dmxResetAll else .error .illegal
  | 0x4 =>
    if chField w = 0#13 ∧ w.extractLsb' 13 2 = 0#2 then withOperand (sectionLength w) d (.crcCompute d)
    else .error .illegal
  | 0x5 =>
    if chField w = 0#13 ∧ w.extractLsb' 13 2 = 0#2 then withOperand (sectionLength w) d (.crcVerify d)
    else .error .illegal
  | 0x6 =>
    if w.extractLsb' 13 2 = 0#2 then withOperand (sectionLength w) d (.pktLoad (chField w) d) else .error .illegal
  | 0x7 => if argField w = 0#15 then withOperand 0 d (.pktNext (chField w)) else .error .illegal
  | 0x8 =>
    if w.extractLsb' 1 14 = 0#14 then withOperand 0 d (.pktConfig (chField w) (modeOfBit (w.getLsbD 0)))
    else .error .illegal
  | 0x9 => if argField w = 0#15 then .ok (.cycAdd (chField w) d) else .error .illegal
  | 0xA => if chField w = 0#13 then withOperand 0 d (.cycRemove (argField w)) else .error .illegal
  | 0xB => if chField w = 0#13 then .ok (.cycReplace (argField w) d) else .error .illegal
  | 0xC => if argField w = 0#15 then withOperand 0 d (.cycTick (chField w)) else .error .illegal
  | _ => .error .illegal

/-- The mode bit PKT_CONFIG carries (rule R94). -/
def bitOfMode : PktMode → Bool
  | .stuff => false
  | .signal => true

/-- The header word `OP ++ CH ++ ARG` (rule R91). -/
def headerWord (op : BitVec 4) (ch : Channel) (arg : BitVec 15) : Word := op ++ ch ++ arg

/-- ARG of FEED: `0 nnnnnnnn s p qqqq` (rule R94). -/
def feedArg (n : Nat) (scr pusi : Bool) (cc : Counter) : BitVec 15 :=
  0#1 ++ BitVec.ofNat 8 n ++ BitVec.ofBool scr ++ BitVec.ofBool pusi ++ cc

/-- ARG of the commands with a 13-bit length: `00 nnnnnnnnnnnnn` (rule R94). -/
def lengthArg (n : Nat) : BitVec 15 := 0#2 ++ BitVec.ofNat 13 n

/-- The command that carries an instruction, from the same rules R91 to R94. A length that the field cannot hold is cut to
it: such a term is not well formed. -/
def encode : Instr → Command
  | .feed ch cc pusi scr p => ⟨headerWord 0x1#4 ch (feedArg p.length scr pusi cc), p⟩
  | .dmxReset ch => ⟨headerWord 0x2#4 ch 0#15, []⟩
  | .dmxResetAll => ⟨headerWord 0x3#4 0#13 0#15, []⟩
  | .crcCompute d => ⟨headerWord 0x4#4 0#13 (lengthArg d.length), d⟩
  | .crcVerify d => ⟨headerWord 0x5#4 0#13 (lengthArg d.length), d⟩
  | .pktLoad ch d => ⟨headerWord 0x6#4 ch (lengthArg d.length), d⟩
  | .pktNext ch => ⟨headerWord 0x7#4 ch 0#15, []⟩
  | .pktConfig ch m => ⟨headerWord 0x8#4 ch (0#14 ++ BitVec.ofBool (bitOfMode m)), []⟩
  | .cycAdd ch d => ⟨headerWord 0x9#4 ch 0#15, d⟩
  | .cycRemove id => ⟨headerWord 0xA#4 0#13 id, []⟩
  | .cycReplace id d => ⟨headerWord 0xB#4 0#13 id, d⟩
  | .cycTick ch => ⟨headerWord 0xC#4 ch 0#15, []⟩

/-- One row of rule R93's table: a word is the row's opcode exactly when `w AND mask = matchBits`. -/
structure OpcodeRow where
  mnemonic : String
  matchBits : Word
  mask : Word
deriving DecidableEq, Repr

/-- Rule R93's test of a header word against a row. -/
def OpcodeRow.fits (r : OpcodeRow) (w : Word) : Bool := decide (w &&& r.mask = r.matchBits)

/-- The row of the table that an instruction's header word fits (rule R93). -/
def Instr.row : Instr → OpcodeRow
  | .feed _ _ _ _ _ => ⟨"FEED", 0x10000000#32, 0xF0004000#32⟩
  | .dmxReset _ => ⟨"DMX_RESET", 0x20000000#32, 0xF0007FFF#32⟩
  | .dmxResetAll => ⟨"DMX_RESET_ALL", 0x30000000#32, 0xFFFFFFFF#32⟩
  | .crcCompute _ => ⟨"CRC_COMPUTE", 0x40000000#32, 0xFFFFE000#32⟩
  | .crcVerify _ => ⟨"CRC_VERIFY", 0x50000000#32, 0xFFFFE000#32⟩
  | .pktLoad _ _ => ⟨"PKT_LOAD", 0x60000000#32, 0xF0006000#32⟩
  | .pktNext _ => ⟨"PKT_NEXT", 0x70000000#32, 0xF0007FFF#32⟩
  | .pktConfig _ _ => ⟨"PKT_CONFIG", 0x80000000#32, 0xF0007FFE#32⟩
  | .cycAdd _ _ => ⟨"CYC_ADD", 0x90000000#32, 0xF0007FFF#32⟩
  | .cycRemove _ => ⟨"CYC_REMOVE", 0xA0000000#32, 0xFFFF8000#32⟩
  | .cycReplace _ _ => ⟨"CYC_REPLACE", 0xB0000000#32, 0xFFFF8000#32⟩
  | .cycTick _ => ⟨"CYC_TICK", 0xC0000000#32, 0xF0007FFF#32⟩

/-- The twelve rows of rule R93's table, in the order of OP. -/
def opcodeTable : List OpcodeRow :=
  [Instr.row (.feed 0 0 false false []), Instr.row (.dmxReset 0), Instr.row .dmxResetAll, Instr.row (.crcCompute []),
    Instr.row (.crcVerify []), Instr.row (.pktLoad 0 []), Instr.row (.pktNext 0), Instr.row (.pktConfig 0 .stuff),
    Instr.row (.cycAdd 0 []), Instr.row (.cycRemove 0), Instr.row (.cycReplace 0 []), Instr.row (.cycTick 0)]

/-- The unit of a command, from the opcode map (rule R92). -/
def Instr.unit : Instr → TseUnit
  | .feed _ _ _ _ _ => .dmx
  | .dmxReset _ => .dmx
  | .dmxResetAll => .dmx
  | .crcCompute _ => .crc
  | .crcVerify _ => .crc
  | .pktLoad _ _ => .enc
  | .pktNext _ => .enc
  | .pktConfig _ _ => .enc
  | .cycAdd _ _ => .enc
  | .cycRemove _ => .enc
  | .cycReplace _ _ => .enc
  | .cycTick _ => .enc

/-- How long a data operand of zeros is for a header word: the length the header fixes where it fixes one (rule R108); for
CYC_ADD the 6 bytes of an interval and a count 0, for CYC_REPLACE the 2 bytes of a count 0 (rule R94: no section
follows a count 0); else none. Only the opcode table's words use this; log 4. -/
def tableOperandLength (w : Word) : Nat :=
  match (opField w).toNat with
  | 0x1 => feedLength w
  | 0x4 => sectionLength w
  | 0x5 => sectionLength w
  | 0x6 => sectionLength w
  | 0x9 => 6
  | 0xB => 2
  | _ => 0

/-- The command whose bits are `w`, `nbits` of them given and all above them 0: bits 31..0 are the header word, and the data
operand's byte `j` is bits `32 + 8 j + 7 .. 32 + 8 j`. -/
def tableCommand (nbits w : Nat) : Command :=
  let v := w % 2 ^ nbits
  let h : Word := BitVec.ofNat 32 v
  ⟨h, (List.range (tableOperandLength h)).map fun j => BitVec.ofNat 8 (v >>> (32 + 8 * j))⟩

/-- The instruction the decoder reads from a word of the opcode table. -/
def decodeTableWord (nbits w : Nat) : Option Instr :=
  match decode (tableCommand nbits w) with
  | .ok i => some i
  | .error _ => none

end Sys2Proof
end

