-- ==== Sys2Proof/Config.lean ====
section
/-! DEFINITION. Config.lean: the implementation parameters of 00_scope.md rule R7. The fixed ones are numerals. The
OPEN ones are opaque constants, one for each, whose types hold exactly the bounds the spec gives them (but for an unbounded
queue depth, log 19), so that no proof can lean on a value (rule R8). -/

namespace Sys2Proof.Config

/-- PACKET_SIZE: the bytes of a wire packet (rule R7). -/
abbrev packetSize : Nat := 188

/-- PAYLOAD_MAX: the most payload bytes of a packet (rule R7). -/
abbrev payloadMax : Nat := 184

/-- MAX_SECTION_SIZE: the most bytes of a whole section, header and checksum included (rule R7). -/
abbrev maxSectionSize : Nat := 4093

/-- MIN_SECTION_SIZE (rule R7). -/
abbrev minSectionSize : Nat := 12

/-- MAX_TABLE_SECTIONS (rule R7). -/
abbrev maxTableSections : Nat := 256

/-- STUFF_BYTE (rule R7). -/
abbrev stuffByte : Byte := 0xFF#8

/-- The number of channels, 2^CHANNEL_BITS (rule R7). -/
abbrev channelCount : Nat := 8192

/-- The number of entry ids, 2^ENTRY_ID_BITS (rules R7 and R46). -/
abbrev entryIdCount : Nat := 32768

/-- The OPEN parameters of rule R7. Every shared operation that reads one takes this record as an argument, so that it can
be evaluated at any value of them; the machine passes `Config.params`. -/
structure Params where
  /-- SCRAMBLED_UPDATES_CC: a scrambled packet with payload updates `last_cc` (rule R153). -/
  scrambledUpdatesCc : Bool
  /-- AGG_CAPACITY: the most aggregations of a channel; `none` is unbounded (rule R197). -/
  aggCapacity : Option Nat
  /-- PKT_QUEUE_DEPTH: the most queued sections of a channel (rule R224). Always finite: DESIGN CHOICE, log 19. -/
  pktQueueDepth : Nat
  /-- MAX_ENTRIES: the most live cycle entries (rule R242). -/
  maxEntries : Nat
deriving DecidableEq, Repr

/-- The bounds the spec gives the OPEN parameters (rule R7, 92_eei_decisions.md "OPEN parameters"). -/
structure Params.InBounds (p : Params) : Prop where
  aggCapacity_pos : ∀ n, p.aggCapacity = some n → 1 ≤ n
  pktQueueDepth_ge : 256 ≤ p.pktQueueDepth
  maxEntries_pos : 1 ≤ p.maxEntries
  maxEntries_le : p.maxEntries ≤ 32768

/-- The spec's defaults, at which the vectors of 95_test_vectors.md stand. For tests only: the machine never uses them. -/
def Params.defaults : Params :=
  { scrambledUpdatesCc := false, aggCapacity := none, pktQueueDepth := 256, maxEntries := 32768 }

/-- SCRAMBLED_UPDATES_CC, OPEN (rule R7). Assumption log 1. -/
opaque scrambledUpdatesCc : Bool

/-- AGG_CAPACITY less one, or `none` where it is unbounded, OPEN (rule R7). Assumption log 1. -/
opaque aggCapacityLessOne : Option Nat

/-- PKT_QUEUE_DEPTH less its least value 256, OPEN (rule R7). Assumption log 1. That it is a number, however large, and never
"unbounded": DESIGN CHOICE, log 19. -/
opaque pktQueueDepthAbove256 : Nat

/-- MAX_ENTRIES less one, OPEN, so that MAX_ENTRIES ranges over 1..32768 (rule R7). Assumption log 1. -/
opaque maxEntriesLessOne : Fin 32768

/-- The OPEN parameters of the machine that is modelled (rules R7, R8 and R302: fixed when the TSE is built). -/
def params : Params :=
  { scrambledUpdatesCc := scrambledUpdatesCc
    aggCapacity := aggCapacityLessOne.map (· + 1)
    pktQueueDepth := pktQueueDepthAbove256 + 256
    maxEntries := maxEntriesLessOne.val + 1 }

end Sys2Proof.Config
end

