-- ==== Sys2Proof/Machine/State.lean ====
section
/-! DEFINITION. Machine/State.lean: everything the spec gives the TSE to hold (10_state.md), the records its commands return
(30_encoding.md rules R95 and R100, 60_exceptions.md sections 2 and 3), the model's own command port, the two reason types and
the reset state. Plain data: every table is a list of (key, value) pairs with rising keys. -/

namespace Sys2Proof.Machine

/-- A finite table: (key, value) pairs, keys strictly rising. An unlisted key has no value, or the table's own default. -/
abbrev Keyed (β : Type) : Type := List (Nat × β)

/-! ## Outputs of a command -/

/-- The status codes 0..7 of 60_exceptions.md rule R272. Codes 8..15 are reserved and never returned. -/
inductive Status where
  /-- 0, success: the command took effect. -/
  | ok
  /-- 1, failure: a reserved OP or a wrong fixed bit (rule R107). -/
  | illegal
  /-- 2, failure: FEED with a payload over 184 bytes (rule R151). -/
  | errPacket
  /-- 3, failure: an over-long CRC operand, a section failing the output-section check, a malformed table operand. -/
  | errSection
  /-- 4, failure: no cycle entry has the id. -/
  | errNoEntry
  /-- 5, failure: CYC_ADD with interval 0. -/
  | errInterval
  /-- 6, failure: a full Packetizer queue, MAX_ENTRIES entries, or no entry id left. -/
  | errCapacity
  /-- 7, success: PKT_NEXT in SIGNAL mode on an empty queue. -/
  | exhausted
deriving DecidableEq, Repr

/-- The reasons 1..6 of a VALIDATION_FAILURE (60_exceptions.md rule R276). -/
inductive Reason where
  | crcMismatch
  | lengthInconsistent
  | sectionTooLong
  | sectionTooShort
  | badPointer
  | badSectionNumber
deriving DecidableEq, Repr

/-- The table record of TABLE_COMPLETED (42_demux.md rule R198); `sections` is in section_number order. -/
structure TableRecord where
  tableId : BitVec 8
  tableIdExtension : BitVec 16
  version : BitVec 5
  lastSectionNumber : BitVec 8
  sections : List Bytes
deriving DecidableEq, Repr

/-- The event kinds 1..5 of 60_exceptions.md rule R275. -/
inductive Event where
  | sectionCompleted (channel : Channel) (sect : Bytes)
  | tableCompleted (channel : Channel) (table : TableRecord)
  | validationFailure (channel : Channel) (reason : Reason)
  | discontinuity (channel : Channel) (expected actual : Counter)
  | scrambledSkipped (channel : Channel)
deriving DecidableEq, Repr

/-- A packet record, its five fields in the order of 30_encoding.md rule R100. -/
structure Packet where
  channel : Channel
  cc : Counter
  pusi : Bool
  scrambled : Bool
  payload : Bytes
deriving DecidableEq, Repr

/-- The result values of 30_encoding.md rule R95: CRC_COMPUTE's `u32`, CRC_VERIFY's `u1`, the packet record of PKT_NEXT and
CYC_TICK, and CYC_ADD's entry id. -/
inductive Value where
  | crc (code : Word)
  | verdict (valid : Bool)
  | packet (p : Packet)
  | entryId (id : EntryId)
deriving DecidableEq, Repr

/-- The result triple of a command (30_encoding.md rule R95). -/
structure Result where
  status : Status
  value : Option Value
  events : List Event
deriving DecidableEq, Repr

/-! ## The DMX unit (10_state.md section 2) -/

/-- An aggregation record (rule R37); `slots` is indexed 0..last_sn. -/
structure Agg where
  version : BitVec 5
  lastSn : BitVec 8
  slots : List (Option Bytes)
deriving DecidableEq, Repr

/-- A channel record (rule R34). `buf = []` is "no partial section" (rule R36). `aggs` is keyed by the number that
`aggKey` makes of the pair (table_id, table_id_extension). -/
structure ChanRec where
  lastCc : Option Counter
  buf : Bytes
  aggs : Keyed Agg
deriving DecidableEq, Repr

/-- The DMX unit: `DMX.chan[c]` for every channel `c` (rule R33). An unlisted channel is `None`. -/
structure Dmx where
  chan : Keyed ChanRec
deriving DecidableEq, Repr

/-! ## The ENC unit (10_state.md section 3) -/

/-- A channel's Packetizer, `ENC.pk[c]` (rules R39 to R42). -/
structure Packetizer where
  queue : List Bytes
  off : Nat
  cc : Counter
  mode : PktMode
deriving DecidableEq, Repr

/-- The three states of a cycle entry (rule R44). -/
inductive EntryState where
  | scheduled
  | due
  | emitted
deriving DecidableEq, Repr

/-- A cycle entry record (rule R44). `nextDue` is a packet time, unbounded (rule R45). -/
structure Entry where
  ch : Channel
  interval : BitVec 32
  table : List Bytes
  nextDue : Nat
  state : EntryState
deriving DecidableEq, Repr

/-- The ENC unit. An unlisted channel of `pk` has the reset Packetizer, an unlisted channel of `time` is at packet time 0, an
unlisted channel of `inflight` is `None`, and an unlisted id of `entries` has no entry. -/
structure Enc where
  /-- `ENC.pk[c]` (rule R39). -/
  pk : Keyed Packetizer
  /-- `ENC.t[c]`, the packet time (rule R45). -/
  time : Keyed Nat
  /-- `ENC.inflight[c]`, the entry being emitted (rule R47). -/
  inflight : Keyed Nat
  /-- `ENC.entries` (rule R43). -/
  entries : Keyed Entry
  /-- `ENC.next_id`, 0..32768 (rule R46). -/
  nextId : Nat
deriving DecidableEq, Repr

/-! ## The command port: the model's own fields -/

/-- What the host does to the TSE: it asserts the reset input (70_reset_and_hazards.md rule R300) or issues a command
(30_encoding.md rule R90). -/
inductive HostInput where
  | reset
  | command (c : Command)
deriving DecidableEq, Repr

/-- The command port. Not state of the TSE: the model holds here what the host is about to do, in issue order
(20_memory.md rule R79), and the result the last command returned (30_encoding.md rule R95). No meaning reads `result`, and none
reads or writes `inputs`. Assumption log 2. -/
structure Port where
  inputs : List HostInput
  result : Option Result
deriving DecidableEq, Repr

/-- The machine: the state of the DMX and ENC units (the CRC unit has none, 10_state.md rules R30 and R49), and the
command port. -/
structure State where
  dmx : Dmx
  enc : Enc
  port : Port
deriving DecidableEq, Repr

/-- The reset value of a Packetizer (rule R54). -/
def Packetizer.reset : Packetizer :=
  { queue := [], off := 0, cc := 0#4, mode := .stuff }

/-- The DMX unit after reset: every channel is `None` (rule R54). -/
def Dmx.reset : Dmx := { chan := [] }

/-- The ENC unit after reset (rule R54). -/
def Enc.reset : Enc := { pk := [], time := [], inflight := [], entries := [], nextId := 0 }

/-- The TSE after reset (rule R54, 70_reset_and_hazards.md rule R300), with no input waiting and no result returned yet. -/
def State.reset : State := { dmx := Dmx.reset, enc := Enc.reset, port := { inputs := [], result := none } }

/-! ## Why a step stops -/

/-- The faults. There is none: the TSE has no trap and every failure is a status code (60_exceptions.md rule R270), so no
step of the model ends in a fault. -/
inductive Fault where
deriving DecidableEq, Repr

/-- The refusals. -/
inductive Refusal where
  /-- An instruction without a meaning; raised by no arm of exec. Safe. -/
  | notModelled (mnemonic : String)
  /-- Raised by step for a command whose data operand has not the length its header word fixes: not a TSE command, which the
  spec has the model refuse without a state change (30_encoding.md rule R108, 93_implementation_defined.md U12). Safe. -/
  | operandLength
  /-- Raised by FEED where it would create an aggregation beyond a finite AGG_CAPACITY: the spec gives it no meaning and has
  the model refuse it (42_demux.md rule R197, 93_implementation_defined.md U9). Safe. -/
  | aggregationCapacity
deriving DecidableEq, Repr

end Sys2Proof.Machine
end

