-- ==== Sys2Proof/Machine/Operands.lean ====
section
/-! DEFINITION. Machine/Operands.lean: byte strings, sections and table operands (00_scope.md rule R10, 30_encoding.md rules
R96 to R99, 43_packetizer.md rule R211, 44_cycling.md rule R243). -/

namespace Sys2Proof.Machine

open Config

/-- `s[i]`, the byte at index `i` (rule R10). Past the end it is 0; every use the spec makes of it is within the string. -/
def byteAt (s : Bytes) (i : Nat) : Byte := s.getD i 0#8

/-- `be16(s, i)`: the byte at the lower index holds the more significant bits (rules R10 and R72). -/
def be16 (s : Bytes) (i : Nat) : BitVec 16 := byteAt s i ++ byteAt s (i + 1)

/-- `be32(s, i)` (rules R10 and R72). -/
def be32 (s : Bytes) (i : Nat) : Word := byteAt s i ++ byteAt s (i + 1) ++ byteAt s (i + 2) ++ byteAt s (i + 3)

/-- `to_be32(v)` (rule R10). -/
def toBe32 (v : Word) : Bytes := [v.extractLsb' 24 8, v.extractLsb' 16 8, v.extractLsb' 8 8, v.extractLsb' 0 8]

/-- A 16-bit value, big-endian: the table operand's count (rule R99). -/
def toBe16 (v : BitVec 16) : Bytes := [v.extractLsb' 8 8, v.extractLsb' 0 8]

/-- `fill(n, STUFF_BYTE)` (rules R10 and R217). -/
def stuffing (n : Nat) : Bytes := List.replicate n stuffByte

/-- The declared length `3 + (s[1][3:0] * 256 + s[2])` of a string of at least 3 bytes (rule R97). -/
def declLen (s : Bytes) : Nat := 3 + (((byteAt s 1).extractLsb' 0 4).toNat * 256 + (byteAt s 2).toNat)

/-- `sec_table_id(s)` (rule R98). -/
def secTableId (s : Bytes) : BitVec 8 := byteAt s 0

/-- `sec_ext(s)` (rule R98). -/
def secExt (s : Bytes) : BitVec 16 := be16 s 3

/-- `sec_version(s) = s[5][5:1]` (rule R98). -/
def secVersion (s : Bytes) : BitVec 5 := (byteAt s 5).extractLsb' 1 5

/-- `sec_sn(s)` (rule R98). -/
def secSn (s : Bytes) : BitVec 8 := byteAt s 6

/-- `sec_last_sn(s)` (rule R98). -/
def secLastSn (s : Bytes) : BitVec 8 := byteAt s 7

/-- `sec_code(s)`: the last four bytes (rule R98). -/
def secCode (s : Bytes) : Word := be32 s (s.length - 4)

/-- `sec_body(s)`: the bytes the checksum covers (rule R98). -/
def secBody (s : Bytes) : Bytes := s.take (s.length - 4)

/-- The output-section check (43_packetizer.md rule R211). -/
def outputSectionOk (s : Bytes) : Bool :=
  decide (minSectionSize ≤ s.length) && decide (s.length ≤ maxSectionSize) && decide (declLen s = s.length) &&
    decide (byteAt s 0 ≠ stuffByte)

/-- The `k` sections of a table operand after its count, and nothing after them (44_cycling.md rule R243); `none` is
malformed. -/
def splitSections : Nat → Bytes → Option (List Bytes)
  | 0, b => if b = [] then some [] else none
  | k + 1, b =>
    if b.length < 3 then none
    else if b.length < declLen b then none
    else if outputSectionOk (b.take (declLen b)) then
      match splitSections k (b.drop (declLen b)) with
      | some t => some (b.take (declLen b) :: t)
      | none => none
    else none

/-- `parse_table(b)` (44_cycling.md rule R243); `none` is ERR_SECTION. -/
def parseTable (b : Bytes) : Option (List Bytes) :=
  if b.length < 2 then none
  else
    let k := (be16 b 0).toNat
    if k = 0 ∨ maxTableSections < k then none else splitSections k (b.drop 2)

/-- The table operand of a list of sections: the count and the sections back to back (30_encoding.md rule R99). -/
def tableOperand (t : List Bytes) : Bytes := toBe16 (BitVec.ofNat 16 t.length) ++ t.flatten

/-- The data operand of CYC_ADD: the interval and the table operand (30_encoding.md rule R94). -/
def cycAddOperand (interval : BitVec 32) (t : List Bytes) : Bytes := toBe32 interval ++ tableOperand t

end Sys2Proof.Machine
end

