-- ==== Sys2Proof/Machine/Maps.lean ====
section
/-! DEFINITION. Machine/Maps.lean: reading and writing the finite tables that hold the TSE's per-channel and per-entry state.
One canonical form: keys strictly rising, and, in a table with a default, no entry equal to the default; so equal tables are
equal data. -/

namespace Sys2Proof.Machine

/-- The value listed at a key. -/
def Keyed.find {β : Type} : Keyed β → Nat → Option β
  | [], _ => none
  | (k, v) :: m, i => if k = i then some v else Keyed.find m i

/-- Lists the value at a key, in key order, in the place of any value listed there. -/
def Keyed.insert {β : Type} : Keyed β → Nat → β → Keyed β
  | [], i, v => [(i, v)]
  | (k, w) :: m, i, v =>
    if i < k then (i, v) :: (k, w) :: m
    else if i = k then (i, v) :: m
    else (k, w) :: Keyed.insert m i v

/-- Removes a key. -/
def Keyed.erase {β : Type} : Keyed β → Nat → Keyed β
  | [], _ => []
  | (k, w) :: m, i => if k = i then Keyed.erase m i else (k, w) :: Keyed.erase m i

/-- Replaces the value listed at a key by its image; an unlisted key stays unlisted. -/
def Keyed.modify {β : Type} (f : β → β) : Keyed β → Nat → Keyed β
  | [], _ => []
  | (k, w) :: m, i => (if k = i then (k, f w) else (k, w)) :: Keyed.modify f m i

/-- Replaces every listed value by its image. -/
def Keyed.mapValues {β : Type} (f : β → β) : Keyed β → Keyed β
  | [] => []
  | (k, w) :: m => (k, f w) :: Keyed.mapValues f m

/-- The value at a key of a table with a default. -/
def Keyed.getD {β : Type} (m : Keyed β) (i : Nat) (dflt : β) : β := (m.find i).getD dflt

/-- Writes a key of a table with a default: writing the default removes the key. -/
def Keyed.put {β : Type} [DecidableEq β] (m : Keyed β) (dflt : β) (i : Nat) (v : β) : Keyed β :=
  if v = dflt then m.erase i else m.insert i v

/-- Writes an optional value: `none` removes the key. -/
def Keyed.putOption {β : Type} (m : Keyed β) (i : Nat) : Option β → Keyed β
  | none => m.erase i
  | some v => m.insert i v

/-- The keys are strictly rising. -/
abbrev Keyed.Rising {β : Type} (m : Keyed β) : Prop := m.Pairwise fun a b => a.1 < b.1

end Sys2Proof.Machine
end

