-- ==== Sys2Proof/Machine/Ops.lean ====
section
/-! DEFINITION. Machine/Ops.lean: the named reads and writes of the TSE's state elements (10_state.md), how a command ends
(00_scope.md rule R12: `return` and `fail`), and the command port. The TSE takes no exception and has no return from one
(60_exceptions.md rule R270): a hard failure is the status of `State.fail`. -/

namespace Sys2Proof.Machine

/-! ## The end of a command -/

/-- The state with a command's result on the port (30_encoding.md rule R95). -/
def State.reply (s : State) (r : Result) : State := { s with port := { s.port with result := some r } }

/-- `return`: status OK, with the value and the events (rule R12). -/
def State.done (s : State) (v : Option Value) (evs : List Event) : Host.Outcome State Fault Refusal :=
  .next (s.reply { status := .ok, value := v, events := evs })

/-- `fail S`: the command ends with status `S`, no value and no event, and no state of the TSE changes (rule R12,
60_exceptions.md rule R271). -/
def State.fail (s : State) (st : Status) : Host.Outcome State Fault Refusal :=
  .next (s.reply { status := st, value := none, events := [] })

/-! ## What the host sees of the last result -/

/-- The status of the last result (30_encoding.md rule R95). -/
def State.status (s : State) : Option Status := s.port.result.map Result.status

/-- The value of the last result, if it has one (rule R95). -/
def State.value (s : State) : Option Value := s.port.result.bind Result.value

/-- The events of the last result, in order (rule R95, 60_exceptions.md rule R274). -/
def State.events (s : State) : List Event :=
  match s.port.result with
  | none => []
  | some r => r.events

/-! ## The DMX unit -/

/-- The record FEED creates for a channel (41_reassembler.md rule R152). -/
def ChanRec.fresh : ChanRec := { lastCc := none, buf := [], aggs := [] }

/-- `DMX.chan[c]` (rule R33). -/
def Dmx.chanAt (d : Dmx) (c : Channel) : Option ChanRec := d.chan.find c.toNat

/-- `DMX.chan[c] <- r` (rule R33). -/
def Dmx.setChan (d : Dmx) (c : Channel) (r : Option ChanRec) : Dmx := { chan := d.chan.putOption c.toNat r }

/-! ## The ENC unit -/

/-- `ENC.pk[c]` (rule R39). -/
def Enc.pkAt (e : Enc) (c : Channel) : Packetizer := e.pk.getD c.toNat Packetizer.reset

/-- `ENC.pk[c] <- P` (rule R39). -/
def Enc.setPk (e : Enc) (c : Channel) (p : Packetizer) : Enc := { e with pk := e.pk.put Packetizer.reset c.toNat p }

/-- `ENC.t[c]` (rule R45). -/
def Enc.timeAt (e : Enc) (c : Channel) : Nat := e.time.getD c.toNat 0

/-- `ENC.t[c] <- t` (rule R45). -/
def Enc.setTime (e : Enc) (c : Channel) (t : Nat) : Enc := { e with time := e.time.put 0 c.toNat t }

/-- `ENC.inflight[c]` (rule R47). -/
def Enc.inflightAt (e : Enc) (c : Channel) : Option Nat := e.inflight.find c.toNat

/-- `ENC.inflight[c] <- o` (rule R47). -/
def Enc.setInflight (e : Enc) (c : Channel) (o : Option Nat) : Enc :=
  { e with inflight := e.inflight.putOption c.toNat o }

/-- `ENC.entries[i]` (rule R43). -/
def Enc.entryAt (e : Enc) (i : Nat) : Option Entry := e.entries.find i

/-- `ENC.entries[i] <- n` (rule R43). -/
def Enc.setEntry (e : Enc) (i : Nat) (n : Entry) : Enc := { e with entries := e.entries.insert i n }

/-- Removes `i` from `ENC.entries` (rule R43). -/
def Enc.removeEntry (e : Enc) (i : Nat) : Enc := { e with entries := e.entries.erase i }

/-- Writes fields of the entry `i`. With no such entry nothing is written; log 6. -/
def Enc.modifyEntry (e : Enc) (i : Nat) (f : Entry → Entry) : Enc := { e with entries := e.entries.modify f i }

/-- `finish_emission(c)`: an entry's emission ends when its channel's queue is empty (44_cycling.md rule R251). -/
def Enc.finishEmission (e : Enc) (c : Channel) : Enc :=
  if (e.pkAt c).queue = [] then
    match e.inflightAt c with
    | some i => (e.modifyEntry i fun n => { n with state := .scheduled }).setInflight c none
    | none => e
  else e

/-! ## The command port -/

/-- The next input of the host, if it has one waiting, and the state without it (20_memory.md rule R79: in issue order). -/
def State.nextInput (s : State) : Option (HostInput × State) :=
  match s.port.inputs with
  | [] => none
  | i :: rest => some (i, { s with port := { s.port with inputs := rest } })

/-- The reset input: every state element takes its reset value (70_reset_and_hazards.md rule R300), and no result is returned.
The inputs behind it stay the host's. -/
def State.assertReset (s : State) : State :=
  { State.reset with port := { State.reset.port with inputs := s.port.inputs } }

/-- The host issues a command behind those it has already issued. -/
def State.issue (s : State) (c : Command) : State :=
  { s with port := { s.port with inputs := s.port.inputs ++ [.command c] } }

/-- The host issues a command before those it has already issued, so that it is the next to run. -/
def State.issueFirst (s : State) (c : Command) : State :=
  { s with port := { s.port with inputs := .command c :: s.port.inputs } }

end Sys2Proof.Machine
end

