-- ==== Sys2Proof/Machine/Checksum.lean ====
section
/-! DEFINITION. Machine/Checksum.lean: the checksum function and the CRC unit's commands CRC_COMPUTE and CRC_VERIFY
(40_checksum.md). -/

namespace Sys2Proof.Machine

open Config

/-- One turn of rule R131's inner loop: shift out bit 31, and subtract the generator 0x04C11DB7 when it was 1. -/
def crcBit (c : Word) : Word := if c.getLsbD 31 then (c <<< 1) ^^^ 0x04C11DB7#32 else c <<< 1

/-- One byte of rule R131: it enters at the top, and then eight turns. -/
def crcByte (c : Word) (b : Byte) : Word :=
  crcBit (crcBit (crcBit (crcBit (crcBit (crcBit (crcBit (crcBit (c ^^^ (b ++ 0#24)))))))))

/-- `crc32(s)` (rule R131): seed all ones, the bytes in transmission order, no final XOR. -/
def crc32 (s : Bytes) : Word := s.foldl crcByte 0xFFFFFFFF#32

/-- A closed section is CRC-valid (rule R135). -/
def crcValid (s : Bytes) : Bool := decide (crc32 (secBody s) = secCode s)

/-- `stamp(s)`: the last four bytes become the checksum of the rest (rule R136). -/
def stamp (s : Bytes) : Bytes := secBody s ++ toBe32 (crc32 (secBody s))

/-- The result of CRC_VERIFY on a string of admitted length (rule R134). -/
def crcVerdict (d : Bytes) : Bool :=
  if d.length < 4 then false else decide (crc32 (d.take (d.length - 4)) = be32 d (d.length - 4))

/-- CRC_COMPUTE (rule R133). -/
def execCrcCompute (data : Bytes) (s : State) : Host.Outcome State Fault Refusal :=
  if maxSectionSize < data.length then s.fail .errSection else s.done (some (.crc (crc32 data))) []

/-- CRC_VERIFY (rule R134). -/
def execCrcVerify (data : Bytes) (s : State) : Host.Outcome State Fault Refusal :=
  if maxSectionSize < data.length then s.fail .errSection else s.done (some (.verdict (crcVerdict data))) []

end Sys2Proof.Machine
end

