-- ==== Sys2Proof/Machine/Packetizer.lean ====
section
/-! DEFINITION. Machine/Packetizer.lean: the Packetizer and its commands PKT_LOAD, PKT_NEXT and PKT_CONFIG
(43_packetizer.md). -/

namespace Sys2Proof.Machine

open Config

/-- What the filling of a payload leaves: the payload so far, the queue and the offset into its head. -/
structure Filled where
  payload : Bytes
  queue : List Bytes
  off : Nat
deriving DecidableEq, Repr

/-- The filling of a payload from the queue (rule R216): with the flag, section after section; without it, the head's tail
only. -/
def fillPayload (pusi : Bool) (pl : Bytes) (off : Nat) : List Bytes → Filled
  | [] => { payload := pl, queue := [], off := off }
  | s :: q =>
    if pl.length < payloadMax then
      let take := min (payloadMax - pl.length) (s.length - off)
      let pl' := pl ++ (s.drop off).take take
      if off + take = s.length then
        if pusi then fillPayload pusi pl' 0 q else { payload := pl', queue := q, off := 0 }
      else { payload := pl', queue := s :: q, off := off + take }
    else { payload := pl, queue := s :: q, off := off }

/-- The bytes of the head section not yet emitted, `left` of rule R215. -/
def Packetizer.headLeft (p : Packetizer) : Nat := (p.queue.headD []).length - p.off

/-- `payload_start_flag` of the packet to build (rule R215): set exactly when a section's first byte will be in it. -/
def Packetizer.startsSection (p : Packetizer) : Bool :=
  decide (p.off = 0) || (decide (p.headLeft < payloadMax - 1) && decide (2 ≤ p.queue.length))

/-- The pointer byte of the packet to build, if it has one (rule R215). -/
def Packetizer.pointer (p : Packetizer) : Bytes :=
  if p.off = 0 then [0#8] else if p.startsSection then [BitVec.ofNat 8 p.headLeft] else []

/-- `build_packet(c)` (rules R215 to R218): the packet and the Packetizer after it. -/
def Packetizer.build (p : Packetizer) (c : Channel) : Packet × Packetizer :=
  let f := fillPayload p.startsSection p.pointer p.off p.queue
  ({ channel := c, cc := p.cc, pusi := p.startsSection, scrambled := false
     payload := f.payload ++ stuffing (payloadMax - f.payload.length) },
    { p with queue := f.queue, off := f.off, cc := p.cc + 1 })

/-- `stuffing_packet(c)` (rule R219). -/
def Packetizer.stuffingPacket (p : Packetizer) (c : Channel) : Packet :=
  { channel := c, cc := p.cc + 15, pusi := false, scrambled := false, payload := stuffing payloadMax }

/-- The packet of a channel's slot, built if the queue holds sections and stuffing otherwise, and the unit after it, with the
packet time advanced and a finished emission ended (rules R214, R222 and R251; 44_cycling.md rule R246). -/
def Enc.emitPacket (e : Enc) (c : Channel) : Packet × Enc :=
  let p := e.pkAt c
  let now := e.timeAt c
  if p.queue = [] then (p.stuffingPacket c, (e.setTime c (now + 1)).finishEmission c)
  else ((p.build c).1, ((e.setPk c (p.build c).2).setTime c (now + 1)).finishEmission c)

/-- PKT_LOAD at any value of the OPEN parameters (rules R212, R213 and R224). -/
def pktLoadWith (p : Params) (ch : Channel) (data : Bytes) (s : State) : Host.Outcome State Fault Refusal :=
  if outputSectionOk data then
    let pk := s.enc.pkAt ch
    if pk.queue.length = p.pktQueueDepth then s.fail .errCapacity
    else { s with enc := s.enc.setPk ch { pk with queue := pk.queue ++ [stamp data] } }.done none []
  else s.fail .errSection

/-- PKT_LOAD (rule R212). -/
def execPktLoad (ch : Channel) (data : Bytes) (s : State) : Host.Outcome State Fault Refusal :=
  pktLoadWith params ch data s

/-- PKT_NEXT (rule R214), with the EXHAUSTED outcome of rule R220. -/
def execPktNext (ch : Channel) (s : State) : Host.Outcome State Fault Refusal :=
  let p := s.enc.pkAt ch
  if p.queue = [] ∧ p.mode = .signal then .next (s.reply { status := .exhausted, value := none, events := [] })
  else
    let r := s.enc.emitPacket ch
    { s with enc := r.2 }.done (some (.packet r.1)) []

/-- PKT_CONFIG (rule R221). -/
def execPktConfig (ch : Channel) (mode : PktMode) (s : State) : Host.Outcome State Fault Refusal :=
  { s with enc := s.enc.setPk ch { s.enc.pkAt ch with mode := mode } }.done none []

end Sys2Proof.Machine
end

