-- ==== Sys2Proof/Machine/Cycle.lean ====
section
/-! DEFINITION. Machine/Cycle.lean: the cycle scheduler and its commands CYC_ADD, CYC_REMOVE, CYC_REPLACE and CYC_TICK
(44_cycling.md). -/

namespace Sys2Proof.Machine

open Config

/-- A SCHEDULED entry of channel `c` whose due time has come becomes DUE (rule R247). -/
def Entry.markDue (c : Channel) (now : Nat) (n : Entry) : Entry :=
  if n.ch = c ∧ n.state = .scheduled ∧ n.nextDue ≤ now then { n with state := .due } else n

/-- `mark_due(c, now)` (rule R247). -/
def Enc.markDue (e : Enc) (c : Channel) (now : Nat) : Enc := { e with entries := e.entries.mapValues (Entry.markDue c now) }

/-- The pair `(next_due, i)` comes first (rule R248). -/
def dueBefore (a b : Nat × Entry) : Bool :=
  decide (a.2.nextDue < b.2.nextDue) || (decide (a.2.nextDue = b.2.nextDue) && decide (a.1 < b.1))

/-- `select(c)`: of the DUE entries of channel `c`, the one with the least pair `(next_due, i)`; `none` when no entry of `c`
is DUE (rule R248). -/
def selectDue (c : Channel) : Keyed Entry → Option (Nat × Entry)
  | [] => none
  | (i, n) :: m =>
    if n.ch = c ∧ n.state = .due then
      match selectDue c m with
      | none => some (i, n)
      | some b => if dueBefore (i, n) b then some (i, n) else some b
    else selectDue c m

/-- `load_entry(c, i, now)` (rule R249). -/
def Enc.loadEntry (e : Enc) (c : Channel) (i : Nat) (n : Entry) (now : Nat) : Enc :=
  ((e.setPk c { e.pkAt c with queue := n.table.map stamp }).modifyEntry i fun m =>
    { m with nextDue := now + m.interval.toNat, state := .emitted }).setInflight c (some i)

/-- The selection of a tick: it happens only when the channel's queue is empty and an entry is DUE (rules R246 and R248). -/
def Enc.selectAndLoad (e : Enc) (c : Channel) (now : Nat) : Enc :=
  if (e.pkAt c).queue = [] then
    match selectDue c e.entries with
    | some (i, n) => e.loadEntry c i n now
    | none => e
  else e

/-- One tick of a channel (rule R246): the packet and the unit after it. -/
def Enc.tick (e : Enc) (c : Channel) : Packet × Enc :=
  let now := e.timeAt c
  ((e.markDue c now).selectAndLoad c now).emitPacket c

/-- CYC_ADD at any value of the OPEN parameters (rule R242). -/
def cycAddWith (p : Params) (ch : Channel) (data : Bytes) (s : State) : Host.Outcome State Fault Refusal :=
  if data.length < 6 then s.fail .errSection
  else
    match parseTable (data.drop 4) with
    | none => s.fail .errSection
    | some t =>
      if be32 data 0 = 0#32 then s.fail .errInterval
      else if s.enc.entries.length = p.maxEntries ∨ s.enc.nextId = entryIdCount then s.fail .errCapacity
      else
        let i := s.enc.nextId
        let n : Entry :=
          { ch := ch, interval := be32 data 0, table := t, nextDue := s.enc.timeAt ch, state := .scheduled }
        { s with enc := { s.enc.setEntry i n with nextId := i + 1 } }.done (some (.entryId (BitVec.ofNat 15 i))) []

/-- CYC_ADD (rule R242). -/
def execCycAdd (ch : Channel) (data : Bytes) (s : State) : Host.Outcome State Fault Refusal :=
  cycAddWith params ch data s

/-- CYC_REMOVE (rule R244). -/
def execCycRemove (id : EntryId) (s : State) : Host.Outcome State Fault Refusal :=
  match s.enc.entryAt id.toNat with
  | none => s.fail .errNoEntry
  | some n =>
    let e := s.enc.removeEntry id.toNat
    let e' := if e.inflightAt n.ch = some id.toNat then e.setInflight n.ch none else e
    { s with enc := e' }.done none []

/-- CYC_REPLACE (rule R245). Repeated with the same operands it changes nothing and ends OK again, as R245's pseudocode has it, though
20_memory.md rule R76 does not name it among the idempotent commands; DEDUCED, log 16. -/
def execCycReplace (id : EntryId) (data : Bytes) (s : State) : Host.Outcome State Fault Refusal :=
  match s.enc.entryAt id.toNat with
  | none => s.fail .errNoEntry
  | some _ =>
    match parseTable data with
    | none => s.fail .errSection
    | some t => { s with enc := s.enc.modifyEntry id.toNat fun n => { n with table := t } }.done none []

/-- CYC_TICK (rule R246). -/
def execCycTick (ch : Channel) (s : State) : Host.Outcome State Fault Refusal :=
  let r := s.enc.tick ch
  { s with enc := r.2 }.done (some (.packet r.1)) []

end Sys2Proof.Machine
end

