-- ==== Sys2Proof/Machine/Demux.lean ====
section
/-! DEFINITION. Machine/Demux.lean: the DMX unit's control commands DMX_RESET and DMX_RESET_ALL (42_demux.md section 2). -/

namespace Sys2Proof.Machine

/-- DMX_RESET (rule R199). -/
def execDmxReset (ch : Channel) (s : State) : Host.Outcome State Fault Refusal :=
  { s with dmx := s.dmx.setChan ch none }.done none []

/-- DMX_RESET_ALL (rule R200). -/
def execDmxResetAll (s : State) : Host.Outcome State Fault Refusal :=
  { s with dmx := { chan := [] } }.done none []

end Sys2Proof.Machine
end

