-- ==== Sys2Proof/Machine/Aggregator.lean ====
section
/-! DEFINITION. Machine/Aggregator.lean: the table aggregator (42_demux.md section 1). -/

namespace Sys2Proof.Machine

open Config

/-- What a FEED works on: its channel's record and the events emitted so far. -/
structure Rx where
  chan : ChanRec
  events : List Event
deriving DecidableEq, Repr

/-- `emit E` (00_scope.md rule R12). -/
def Rx.emit (r : Rx) (e : Event) : Rx := { r with events := r.events ++ [e] }

/-- `C.buf <- b`. -/
def Rx.withBuf (r : Rx) (b : Bytes) : Rx := { r with chan := { r.chan with buf := b } }

/-- `C.aggs <- m`. -/
def Rx.withAggs (r : Rx) (m : Keyed Agg) : Rx := { r with chan := { r.chan with aggs := m } }

/-- The key `(table_id, table_id_extension)` of an aggregation as one number (42_demux.md rule R191); one number for each
pair. -/
def aggKey (t : BitVec 8) (x : BitVec 16) : Nat := t.toNat * 65536 + x.toNat

/-- A channel with `n` aggregations has room for one more (rule R197). -/
def hasRoom (p : Params) (n : Nat) : Bool :=
  match p.aggCapacity with
  | none => true
  | some cap => decide (n < cap)

/-- The aggregation that starts from a section: every slot empty (rules R190 to R193). -/
def Agg.fresh (v : BitVec 5) (lsn : BitVec 8) : Agg :=
  { version := v, lastSn := lsn, slots := List.replicate (lsn.toNat + 1) none }

/-- The aggregation a section with version `v` and last section number `lsn` is recorded in: its key's own one if both agree,
else a fresh one in its place (rules R191 to R193). A fresh one under a new key needs room (rule R197, log 5). -/
def aggFor (p : Params) (m : Keyed Agg) (k : Nat) (v : BitVec 5) (lsn : BitVec 8) : Except Refusal Agg :=
  match m.find k with
  | some a => if a.version = v ∧ a.lastSn = lsn then .ok a else .ok (Agg.fresh v lsn)
  | none => if hasRoom p m.length then .ok (Agg.fresh v lsn) else .error .aggregationCapacity

/-- `a.slots[sn] <- Some s` (rule R194). -/
def Agg.record (a : Agg) (sn : BitVec 8) (s : Bytes) : Agg := { a with slots := a.slots.set sn.toNat (some s) }

/-- Every slot holds a section (rule R195). -/
def Agg.complete (a : Agg) : Bool := a.slots.all Option.isSome

/-- The table record of a complete aggregation (rule R198). -/
def Agg.table (a : Agg) (t : BitVec 8) (x : BitVec 16) : TableRecord :=
  { tableId := t, tableIdExtension := x, version := a.version, lastSectionNumber := a.lastSn
    sections := a.slots.reduceOption }

/-- `aggregate(C, c, s)` (rule R190). -/
def aggregate (p : Params) (c : Channel) (r : Rx) (s : Bytes) : Except Refusal Rx :=
  if secLastSn s < secSn s then .ok (r.emit (.validationFailure c .badSectionNumber))
  else
    let k := aggKey (secTableId s) (secExt s)
    match aggFor p r.chan.aggs k (secVersion s) (secLastSn s) with
    | .error e => .error e
    | .ok old =>
      let a := old.record (secSn s) s
      if a.complete then
        .ok ((r.emit (.tableCompleted c (a.table (secTableId s) (secExt s)))).withAggs (r.chan.aggs.erase k))
      else .ok (r.withAggs (r.chan.aggs.insert k a))

end Sys2Proof.Machine
end

