-- ==== Sys2Proof/Machine/Reassembler.lean ====
section
/-! DEFINITION. Machine/Reassembler.lean: FEED, the section reassembler and the sequence-counter check
(41_reassembler.md). -/

namespace Sys2Proof.Machine

open Config

/-- The outcomes of `append` (rule R164): CLOSED, BAD and OPEN. -/
inductive AppendOutcome where
  | closed
  | bad
  | unfinished
deriving DecidableEq, Repr

/-- `close(C, c)` of a section whose declared length has been accumulated (rules R165 and R166). `r` already has
`buf = []`. -/
def closeSection (p : Params) (c : Channel) (r : Rx) (s : Bytes) : Except Refusal Rx :=
  if crcValid s then aggregate p c (r.emit (.sectionCompleted c s)) s
  else .ok (r.emit (.validationFailure c .crcMismatch))

/-- One turn of `append`'s loop: the byte joins the partial section, the length is checked when the third byte arrives, and
the section closes when its declared length is reached (rule R164). -/
def appendByte (p : Params) (c : Channel) (r : Rx) (b : Byte) : Except Refusal (Rx × AppendOutcome) :=
  let buf := r.chan.buf ++ [b]
  if buf.length = 3 ∧ maxSectionSize < declLen buf then
    .ok ((r.emit (.validationFailure c .sectionTooLong)).withBuf [], .bad)
  else if buf.length = 3 ∧ declLen buf < minSectionSize then
    .ok ((r.emit (.validationFailure c .sectionTooShort)).withBuf [], .bad)
  else if 3 ≤ buf.length ∧ buf.length = declLen buf then
    match closeSection p c (r.withBuf []) buf with
    | .error e => .error e
    | .ok r' => .ok (r', .closed)
  else .ok (r.withBuf buf, .unfinished)

/-- `append(C, c, s, i)` with `s` the bytes from index `i` on (rule R164): the bytes not read, and the outcome. -/
def append (p : Params) (c : Channel) (r : Rx) : Bytes → Except Refusal (Rx × Bytes × AppendOutcome)
  | [] => .ok (r, [], .unfinished)
  | b :: rest =>
    match appendByte p c r b with
    | .error e => .error e
    | .ok (r', .unfinished) => append p c r' rest
    | .ok (r', .closed) => .ok (r', rest, .closed)
    | .ok (r', .bad) => .ok (r', rest, .bad)

/-- The bytes before the pointer complete the partial section (rule R160); after it `buf = []`. -/
def finishPartial (p : Params) (c : Channel) (r : Rx) (pre : Bytes) : Except Refusal Rx :=
  if r.chan.buf = [] then .ok r
  else
    match append p c r pre with
    | .error e => .error e
    | .ok (r', _, .unfinished) => .ok ((r'.emit (.validationFailure c .lengthInconsistent)).withBuf [])
    | .ok (r', _, _) => .ok r'

/-- The bytes from the pointer on: sections back to back (rule R161), until a stuffing byte where a section would begin
(rule R162). The loop of rule R161 with its calls of `append` unrolled to one byte a turn; `parseSections_eq_append` in
Laws/Reassembler.lean shows that it is that loop. -/
def parseSections (p : Params) (c : Channel) (r : Rx) : Bytes → Except Refusal Rx
  | [] => .ok r
  | b :: rest =>
    if r.chan.buf = [] ∧ b = stuffByte then .ok r
    else
      match appendByte p c r b with
      | .error e => .error e
      | .ok (r', .bad) => .ok r'
      | .ok (r', .closed) => parseSections p c r' rest
      | .ok (r', .unfinished) => parseSections p c r' rest

/-- `start_packet(C, c, p)` (rule R159). -/
def startPacket (p : Params) (c : Channel) (r : Rx) : Bytes → Except Refusal Rx
  | [] => .ok r
  | ptr :: data =>
    if data.length ≤ ptr.toNat then .ok ((r.emit (.validationFailure c .badPointer)).withBuf [])
    else
      match finishPartial p c r (data.take ptr.toNat) with
      | .error e => .error e
      | .ok r' => parseSections p c r' (data.drop ptr.toNat)

/-- `continue_packet(C, c, p)` (rule R163). -/
def continuePacket (p : Params) (c : Channel) (r : Rx) (payload : Bytes) : Except Refusal Rx :=
  if r.chan.buf = [] then .ok r
  else
    match append p c r payload with
    | .error e => .error e
    | .ok (r', _, _) => .ok r'

/-- The continuity check of a packet that is no duplicate: a discontinuity emits its event and drops the partial section
(rules R155 and R157), and the counter is taken (rule R158). -/
def takeCounter (c : Channel) (rec : ChanRec) (cc : Counter) : Rx :=
  match rec.lastCc with
  | none => { chan := { rec with lastCc := some cc }, events := [] }
  | some prev =>
    if cc = prev + 1 then { chan := { rec with lastCc := some cc }, events := [] }
    else { chan := { rec with lastCc := some cc, buf := [] }, events := [.discontinuity c (prev + 1) cc] }

/-- FEED's work on its channel's record, for a payload of admitted length (rule R150). -/
def feedPacket (p : Params) (c : Channel) (rec : ChanRec) (cc : Counter) (pusi scr : Bool) (payload : Bytes) :
    Except Refusal Rx :=
  if scr then
    .ok { chan := { rec with lastCc := if p.scrambledUpdatesCc && !payload.isEmpty then some cc else rec.lastCc }
          events := [.scrambledSkipped c] }
  else if payload = [] then .ok { chan := rec, events := [] }
  else if rec.lastCc = some cc then .ok { chan := rec, events := [] }
  else if pusi then startPacket p c (takeCounter c rec cc) payload
  else continuePacket p c (takeCounter c rec cc) payload

/-- FEED at any value of the OPEN parameters (rules R150 to R152). -/
def feedWith (p : Params) (ch : Channel) (cc : Counter) (pusi scr : Bool) (payload : Bytes) (s : State) :
    Host.Outcome State Fault Refusal :=
  if payloadMax < payload.length then s.fail .errPacket
  else
    match feedPacket p ch ((s.dmx.chanAt ch).getD ChanRec.fresh) cc pusi scr payload with
    | .error e => .refused e
    | .ok r => { s with dmx := s.dmx.setChan ch (some r.chan) }.done none r.events

/-- FEED (rule R150). -/
def execFeed (ch : Channel) (cc : Counter) (pusi scr : Bool) (payload : Bytes) (s : State) :
    Host.Outcome State Fault Refusal :=
  feedWith params ch cc pusi scr payload s

end Sys2Proof.Machine
end

