-- ==== Sys2Proof/Machine/Dispatch.lean ====
section
/-! DEFINITION. Machine/Dispatch.lean: one arm per command, each one call of its meaning. -/

namespace Sys2Proof.Machine

def exec (i : Instr) (s : State) : Host.Outcome State Fault Refusal :=
  match i with
  | .feed ch cc pusi scr payload => Sys2Proof.Machine.execFeed ch cc pusi scr payload s
  | .dmxReset ch => Sys2Proof.Machine.execDmxReset ch s
  | .dmxResetAll => Sys2Proof.Machine.execDmxResetAll s
  | .crcCompute data => Sys2Proof.Machine.execCrcCompute data s
  | .crcVerify data => Sys2Proof.Machine.execCrcVerify data s
  | .pktLoad ch data => Sys2Proof.Machine.execPktLoad ch data s
  | .pktNext ch => Sys2Proof.Machine.execPktNext ch s
  | .pktConfig ch mode => Sys2Proof.Machine.execPktConfig ch mode s
  | .cycAdd ch data => Sys2Proof.Machine.execCycAdd ch data s
  | .cycRemove id => Sys2Proof.Machine.execCycRemove id s
  | .cycReplace id data => Sys2Proof.Machine.execCycReplace id data s
  | .cycTick ch => Sys2Proof.Machine.execCycTick ch s

end Sys2Proof.Machine
end

