-- ==== Sys2Proof/Machine/Step.lean ====
section
/-! DEFINITION. Machine/Step.lean: one step of the machine: one input of the host. The TSE has no program counter and fetches
nothing (10_state.md rule R32): a step takes the next command from the port, in issue order, and runs it whole
(00_scope.md rule R4, 20_memory.md rule R79). -/

namespace Sys2Proof.Machine

/-- One step. With no input waiting the TSE does nothing (60_exceptions.md rule R282). An ILLEGAL word fails with status
ILLEGAL (30_encoding.md rule R107); an operand of the wrong length is refused (rule R108). -/
def step (s : State) : Host.Outcome State Fault Refusal :=
  match s.nextInput with
  | none => .next s
  | some (.reset, s') => .next s'.assertReset
  | some (.command c, s') =>
    match decode c with
    | .ok i => exec i s'
    | .error .illegal => s'.fail .illegal
    | .error .operandLength => .refused .operandLength

/-- The state in which the host's next command is the opcode table's word `w`; log 3 says that it stands for the host issuing
it. -/
def State.withFetchWord (s : State) (nbits w : Nat) : State := s.issueFirst (tableCommand nbits w)

end Sys2Proof.Machine
end

