-- ==== Sys2Proof/Machine/Flags.lean ====
section
/-! DEFINITION. Machine/Flags.lean: the numeric codes of the outputs. The TSE has no status flags or condition codes as state
(10_state.md rule R50): a command returns a status code and events, and these are their numbers. -/

namespace Sys2Proof.Machine

/-- The `u4` status code (60_exceptions.md rule R272). -/
def Status.code : Status → BitVec 4
  | .ok => 0
  | .illegal => 1
  | .errPacket => 2
  | .errSection => 3
  | .errNoEntry => 4
  | .errInterval => 5
  | .errCapacity => 6
  | .exhausted => 7

/-- Every code but OK and EXHAUSTED is a failure (rule R272). -/
def Status.isFailure : Status → Bool
  | .ok => false
  | .exhausted => false
  | .illegal => true
  | .errPacket => true
  | .errSection => true
  | .errNoEntry => true
  | .errInterval => true
  | .errCapacity => true

/-- The `u3` reason code of a VALIDATION_FAILURE (rule R276). -/
def Reason.code : Reason → BitVec 3
  | .crcMismatch => 1
  | .lengthInconsistent => 2
  | .sectionTooLong => 3
  | .sectionTooShort => 4
  | .badPointer => 5
  | .badSectionNumber => 6

/-- The event kind (rule R275). -/
def Event.kind : Event → Nat
  | .sectionCompleted _ _ => 1
  | .tableCompleted _ _ => 2
  | .validationFailure _ _ => 3
  | .discontinuity _ _ _ => 4
  | .scrambledSkipped _ => 5

/-- The channel an event names (rule R275). -/
def Event.channel : Event → Channel
  | .sectionCompleted c _ => c
  | .tableCompleted c _ => c
  | .validationFailure c _ => c
  | .discontinuity c _ _ => c
  | .scrambledSkipped c => c

end Sys2Proof.Machine
end

