-- ==== Sys2Proof/Safety.lean ====
section
/-! DEFINITION. Safety.lean: the invariants the spec says the units keep between commands (10_state.md rules R34 to R48),
with the canonical form of the tables, and the words the statements are written in. -/

namespace Sys2Proof.Machine

open Config

/-- What a section is once it is closed and accepted, or stamped and queued (30_encoding.md rule R96, 10_state.md rule R48
item 5, 40_checksum.md rule R135). -/
structure GoodSection (s : Bytes) : Prop where
  shape : outputSectionOk s = true
  valid : crcValid s = true

/-- A partial section (rules R34 and R38 items 1 and 2). -/
structure GoodBuf (b : Bytes) : Prop where
  length_lt : b.length < maxSectionSize
  declared : 3 ≤ b.length → minSectionSize ≤ declLen b ∧ declLen b ≤ maxSectionSize ∧ b.length < declLen b
  not_stuffing : b ≠ [] → byteAt b 0 ≠ stuffByte

/-- An aggregation at the key `k` (rules R37 and R38 items 3 and 4). -/
structure GoodAgg (k : Nat) (a : Agg) : Prop where
  slot_count : a.slots.length = a.lastSn.toNat + 1
  incomplete : none ∈ a.slots
  recorded : ∀ n s, a.slots[n]? = some (some s) →
    GoodSection s ∧ aggKey (secTableId s) (secExt s) = k ∧ secVersion s = a.version ∧ secLastSn s = a.lastSn ∧
      (secSn s).toNat = n

/-- A channel record (rules R34 and R38). -/
structure GoodChan (p : Params) (r : ChanRec) : Prop where
  buf : GoodBuf r.buf
  aggs_rising : r.aggs.Rising
  aggs : ∀ k a, (k, a) ∈ r.aggs → GoodAgg k a
  room : ∀ n, p.aggCapacity = some n → r.aggs.length ≤ n

/-- The DMX unit (rules R33 and R38). -/
structure GoodDmx (p : Params) (d : Dmx) : Prop where
  rising : d.chan.Rising
  keys : ∀ k r, (k, r) ∈ d.chan → k < channelCount
  chans : ∀ k r, (k, r) ∈ d.chan → GoodChan p r

/-- A Packetizer (rules R39, R40 and R48 item 5). -/
structure GoodPk (p : Params) (q : Packetizer) : Prop where
  depth : q.queue.length ≤ p.pktQueueDepth
  off_empty : q.queue = [] → q.off = 0
  off_head : ∀ s rest, q.queue = s :: rest → q.off < s.length
  sections : ∀ s ∈ q.queue, GoodSection s

/-- A cycle entry at the id `i` (rules R44 and R48 item 4). -/
structure GoodEntry (nextId i : Nat) (n : Entry) : Prop where
  id_lt : i < nextId
  interval_pos : n.interval ≠ 0#32
  table_pos : 1 ≤ n.table.length
  table_le : n.table.length ≤ maxTableSections
  sections : ∀ s ∈ n.table, outputSectionOk s = true

/-- The ENC unit (rules R39 to R48). -/
structure GoodEnc (p : Params) (e : Enc) : Prop where
  pk_rising : e.pk.Rising
  pk_entries : ∀ k q, (k, q) ∈ e.pk → k < channelCount ∧ q ≠ Packetizer.reset ∧ GoodPk p q
  time_rising : e.time.Rising
  time_entries : ∀ k t, (k, t) ∈ e.time → k < channelCount ∧ t ≠ 0
  inflight_rising : e.inflight.Rising
  inflight_keys : ∀ k i, (k, i) ∈ e.inflight → k < channelCount
  entries_rising : e.entries.Rising
  entries : ∀ i n, (i, n) ∈ e.entries → GoodEntry e.nextId i n
  entries_count : e.entries.length ≤ p.maxEntries
  nextId_le : e.nextId ≤ entryIdCount
  /-- Rule R48 item 1, and with it item 2. -/
  emitted_iff : ∀ i n, e.entryAt i = some n → (n.state = .emitted ↔ e.inflightAt n.ch = some i)
  /-- An entry in flight is an entry of its channel (rule R47), and rule R48 item 3. -/
  inflight_live : ∀ c i, e.inflightAt c = some i →
    (∃ n, e.entryAt i = some n ∧ n.ch = c) ∧ (e.pkAt c).queue ≠ []

/-- The invariant of the machine: rules R38 and R48, for the parameters it is built with. -/
structure State.Inv (s : State) : Prop where
  dmx : GoodDmx params s.dmx
  enc : GoodEnc params s.enc

/-! ## Words for the statements -/

/-- The TSE's state is the same: only the port may differ. -/
def SameUnits (s t : State) : Prop := t.dmx = s.dmx ∧ t.enc = s.enc

/-- The port after a command that ended with this result: nothing else of the port changed. -/
def Returned (s t : State) (st : Status) (v : Option Value) (evs : List Event) : Prop :=
  t.port.inputs = s.port.inputs ∧ t.port.result = some { status := st, value := v, events := evs }

/-- Every DMX channel but `ch` is unchanged. -/
def DmxElsewhere (s t : State) (ch : Channel) : Prop := ∀ c, c ≠ ch → t.dmx.chanAt c = s.dmx.chanAt c

/-- The Packetizer, the packet time and the entry in flight of every channel but `ch` are unchanged. -/
def EncElsewhere (s t : State) (ch : Channel) : Prop :=
  ∀ c, c ≠ ch → t.enc.pkAt c = s.enc.pkAt c ∧ t.enc.timeAt c = s.enc.timeAt c ∧ t.enc.inflightAt c = s.enc.inflightAt c

/-- The schedule is unchanged: every cycle entry and the next id. -/
def SameSchedule (s t : State) : Prop := (∀ i, t.enc.entryAt i = s.enc.entryAt i) ∧ t.enc.nextId = s.enc.nextId

/-- The record a FEED on `ch` works on: the channel's own, or a fresh one (41_reassembler.md rule R152). -/
def State.chanRec (s : State) (ch : Channel) : ChanRec := (s.dmx.chanAt ch).getD ChanRec.fresh

/-- The counter `cc` is accepted on the record without a discontinuity, and is no duplicate (rule R155). -/
def Continues (r : ChanRec) (cc : Counter) : Prop := ∀ prev, r.lastCc = some prev → cc = prev + 1

/-- The FEED completes with status OK: it leaves the record `r` on its channel and emits `evs`, and touches nothing else. -/
def FeedGives (ch : Channel) (cc : Counter) (pusi scr : Bool) (payload : Bytes) (s : State) (r : ChanRec)
    (evs : List Event) : Prop :=
  ∃ t, exec (.feed ch cc pusi scr payload) s = .next t ∧ t.dmx.chanAt ch = some r ∧ DmxElsewhere s t ch ∧
    t.enc = s.enc ∧ Returned s t .ok none evs

/-- The entry is DUE at a tick of its channel at packet time `now`, or becomes so at its start (44_cycling.md rule R247). -/
def Ready (n : Entry) (now : Nat) : Prop := n.state = .due ∨ (n.state = .scheduled ∧ n.nextDue ≤ now)

/-- The section bytes of a Packetizer not yet emitted, in order. -/
def Packetizer.remaining (p : Packetizer) : Bytes := p.queue.flatten.drop p.off

/-- The packets of `n` packet slots of a channel, emitted one after the other, and the unit after them. -/
def Enc.emitMany (c : Channel) : Nat → Enc → List Packet × Enc
  | 0, e => ([], e)
  | n + 1, e => ((e.emitPacket c).1 :: ((e.emitPacket c).2.emitMany c n).1, ((e.emitPacket c).2.emitMany c n).2)

/-- The events of packets fed in order to one channel record, and the record after them. -/
def feedAll (p : Params) (c : Channel) : List Packet → ChanRec → Except Refusal (List Event × ChanRec)
  | [], r => .ok ([], r)
  | k :: rest, r =>
    match feedPacket p c r k.cc k.pusi k.scrambled k.payload with
    | .error e => .error e
    | .ok x =>
      match feedAll p c rest x.chan with
      | .error e => .error e
      | .ok (evs, r') => .ok (x.events ++ evs, r')

/-- The section of a SECTION_COMPLETED. -/
def Event.completedSection : Event → Option Bytes
  | .sectionCompleted _ s => some s
  | .tableCompleted _ _ => none
  | .validationFailure _ _ => none
  | .discontinuity _ _ _ => none
  | .scrambledSkipped _ => none

/-- The events that a completed section gives: SECTION_COMPLETED, and what its aggregation causes (rules R165, R195 and R196). -/
def Event.ofSection : Event → Bool
  | .sectionCompleted _ _ => true
  | .tableCompleted _ _ => true
  | .validationFailure _ r => decide (r = .badSectionNumber)
  | .discontinuity _ _ _ => false
  | .scrambledSkipped _ => false

/-- CRC-valid sections reported and handed to the aggregator one after the other (rules R165, R166 and R190). -/
def aggregateAll (p : Params) (c : Channel) : List Bytes → Rx → Except Refusal Rx
  | [], r => .ok r
  | x :: xs, r =>
    match aggregate p c (r.emit (.sectionCompleted c x)) x with
    | .error e => .error e
    | .ok r' => aggregateAll p c xs r'

/-- Sections whose declared length is reached, closed one after the other (rule R165): one whose checksum fails is discarded with
CRC_MISMATCH, a valid one is reported and handed to the aggregator. -/
def closeAll (p : Params) (c : Channel) : List Bytes → Rx → Except Refusal Rx
  | [], r => .ok r
  | x :: xs, r =>
    if crcValid x then
      match aggregate p c (r.emit (.sectionCompleted c x)) x with
      | .error e => .error e
      | .ok r' => closeAll p c xs r'
    else closeAll p c xs (r.emit (.validationFailure c .crcMismatch))

/-- The channel of an accepted packet before its sections: the packet's counter, no partial section, the aggregations as they
stand, no event yet (rule R158). -/
def State.accepted (s : State) (ch : Channel) (cc : Counter) : Rx :=
  { chan := { lastCc := some cc, buf := [], aggs := (s.chanRec ch).aggs }, events := [] }

/-- The FEED of a packet that is not scrambled ends as `o` says: with that record and those events, or refused. -/
def FeedEnds (ch : Channel) (cc : Counter) (pusi : Bool) (payload : Bytes) (s : State) (o : Except Refusal Rx) : Prop :=
  match o with
  | .ok r => FeedGives ch cc pusi false payload s r.chan r.events
  | .error e => exec (.feed ch cc pusi false payload) s = .refused e

/-- The three bytes of a section header whose declared length is out of bounds, and the reason FEED gives (rule R164). -/
def BadLength (h : Bytes) (reason : Reason) : Prop :=
  h.length = 3 ∧ ((reason = .sectionTooLong ∧ maxSectionSize < declLen h) ∨
    (reason = .sectionTooShort ∧ declLen h < minSectionSize))

/-- How a packet with the flag can end behind its last whole section: the bytes there, the partial section they leave, and their
events (rules R161, R162 and R164). -/
inductive PacketTail (c : Channel) : Bytes → Bytes → List Event → Prop where
  /-- Nothing, or a section that is still open. -/
  | unfinished (y : Bytes) : GoodBuf y → PacketTail c y y []
  /-- A stuffing byte where a section would begin, and anything after it. -/
  | stuffing (rest : Bytes) : PacketTail c (stuffByte :: rest) [] []
  /-- A section header whose declared length is out of bounds, and anything after it. -/
  | badLength (h rest : Bytes) (reason : Reason) : BadLength h reason → byteAt h 0 ≠ stuffByte →
      PacketTail c (h ++ rest) [] [.validationFailure c reason]

/-- What the bytes from the pointer on make of `r`: the sections `xs` are closed, and behind them the packet ends with the partial
section `y` and the events `evs`. -/
def closeThenEnd (p : Params) (c : Channel) (xs : List Bytes) (y : Bytes) (evs : List Event) (r : Rx) : Except Refusal Rx :=
  (closeAll p c xs r).map fun r' => ⟨{ r'.chan with buf := y }, r'.events ++ evs⟩

end Sys2Proof.Machine
end

