-- ==== Sys2Proof/Certificates/Slice0/Obligations.lean ====
section
/-! DEFINITION. Certificates/Slice0/Obligations.lean: the statements for the provers, in the order of the spec's files. -/

open Sys2Proof Sys2Proof.Machine Sys2Proof.Config

/-! ## Encoding (30_encoding.md) -/

/-- Rules R91 to R94: every well-formed instruction, with every operand the fields admit, is what its own command decodes to. -/
def Obligations.DecodeOfEncode : Prop :=
  ∀ i : Instr, i.wellFormed = true → decode (encode i) = .ok i

/-- Rules R91 to R94: a command that decodes is the one command of its instruction; no bit of a header word is ignored. -/
def Obligations.EncodeOfDecode : Prop :=
  ∀ (c : Command) (i : Instr), decode c = .ok i → i.wellFormed = true ∧ encode i = c

/-- Rule R93: a word decodes to an opcode only when the word under the row's mask is the row's match, the words that fit no row
are the ILLEGAL ones, and no word fits two rows. -/
def Obligations.WordIsOpcodeExactlyByMask : Prop :=
  (∀ c i, decode c = .ok i → i.row.fits c.header = true ∧ i.row ∈ opcodeTable) ∧
    (∀ c, decode c = .error .illegal ↔ ∀ r ∈ opcodeTable, r.fits c.header = false) ∧
    (∀ (w : Word) r₁ r₂, r₁ ∈ opcodeTable → r₂ ∈ opcodeTable → r₁.fits w = true → r₂.fits w = true → r₁ = r₂)

/-- Words written out by hand from the encodings of rule R93, and the instructions they stand for. -/
def Obligations.HandWrittenWordsDecode : Prop :=
  decode ⟨0x10800075#32, [0x00#8]⟩ = .ok (.feed 0x100 5 true true [0x00#8]) ∧
    decode ⟨0x20108000#32, []⟩ = .ok (.dmxReset 0x21) ∧
    decode ⟨0x50000004#32, [0xFF#8, 0xFF#8, 0xFF#8, 0xFF#8]⟩ = .ok (.crcVerify [0xFF#8, 0xFF#8, 0xFF#8, 0xFF#8]) ∧
    decode ⟨0x80800001#32, []⟩ = .ok (.pktConfig 0x100 .signal) ∧
    decode ⟨0xA0007FFF#32, []⟩ = .ok (.cycRemove 0x7FFF) ∧
    decode ⟨0xC0000001#32, []⟩ = .error .illegal

/-- Rule R108: for the four commands whose header holds the length, a step refuses the command for its operand length exactly when
the data operand has another length; CYC_ADD and CYC_REPLACE run with an operand of any length. That a command which takes no data
operand is refused in the same way when it is given one is the model's choice (log 7). -/
def Obligations.OperandLengthDecides : Prop :=
  ∀ (s : State) (c : Command) (rest : List HostInput), s.port.inputs = .command c :: rest →
    (((Instr.feed 0 0 false false []).row.fits c.header = true →
        (step s = .refused .operandLength ↔ c.data.length ≠ feedLength c.header)) ∧
      (∀ i ∈ [Instr.crcCompute [], Instr.crcVerify [], Instr.pktLoad 0 []], i.row.fits c.header = true →
        (step s = .refused .operandLength ↔ c.data.length ≠ sectionLength c.header)) ∧
      (∀ i ∈ [Instr.cycAdd 0 [], Instr.cycReplace 0 []], i.row.fits c.header = true → ∃ t, step s = .next t) ∧
      (∀ i ∈ [Instr.dmxReset 0, Instr.dmxResetAll, Instr.pktNext 0, Instr.pktConfig 0 .stuff, Instr.cycRemove 0,
          Instr.cycTick 0], i.row.fits c.header = true →
        (c.data ≠ [] → step s = .refused .operandLength) ∧ (c.data = [] → ∃ t, step s = .next t)))

/-- Rules R99 and R243: `parse_table` accepts exactly the table operands of 1 to 256 sections that pass the output-section
check, and gives those sections. -/
def Obligations.TableOperandParsesExactly : Prop :=
  ∀ (b : Bytes) (t : List Bytes), parseTable b = some t ↔
    1 ≤ t.length ∧ t.length ≤ maxTableSections ∧ (∀ s ∈ t, outputSectionOk s = true) ∧ b = tableOperand t

/-! ## The step, reset, and what holds of every command -/

/-- Rules R4 and R79: when the host's next input is a command that decodes, a step takes it from the port and is `exec` of its
instruction; the inputs behind it stay. -/
def Obligations.StepRunsDecodedCommand : Prop :=
  ∀ (s : State) (c : Command) (rest : List HostInput) (i : Instr),
    s.port.inputs = .command c :: rest → decode c = .ok i →
      step s = exec i { s with port := { s.port with inputs := rest } }

/-- Rule R107: a word that fits no row of the table fails with status ILLEGAL, whatever the data operand: no state of the TSE is
written, there is no value and no event, and the command is used up. -/
def Obligations.IllegalWordFails : Prop :=
  ∀ (s : State) (c : Command) (rest : List HostInput), s.port.inputs = .command c :: rest →
    (∀ r ∈ opcodeTable, r.fits c.header = false) →
      step s = .next { s with port := { inputs := rest, result := some ⟨.illegal, none, []⟩ } }

/-- Rule R54: the value of every state element after reset. -/
def Obligations.ResetValues : Prop :=
  ∀ (c : Channel) (i : Nat),
    State.reset.dmx.chanAt c = none ∧ (State.reset.enc.pkAt c).queue = [] ∧ (State.reset.enc.pkAt c).off = 0 ∧
      (State.reset.enc.pkAt c).cc = 0 ∧ (State.reset.enc.pkAt c).mode = .stuff ∧ State.reset.enc.timeAt c = 0 ∧
      State.reset.enc.inflightAt c = none ∧ State.reset.enc.entryAt i = none ∧ State.reset.enc.nextId = 0

/-- Rule R300, with rule R282: when the reset input is asserted every element of the TSE takes its reset value, from any state;
and with no input waiting nothing happens. That a waiting input is held in the port is the model's choice (log 2). -/
def Obligations.ResetInputAndIdle : Prop :=
  (∀ (s : State) (rest : List HostInput), s.port.inputs = .reset :: rest →
      ∃ t, step s = .next t ∧ t.dmx = State.reset.dmx ∧ t.enc = State.reset.enc ∧ t.port.inputs = rest ∧
        t.port.result = none) ∧
    (∀ s : State, s.port.inputs = [] → step s = .next s)

/-- Rules R38 and R48: the units keep their invariants between commands, with the canonical form of the tables. -/
def Obligations.StepKeepsUnitInvariants : Prop :=
  ∀ s t : State, s.Inv → step s = .next t → t.Inv

/-- The invariants of rules R38 and R48 hold after reset. -/
def Obligations.ResetMeetsUnitInvariants : Prop := State.reset.Inv

/-- Rule R271: a command that fails leaves the TSE as it was, with no value and no event; it is used up. -/
def Obligations.FailedCommandChangesNothing : Prop :=
  ∀ (s t : State) (c : Command) (rest : List HostInput) (st : Status),
    s.port.inputs = .command c :: rest → step s = .next t → t.status = some st → st.isFailure = true →
      SameUnits s t ∧ t.port.inputs = rest ∧ t.value = none ∧ t.events = []

/-- Rule R95: which commands return a value and of what kind, and that only FEED emits events. -/
def Obligations.ResultsHaveTheirKinds : Prop :=
  ∀ (i : Instr) (s t : State), exec i s = .next t →
    ∃ r, t.port.result = some r ∧
      (r.events = [] ∨ ∃ ch cc pusi scr payload, i = .feed ch cc pusi scr payload) ∧
      (r.status ≠ .ok → r.value = none ∧ r.events = []) ∧
      (r.status = .ok →
        match i with
        | .crcCompute _ => ∃ v, r.value = some (.crc v)
        | .crcVerify _ => ∃ v, r.value = some (.verdict v)
        | .pktNext _ => ∃ p, r.value = some (.packet p)
        | .cycTick _ => ∃ p, r.value = some (.packet p)
        | .cycAdd _ _ => ∃ id, r.value = some (.entryId id)
        | .feed _ _ _ _ _ => r.value = none
        | .dmxReset _ => r.value = none
        | .dmxResetAll => r.value = none
        | .pktLoad _ _ => r.value = none
        | .pktConfig _ _ => r.value = none
        | .cycRemove _ => r.value = none
        | .cycReplace _ _ => r.value = none)

/-- Rule R3: no unit reads or writes another unit's state. Written: a command leaves the other units as they were. Read: from
two states that agree on its own unit, a command ends the same way, with the same result and the same state of that
unit. -/
def Obligations.UnitsAreIsolated : Prop :=
  ∀ (i : Instr) (s s' t : State), exec i s = .next t →
    (i.unit ≠ .dmx → t.dmx = s.dmx) ∧ (i.unit ≠ .enc → t.enc = s.enc) ∧ t.port.inputs = s.port.inputs ∧
      ((i.unit = .dmx → s'.dmx = s.dmx) → (i.unit = .enc → s'.enc = s.enc) →
        ∃ t', exec i s' = .next t' ∧ t'.port.result = t.port.result ∧ (i.unit = .dmx → t'.dmx = t.dmx) ∧
          (i.unit = .enc → t'.enc = t.enc))

/-- Rule R80: two commands to different units may be issued in either order: the same results and the same end state. -/
def Obligations.CommandsToDifferentUnitsCommute : Prop :=
  ∀ (i j : Instr) (s s₁ s₂ : State), i.unit ≠ j.unit → exec i s = .next s₁ → exec j s₁ = .next s₂ →
    ∃ t₁ t₂, exec j s = .next t₁ ∧ exec i t₁ = .next t₂ ∧ SameUnits s₂ t₂ ∧ t₁.port.result = s₂.port.result ∧
      t₂.port.result = s₁.port.result

/-- Rule R197: no command's meaning but FEED's refuses. FEED refuses, for any value of the parameters, exactly when the aggregator
refuses one of the sections it reports with an unbounded AGG_CAPACITY, and it always runs with that; and the aggregator refuses exactly
the section that would open an aggregation on a channel that already holds AGG_CAPACITY of them. That a table of one section is
refused as well is the model's choice (log 5). A step refuses an operand of the wrong length besides: OperandLengthDecides. -/
def Obligations.RefusesOnlyBeyondAggCapacity : Prop :=
  (∀ (i : Instr) (s : State) (o : Refusal), exec i s = .refused o →
      ∃ ch cc pusi scr payload, i = .feed ch cc pusi scr payload ∧
        feedWith params ch cc pusi scr payload s = .refused o) ∧
    (∀ (p : Params) (ch : Channel) (cc : Counter) (pusi scr : Bool) (payload : Bytes) (s : State), payload.length ≤ 184 →
      ∃ t, feedWith { p with aggCapacity := none } ch cc pusi scr payload s = .next t ∧
        ∀ o, feedWith p ch cc pusi scr payload s = .refused o ↔
          aggregateAll p ch (t.events.filterMap Event.completedSection) ⟨s.chanRec ch, []⟩ = .error o) ∧
    (∀ (p : Params) (c : Channel) (r : Rx) (x : Bytes) (o : Refusal), aggregate p c r x = .error o ↔
      o = .aggregationCapacity ∧ secSn x ≤ secLastSn x ∧
        r.chan.aggs.find (aggKey (secTableId x) (secExt x)) = none ∧
        ∃ cap, p.aggCapacity = some cap ∧ cap ≤ r.chan.aggs.length)

/-! ## The CRC unit (40_checksum.md) -/

/-- Rule R132: the four properties of `crc32`. -/
def Obligations.ChecksumProperties : Prop :=
  crc32 [] = 0xFFFFFFFF#32 ∧
    crc32 [0x31#8, 0x32#8, 0x33#8, 0x34#8, 0x35#8, 0x36#8, 0x37#8, 0x38#8, 0x39#8] = 0x0376E6E7#32 ∧
    (∀ b : Bytes, crc32 (b ++ toBe32 (crc32 b)) = 0#32) ∧
    crc32 [0x00#8, 0xB0#8, 0x0D#8, 0x00#8, 0x01#8, 0xC1#8, 0x00#8, 0x00#8, 0x00#8, 0x01#8, 0xF0#8, 0x00#8] = 0x2AB104B2#32

/-- Rule R133: CRC_COMPUTE returns the checksum of an operand of at most 4093 bytes and fails ERR_SECTION on a longer one; it
changes no state. -/
def Obligations.CrcComputeReturnsChecksum : Prop :=
  ∀ (d : Bytes) (s : State),
    (d.length ≤ 4093 → ∃ t, exec (.crcCompute d) s = .next t ∧ SameUnits s t ∧
      Returned s t .ok (some (.crc (crc32 d))) []) ∧
    (4093 < d.length → ∃ t, exec (.crcCompute d) s = .next t ∧ SameUnits s t ∧ Returned s t .errSection none [])

/-- Rule R134: CRC_VERIFY of 4 to 4093 bytes returns 1 exactly when the checksum of the whole operand is 0; of fewer than 4
bytes it returns 0; of more than 4093 it fails ERR_SECTION. It changes no state. -/
def Obligations.CrcVerifyChecksResidue : Prop :=
  ∀ (d : Bytes) (s : State),
    (4 ≤ d.length → d.length ≤ 4093 → ∃ t, exec (.crcVerify d) s = .next t ∧ SameUnits s t ∧
      Returned s t .ok (some (.verdict (decide (crc32 d = 0#32)))) []) ∧
    (d.length < 4 → ∃ t, exec (.crcVerify d) s = .next t ∧ SameUnits s t ∧
      Returned s t .ok (some (.verdict false)) []) ∧
    (4093 < d.length → ∃ t, exec (.crcVerify d) s = .next t ∧ SameUnits s t ∧ Returned s t .errSection none [])

/-- Rule R136: `stamp` replaces the last four bytes with the checksum of the rest, changes no other byte, and its result is
CRC-valid. -/
def Obligations.StampIsCrcValid : Prop :=
  ∀ s : Bytes, 12 ≤ s.length →
    crcValid (stamp s) = true ∧ (stamp s).length = s.length ∧
      (∀ j, j + 4 < s.length → byteAt (stamp s) j = byteAt s j) ∧
      secCode (stamp s) = crc32 (secBody s)

/-- Rule R137: changing any one bit of the body of a CRC-valid section makes it CRC-invalid. -/
def Obligations.SingleBitFlipIsCaught : Prop :=
  ∀ (s : Bytes) (j b : Nat), 12 ≤ s.length → crcValid s = true → j + 4 < s.length → b < 8 →
    crcValid (s.set j (byteAt s j ^^^ (1#8 <<< b))) = false

/-! ## FEED (41_reassembler.md) -/

/-- Rule R151: a payload over 184 bytes fails ERR_PACKET and changes nothing, and no other payload is a size error. -/
def Obligations.FeedSizeError : Prop :=
  ∀ (ch : Channel) (cc : Counter) (pusi scr : Bool) (p : Bytes) (s : State),
    (184 < p.length → ∃ t, exec (.feed ch cc pusi scr p) s = .next t ∧ SameUnits s t ∧
      Returned s t .errPacket none []) ∧
    (p.length ≤ 184 → ∀ t, exec (.feed ch cc pusi scr p) s = .next t → t.status = some .ok)

/-- Rule R152: a FEED on a channel without a record runs as on a fresh record, and any FEED that takes effect leaves the channel
with a record. -/
def Obligations.FeedCreatesRecord : Prop :=
  ∀ (ch : Channel) (cc : Counter) (pusi scr : Bool) (p : Bytes) (s t : State), p.length ≤ 184 →
    exec (.feed ch cc pusi scr p) s = .next t →
      t.dmx.chanAt ch ≠ none ∧
        (s.dmx.chanAt ch = none →
          ∃ t', exec (.feed ch cc pusi scr p) { s with dmx := s.dmx.setChan ch (some ⟨none, [], []⟩) } = .next t' ∧
            t'.port.result = t.port.result ∧ ∀ c, t'.dmx.chanAt c = t.dmx.chanAt c)

/-- Rule R153: a scrambled packet emits SCRAMBLED_SKIPPED only, and changes nothing but, under the parameter and with payload,
the counter. -/
def Obligations.FeedScrambledSkips : Prop :=
  ∀ (ch : Channel) (cc : Counter) (pusi : Bool) (p : Bytes) (s : State), p.length ≤ 184 →
    FeedGives ch cc pusi true p s
      { s.chanRec ch with
        lastCc := if params.scrambledUpdatesCc = true ∧ p ≠ [] then some cc else (s.chanRec ch).lastCc }
      [.scrambledSkipped ch]

/-- Rule R154: a packet that is not scrambled and has no payload changes nothing and emits nothing, whatever its counter and
flag (a channel without a record gets a fresh one, rule R152). -/
def Obligations.FeedWithoutPayload : Prop :=
  ∀ (ch : Channel) (cc : Counter) (pusi : Bool) (s : State), FeedGives ch cc pusi false [] s (s.chanRec ch) []

/-- Rule R156: a duplicate changes no state and emits nothing; the counter alone decides. -/
def Obligations.FeedDuplicateIgnored : Prop :=
  ∀ (ch : Channel) (cc : Counter) (pusi : Bool) (p : Bytes) (s : State), p.length ≤ 184 → p ≠ [] →
    (s.chanRec ch).lastCc = some cc → FeedGives ch cc pusi false p s (s.chanRec ch) []

/-- Rules R157 and R158: a discontinuity emits DISCONTINUITY first, drops the partial section, and the packet is then processed
as on a channel with no counter yet and no partial section. -/
def Obligations.FeedDiscontinuityResynchronises : Prop :=
  ∀ (ch : Channel) (cc prev : Counter) (pusi : Bool) (p : Bytes) (s t : State), p.length ≤ 184 → p ≠ [] →
    (s.chanRec ch).lastCc = some prev → cc ≠ prev → cc ≠ prev + 1 →
    exec (.feed ch cc pusi false p)
        { s with dmx := s.dmx.setChan ch (some { s.chanRec ch with lastCc := none, buf := [] }) } = .next t →
      ∃ r, t.dmx.chanAt ch = some r ∧ FeedGives ch cc pusi false p s r (.discontinuity ch (prev + 1) cc :: t.events)

/-- Rules R36 and R163: with no partial section, an accepted packet without the flag contributes nothing but its counter. -/
def Obligations.FeedUnlocatedBytesDiscarded : Prop :=
  ∀ (ch : Channel) (cc : Counter) (p : Bytes) (s : State), p.length ≤ 184 → p ≠ [] → (s.chanRec ch).buf = [] →
    Continues (s.chanRec ch) cc → FeedGives ch cc false false p s { s.chanRec ch with lastCc := some cc } []

/-- Rules R163 and R164: while the declared length is not reached, the whole payload of an accepted packet without the flag joins
the partial section, across any split of its header. -/
def Obligations.FeedExtendsPartialSection : Prop :=
  ∀ (ch : Channel) (cc : Counter) (p : Bytes) (s : State), p.length ≤ 184 → p ≠ [] → (s.chanRec ch).buf ≠ [] →
    Continues (s.chanRec ch) cc → GoodBuf ((s.chanRec ch).buf ++ p) →
      FeedGives ch cc false false p s
        { lastCc := some cc, buf := (s.chanRec ch).buf ++ p, aggs := (s.chanRec ch).aggs } []

/-- Rules R163 to R165, with R160 to R162: a section whose declared length is reached and whose checksum fails is discarded with
CRC_MISMATCH. Completed by `k` bytes of an accepted packet without the flag, it ends the packet's useful bytes. In a packet with the
flag the parsing goes on: at the pointer after a section completed by `k` of the bytes before it, and behind a section that closes from
the pointer on, whether their checksums are right or not, until the packet ends in one of the ways of `PacketTail`. -/
def Obligations.FeedRejectsBadChecksum : Prop :=
  ∀ (ch : Channel) (cc : Counter) (s : State), Continues (s.chanRec ch) cc →
    (∀ (p : Bytes) (k : Nat), p.length ≤ 184 → k ≤ p.length → GoodBuf (s.chanRec ch).buf → (s.chanRec ch).buf ≠ [] →
      outputSectionOk ((s.chanRec ch).buf ++ p.take k) = true → crcValid ((s.chanRec ch).buf ++ p.take k) = false →
        FeedGives ch cc false false p s { lastCc := some cc, buf := [], aggs := (s.chanRec ch).aggs }
          [.validationFailure ch .crcMismatch]) ∧
    ∀ (pre rest y : Bytes) (xs : List Bytes) (evs : List Event), pre.length + xs.flatten.length + rest.length ≤ 183 →
      1 ≤ xs.flatten.length + rest.length → (∀ x ∈ xs, outputSectionOk x = true) → PacketTail ch rest y evs →
      (∀ k, k ≤ pre.length → GoodBuf (s.chanRec ch).buf → (s.chanRec ch).buf ≠ [] →
        outputSectionOk ((s.chanRec ch).buf ++ pre.take k) = true →
          FeedEnds ch cc true (BitVec.ofNat 8 pre.length :: (pre ++ xs.flatten ++ rest)) s
            (closeThenEnd params ch (((s.chanRec ch).buf ++ pre.take k) :: xs) y evs (s.accepted ch cc))) ∧
      ((s.chanRec ch).buf = [] →
        FeedEnds ch cc true (BitVec.ofNat 8 pre.length :: (pre ++ xs.flatten ++ rest)) s
          (closeThenEnd params ch xs y evs (s.accepted ch cc)))

/-- Rules R163, R165, R166 and R190: a valid section completed by `k` bytes of an accepted packet without the flag is reported with
SECTION_COMPLETED and handed to the aggregator, whose record and events are FEED's; with section_number above
last_section_number it then fails BAD_SECTION_NUMBER and changes no aggregation (rule R196). And for every FEED that runs, of any
packet and at any value of the parameters, the sections it reports, handed to the aggregator in that order, give its aggregations and
all its events that come of sections. -/
def Obligations.FeedRejectsBadSectionNumber : Prop :=
  (∀ (ch : Channel) (cc : Counter) (p : Bytes) (k : Nat) (s : State), p.length ≤ 184 → k ≤ p.length →
    GoodBuf (s.chanRec ch).buf → (s.chanRec ch).buf ≠ [] → Continues (s.chanRec ch) cc →
    GoodSection ((s.chanRec ch).buf ++ p.take k) →
      FeedEnds ch cc false p s (aggregateAll params ch [(s.chanRec ch).buf ++ p.take k] (s.accepted ch cc)) ∧
      (secLastSn ((s.chanRec ch).buf ++ p.take k) < secSn ((s.chanRec ch).buf ++ p.take k) →
        FeedGives ch cc false false p s { lastCc := some cc, buf := [], aggs := (s.chanRec ch).aggs }
          [.sectionCompleted ch ((s.chanRec ch).buf ++ p.take k), .validationFailure ch .badSectionNumber])) ∧
    ∀ (p : Params) (ch : Channel) (cc : Counter) (pusi scr : Bool) (payload : Bytes) (s t : State), payload.length ≤ 184 →
      feedWith p ch cc pusi scr payload s = .next t →
        ∃ r, aggregateAll p ch (t.events.filterMap Event.completedSection) ⟨s.chanRec ch, []⟩ = .ok r ∧
          (t.chanRec ch).aggs = r.chan.aggs ∧ t.events.filter Event.ofSection = r.events

/-- Rule R159: a pointer at or past the end of the data after it emits BAD_POINTER and drops the partial section and the
packet. -/
def Obligations.FeedBadPointer : Prop :=
  ∀ (ch : Channel) (cc : Counter) (ptr : Byte) (data : Bytes) (s : State), data.length ≤ 183 →
    data.length ≤ ptr.toNat → Continues (s.chanRec ch) cc →
      FeedGives ch cc true false (ptr :: data) s { lastCc := some cc, buf := [], aggs := (s.chanRec ch).aggs }
        [.validationFailure ch .badPointer]

/-- Rules R160 to R162, with R169: when the bytes before the pointer leave a partial section short of its declared length, it is
abandoned with LENGTH_INCONSISTENT, and the parsing resumes at the pointer: the sections that stand there back to back are closed, and
the packet ends in one of the ways of `PacketTail`. -/
def Obligations.FeedLengthInconsistent : Prop :=
  ∀ (ch : Channel) (cc : Counter) (pre rest y : Bytes) (xs : List Bytes) (evs : List Event) (s : State),
    pre.length + xs.flatten.length + rest.length ≤ 183 → 1 ≤ xs.flatten.length + rest.length →
    (s.chanRec ch).buf ≠ [] → Continues (s.chanRec ch) cc → GoodBuf ((s.chanRec ch).buf ++ pre) →
    (∀ x ∈ xs, outputSectionOk x = true) → PacketTail ch rest y evs →
      FeedEnds ch cc true (BitVec.ofNat 8 pre.length :: (pre ++ xs.flatten ++ rest)) s
        (closeThenEnd params ch xs y evs ((s.accepted ch cc).emit (.validationFailure ch .lengthInconsistent)))

/-- Rules R160 and R162: with no partial section, the bytes before the pointer are discarded, and a stuffing byte at the pointer
ends the packet without an event. -/
def Obligations.FeedStuffingAtPointer : Prop :=
  ∀ (ch : Channel) (cc : Counter) (ptr : Byte) (data : Bytes) (s : State), data.length ≤ 183 →
    ptr.toNat < data.length → byteAt data ptr.toNat = stuffByte → (s.chanRec ch).buf = [] →
    Continues (s.chanRec ch) cc →
      FeedGives ch cc true false (ptr :: data) s { s.chanRec ch with lastCc := some cc } []

/-- Rule R164: the declared length is checked when the third byte of a section arrives: above 4093 the section is SECTION_TOO_LONG,
below 12 SECTION_TOO_SHORT. Where the header stands from the pointer on, first or behind sections that closed, the rest of the packet
is discarded (rule R161). Where its third byte arrives in a later packet without the flag, so is the rest of that packet (rule R163);
in a later packet with the flag, before the pointer, the parsing resumes at the pointer (rules R160 to R162). -/
def Obligations.FeedChecksDeclaredLength : Prop :=
  ∀ (ch : Channel) (cc : Counter) (reason : Reason) (s : State), Continues (s.chanRec ch) cc →
    (∀ (pre h rest : Bytes) (xs : List Bytes), pre.length + xs.flatten.length + h.length + rest.length ≤ 183 →
      (∀ x ∈ xs, outputSectionOk x = true) → BadLength h reason → byteAt h 0 ≠ stuffByte → (s.chanRec ch).buf = [] →
        FeedEnds ch cc true (BitVec.ofNat 8 pre.length :: (pre ++ xs.flatten ++ h ++ rest)) s
          ((closeAll params ch xs (s.accepted ch cc)).map fun r => r.emit (.validationFailure ch reason))) ∧
    (∀ (p : Bytes) (k : Nat), p.length ≤ 184 → 1 ≤ k → k ≤ p.length → (s.chanRec ch).buf ≠ [] →
      BadLength ((s.chanRec ch).buf ++ p.take k) reason →
        FeedGives ch cc false false p s { lastCc := some cc, buf := [], aggs := (s.chanRec ch).aggs }
          [.validationFailure ch reason]) ∧
    (∀ (pre rest y : Bytes) (xs : List Bytes) (evs : List Event) (k : Nat),
      pre.length + xs.flatten.length + rest.length ≤ 183 → 1 ≤ xs.flatten.length + rest.length → 1 ≤ k → k ≤ pre.length →
      (s.chanRec ch).buf ≠ [] → BadLength ((s.chanRec ch).buf ++ pre.take k) reason →
      (∀ x ∈ xs, outputSectionOk x = true) → PacketTail ch rest y evs →
        FeedEnds ch cc true (BitVec.ofNat 8 pre.length :: (pre ++ xs.flatten ++ rest)) s
          (closeThenEnd params ch xs y evs ((s.accepted ch cc).emit (.validationFailure ch reason))))

/-- Rules R160 to R162 and R165: an accepted packet with the flag completes the partial section with `k` of the bytes before its
pointer, if there is one, and then the sections that stand back to back from the pointer on; a section still open at the end of the
payload stays as the partial section, and stuffing ends the packet. The sections are handed to the aggregator in that order. So a
valid table of one section completes the section and then the table (rules R166, R195 and R198), on a channel that has no
aggregation. -/
def Obligations.FeedCompletesSingleSectionTable : Prop :=
  ∀ (ch : Channel) (cc : Counter) (s : State), Continues (s.chanRec ch) cc →
    (∀ (pre y : Bytes) (xs : List Bytes) (n : Nat), pre.length + xs.flatten.length + y.length + n ≤ 183 →
      1 ≤ xs.flatten.length + y.length + n → (∀ x ∈ xs, GoodSection x) → GoodBuf y → (y ≠ [] → n = 0) →
      ((s.chanRec ch).buf = [] →
        FeedEnds ch cc true (BitVec.ofNat 8 pre.length :: (pre ++ xs.flatten ++ y ++ stuffing n)) s
          ((aggregateAll params ch xs (s.accepted ch cc)).map fun r => r.withBuf y)) ∧
      (∀ k, (s.chanRec ch).buf ≠ [] → GoodBuf (s.chanRec ch).buf → k ≤ pre.length →
        GoodSection ((s.chanRec ch).buf ++ pre.take k) →
        FeedEnds ch cc true (BitVec.ofNat 8 pre.length :: (pre ++ xs.flatten ++ y ++ stuffing n)) s
          ((aggregateAll params ch (((s.chanRec ch).buf ++ pre.take k) :: xs) (s.accepted ch cc)).map fun r =>
            r.withBuf y))) ∧
    (∀ (pre x : Bytes) (n : Nat), pre.length + x.length + n ≤ 183 → GoodSection x → secSn x = 0 → secLastSn x = 0 →
      (s.chanRec ch).buf = [] → (s.chanRec ch).aggs = [] →
        FeedGives ch cc true false (BitVec.ofNat 8 pre.length :: (pre ++ x ++ stuffing n)) s
          { lastCc := some cc, buf := [], aggs := [] }
          [.sectionCompleted ch x,
            .tableCompleted ch
              { tableId := byteAt x 0, tableIdExtension := be16 x 3, version := secVersion x, lastSectionNumber := 0
                sections := [x] }])

/-- Rule R166, with rules R135 and R198: from a state that meets the invariant, every SECTION_COMPLETED carries a CRC-valid section
of its declared length, and every TABLE_COMPLETED carries one such section for each number 0..last_section_number, all
of the table's own identity. -/
def Obligations.FeedReportsOnlyValidSections : Prop :=
  ∀ (ch : Channel) (cc : Counter) (pusi scr : Bool) (p : Bytes) (P : Params) (s t : State), GoodDmx P s.dmx →
    exec (.feed ch cc pusi scr p) s = .next t →
      (∀ c x, Event.sectionCompleted c x ∈ t.events → c = ch ∧ GoodSection x) ∧
        ∀ c T, Event.tableCompleted c T ∈ t.events → c = ch ∧
          T.sections.length = T.lastSectionNumber.toNat + 1 ∧
          ∀ n x, T.sections[n]? = some x → GoodSection x ∧ secTableId x = T.tableId ∧ secExt x = T.tableIdExtension ∧
            secVersion x = T.version ∧ secLastSn x = T.lastSectionNumber ∧ (secSn x).toNat = n

/-- Rule R76: a FEED repeated straight after itself changes no state, and emits nothing unless the packet is scrambled, when it
emits SCRAMBLED_SKIPPED again. -/
def Obligations.FeedRepeatedIsIdempotent : Prop :=
  ∀ (ch : Channel) (cc : Counter) (pusi scr : Bool) (p : Bytes) (s t : State),
    exec (.feed ch cc pusi scr p) s = .next t →
      ∃ u, exec (.feed ch cc pusi scr p) t = .next u ∧ (∀ c, u.dmx.chanAt c = t.dmx.chanAt c) ∧ u.enc = t.enc ∧
        u.status = t.status ∧
        u.events = if scr = true ∧ p.length ≤ 184 then [.scrambledSkipped ch] else []

/-- Rule R171: each DMX channel is independent: the outcome of a FEED depends only on its channel's element and the packet, and it
changes no other channel. -/
def Obligations.FeedChannelsAreIndependent : Prop :=
  ∀ (ch : Channel) (cc : Counter) (pusi scr : Bool) (p : Bytes) (s s' t : State),
    s'.dmx.chanAt ch = s.dmx.chanAt ch → exec (.feed ch cc pusi scr p) s = .next t →
      DmxElsewhere s t ch ∧
        ∃ t', exec (.feed ch cc pusi scr p) s' = .next t' ∧ t'.port.result = t.port.result ∧
          t'.dmx.chanAt ch = t.dmx.chanAt ch

/-! ## The aggregator and the DMX control commands (42_demux.md) -/

/-- Rules R191 to R193: a section whose key has no aggregation (and there is room for one), or one with another version or
last_section_number, which is discarded without an event, starts a new aggregation that holds that section alone; a table of one
section completes with it at once (rule R195), and its key is left without an aggregation. No other aggregation changes. -/
def Obligations.AggregateStartsAfresh : Prop :=
  ∀ (p : Params) (c : Channel) (r : Rx) (x : Bytes), secSn x ≤ secLastSn x →
    ((r.chan.aggs.find (aggKey (secTableId x) (secExt x)) = none ∧
        ∀ n, p.aggCapacity = some n → r.chan.aggs.length < n) ∨
      ∃ a, r.chan.aggs.find (aggKey (secTableId x) (secExt x)) = some a ∧
        (a.version ≠ secVersion x ∨ a.lastSn ≠ secLastSn x)) →
      ∃ r', aggregate p c r x = .ok r' ∧ r'.chan.buf = r.chan.buf ∧ r'.chan.lastCc = r.chan.lastCc ∧
        (∀ k, k ≠ aggKey (secTableId x) (secExt x) → r'.chan.aggs.find k = r.chan.aggs.find k) ∧
        (secLastSn x ≠ 0 → r'.events = r.events ∧
          ∃ a', r'.chan.aggs.find (aggKey (secTableId x) (secExt x)) = some a' ∧ a'.version = secVersion x ∧
            a'.lastSn = secLastSn x ∧ a'.slots.length = (secLastSn x).toNat + 1 ∧
            ∀ n, n ≤ (secLastSn x).toNat → a'.slots[n]? = some (if n = (secSn x).toNat then some x else none)) ∧
        (secLastSn x = 0 → r'.chan.aggs.find (aggKey (secTableId x) (secExt x)) = none ∧
          r'.events = r.events ++
            [.tableCompleted c
              { tableId := secTableId x, tableIdExtension := secExt x, version := secVersion x, lastSectionNumber := 0
                sections := [x] }])

/-- Rule R194: while another slot of the aggregation is empty, a section of its version and last_section_number is recorded at its
number, in the place of any section there, without an event; no other slot and no other aggregation changes. -/
def Obligations.AggregateRecordsSection : Prop :=
  ∀ (p : Params) (c : Channel) (r : Rx) (x : Bytes) (a : Agg) (m : Nat), secSn x ≤ secLastSn x →
    r.chan.aggs.find (aggKey (secTableId x) (secExt x)) = some a → a.version = secVersion x →
    a.lastSn = secLastSn x → a.slots.length = (secLastSn x).toNat + 1 → m ≠ (secSn x).toNat →
    a.slots[m]? = some none →
      ∃ r' a', aggregate p c r x = .ok r' ∧ r'.events = r.events ∧ r'.chan.buf = r.chan.buf ∧
        r'.chan.lastCc = r.chan.lastCc ∧
        r'.chan.aggs.find (aggKey (secTableId x) (secExt x)) = some a' ∧ a'.version = a.version ∧
        a'.lastSn = a.lastSn ∧ a'.slots[(secSn x).toNat]? = some (some x) ∧
        (∀ n, n ≠ (secSn x).toNat → a'.slots[n]? = a.slots[n]?) ∧
        ∀ k, k ≠ aggKey (secTableId x) (secExt x) → r'.chan.aggs.find k = r.chan.aggs.find k

/-- Rules R195 and R198: the section that fills the last slot emits TABLE_COMPLETED with every slot's section in order, and the
aggregation is removed; no other aggregation changes. -/
def Obligations.AggregateCompletesTable : Prop :=
  ∀ (p : Params) (c : Channel) (r : Rx) (x : Bytes) (a : Agg), secSn x ≤ secLastSn x →
    r.chan.aggs.find (aggKey (secTableId x) (secExt x)) = some a → a.version = secVersion x →
    a.lastSn = secLastSn x → a.slots.length = (secLastSn x).toNat + 1 →
    (∀ n, n ≤ (secLastSn x).toNat → n ≠ (secSn x).toNat → ∃ y, a.slots[n]? = some (some y)) →
      ∃ r' T, aggregate p c r x = .ok r' ∧ r'.events = r.events ++ [.tableCompleted c T] ∧
        r'.chan.buf = r.chan.buf ∧ r'.chan.lastCc = r.chan.lastCc ∧
        T.tableId = secTableId x ∧ T.tableIdExtension = secExt x ∧ T.version = secVersion x ∧
        T.lastSectionNumber = secLastSn x ∧ T.sections.length = (secLastSn x).toNat + 1 ∧
        (∀ n, n ≤ (secLastSn x).toNat →
          T.sections[n]? = if n = (secSn x).toNat then some x else (a.slots[n]?).join) ∧
        r'.chan.aggs.find (aggKey (secTableId x) (secExt x)) = none ∧
        ∀ k, k ≠ aggKey (secTableId x) (secExt x) → r'.chan.aggs.find k = r.chan.aggs.find k

/-- Rules R199 and R200: DMX_RESET removes its channel's record and no other, DMX_RESET_ALL removes every record; both end OK
without an event and leave the ENC unit alone, and the next FEED of a reset channel works on a fresh record. -/
def Obligations.DmxResetsDiscardRecords : Prop :=
  ∀ s : State,
    (∀ ch : Channel, ∃ t, exec (.dmxReset ch) s = .next t ∧ t.dmx.chanAt ch = none ∧ DmxElsewhere s t ch ∧
      t.enc = s.enc ∧ Returned s t .ok none [] ∧ t.chanRec ch = ⟨none, [], []⟩) ∧
    ∃ t, exec .dmxResetAll s = .next t ∧ (∀ c, t.dmx.chanAt c = none) ∧ t.dmx = State.reset.dmx ∧ t.enc = s.enc ∧
      Returned s t .ok none []

/-! ## The Packetizer (43_packetizer.md) -/

/-- Rules R211 to R213, R224 and R277: PKT_LOAD of a string that passes the output-section check queues the stamped section behind
the others and changes nothing else; onto a full queue it fails ERR_CAPACITY; a string that does not pass fails ERR_SECTION, full
queue or not. -/
def Obligations.PktLoadQueuesStampedSection : Prop :=
  ∀ (ch : Channel) (d : Bytes) (s : State),
    (12 ≤ d.length → d.length ≤ 4093 → declLen d = d.length → byteAt d 0 ≠ stuffByte →
      (s.enc.pkAt ch).queue.length ≠ params.pktQueueDepth →
      ∃ t, exec (.pktLoad ch d) s = .next t ∧
        t.enc.pkAt ch = { s.enc.pkAt ch with queue := (s.enc.pkAt ch).queue ++ [stamp d] } ∧
        EncElsewhere s t ch ∧ t.enc.timeAt ch = s.enc.timeAt ch ∧ t.enc.inflightAt ch = s.enc.inflightAt ch ∧
        SameSchedule s t ∧ t.dmx = s.dmx ∧ Returned s t .ok none []) ∧
    (12 ≤ d.length → d.length ≤ 4093 → declLen d = d.length → byteAt d 0 ≠ stuffByte →
      (s.enc.pkAt ch).queue.length = params.pktQueueDepth →
      ∃ t, exec (.pktLoad ch d) s = .next t ∧ SameUnits s t ∧ Returned s t .errCapacity none []) ∧
    (¬(12 ≤ d.length ∧ d.length ≤ 4093 ∧ declLen d = d.length ∧ byteAt d 0 ≠ stuffByte) →
      ∃ t, exec (.pktLoad ch d) s = .next t ∧ SameUnits s t ∧ Returned s t .errSection none [])

/-- Rules R214, R219, R220 and R222: on an empty queue PKT_NEXT returns, in SIGNAL mode, EXHAUSTED with no packet and no change of
state; in STUFF mode a stuffing packet that repeats the last counter, with the Packetizer as it was and the packet time
advanced. -/
def Obligations.PktNextOnEmptyQueue : Prop :=
  ∀ (ch : Channel) (s : State), (s.enc.pkAt ch).queue = [] →
    ((s.enc.pkAt ch).mode = .signal →
      ∃ t, exec (.pktNext ch) s = .next t ∧ SameUnits s t ∧ Returned s t .exhausted none []) ∧
    (∀ P : Params, GoodEnc P s.enc → (s.enc.pkAt ch).mode = .stuff →
      ∃ t, exec (.pktNext ch) s = .next t ∧
        Returned s t .ok
          (some (.packet ⟨ch, (s.enc.pkAt ch).cc - 1, false, false, List.replicate 184 0xFF#8⟩)) [] ∧
        t.enc.pkAt ch = s.enc.pkAt ch ∧ t.enc.timeAt ch = s.enc.timeAt ch + 1 ∧
        t.enc.inflightAt ch = s.enc.inflightAt ch ∧ EncElsewhere s t ch ∧ SameSchedule s t ∧ t.dmx = s.dmx)

/-- Rules R214, R218, R222 and R251: with sections queued PKT_NEXT returns one built packet with the channel's counter, which it
advances, as it does the packet time. When the queue becomes empty the entry in flight, if any, ends its emission; no other entry
changes. -/
def Obligations.PktNextBuildsPacket : Prop :=
  ∀ (P : Params) (ch : Channel) (s : State), GoodEnc P s.enc → (s.enc.pkAt ch).queue ≠ [] →
    ∃ t k, exec (.pktNext ch) s = .next t ∧ Returned s t .ok (some (.packet k)) [] ∧ k.channel = ch ∧
      k.cc = (s.enc.pkAt ch).cc ∧ k.scrambled = false ∧ k.payload.length = 184 ∧
      (k, t.enc.pkAt ch) = (s.enc.pkAt ch).build ch ∧ (t.enc.pkAt ch).cc = (s.enc.pkAt ch).cc + 1 ∧
      (t.enc.pkAt ch).mode = (s.enc.pkAt ch).mode ∧ t.enc.timeAt ch = s.enc.timeAt ch + 1 ∧
      t.enc.inflightAt ch = (if (t.enc.pkAt ch).queue = [] then none else s.enc.inflightAt ch) ∧
      EncElsewhere s t ch ∧ t.enc.nextId = s.enc.nextId ∧ t.dmx = s.dmx ∧
      ∀ i, t.enc.entryAt i =
        if (t.enc.pkAt ch).queue = [] ∧ s.enc.inflightAt ch = some i then
          (s.enc.entryAt i).map fun n => { n with state := .scheduled }
        else s.enc.entryAt i

/-- Rules R215 to R217: a built payload is the pointer byte if the flag is set, then section bytes in order, then stuffing to 184
bytes: with the flag as many bytes as fit and are queued, without it as many as fit of the head section's tail; at least one. No
byte is lost or repeated between the packet and what stays queued. -/
def Obligations.BuildSendsBytesInOrder : Prop :=
  ∀ (p : Params) (q : Packetizer) (c : Channel), GoodPk p q → q.queue ≠ [] →
    ∃ n, n = (if (q.build c).1.pusi = true then min (184 - q.pointer.length) q.remaining.length
        else min 184 ((q.queue.headD []).length - q.off)) ∧
      1 ≤ n ∧ n ≤ q.remaining.length ∧ q.pointer.length + n ≤ 184 ∧
      ((q.build c).1.pusi = true ↔ q.pointer.length = 1) ∧ ((q.build c).1.pusi = false ↔ q.pointer = []) ∧
      (q.build c).1.payload =
        q.pointer ++ q.remaining.take n ++ List.replicate (184 - (q.pointer.length + n)) 0xFF#8 ∧
      (q.build c).2.remaining = q.remaining.drop n ∧ (q.build c).2.queue <:+ q.queue ∧ GoodPk p (q.build c).2

/-- Rule R215: the flag is set exactly when a section's first byte is in the packet, and the pointer gives the count of bytes
before that first byte: with the flag, the byte at the pointer is the first byte of the section that begins; without it, every
section byte sent is of the head section's tail. -/
def Obligations.FlagMarksSectionStart : Prop :=
  ∀ (p : Params) (q : Packetizer) (c : Channel) (x : Bytes) (rest : List Bytes), GoodPk p q → q.queue = x :: rest →
    ((q.build c).1.pusi = true →
      ∃ (ptr : Byte) (y : Bytes), q.pointer = [ptr] ∧ (if q.off = 0 then some x else rest.head?) = some y ∧
        ptr.toNat = (if q.off = 0 then 0 else x.length - q.off) ∧ 1 + ptr.toNat < 184 ∧
        byteAt (q.build c).1.payload (1 + ptr.toNat) = byteAt y 0) ∧
    ((q.build c).1.pusi = false →
      q.pointer = [] ∧ q.off ≠ 0 ∧ (q.build c).1.payload.take (min 184 (x.length - q.off)) = (x.drop q.off).take 184 ∧
        ((q.build c).2.queue = x :: rest ∨ ((q.build c).2.queue = rest ∧ (q.build c).2.off = 0)))

/-- Rule R221: PKT_CONFIG sets the channel's mode and changes nothing else. -/
def Obligations.PktConfigSetsMode : Prop :=
  ∀ (ch : Channel) (m : PktMode) (s : State),
    ∃ t, exec (.pktConfig ch m) s = .next t ∧ t.enc.pkAt ch = { s.enc.pkAt ch with mode := m } ∧
      EncElsewhere s t ch ∧ t.enc.timeAt ch = s.enc.timeAt ch ∧ t.enc.inflightAt ch = s.enc.inflightAt ch ∧
      SameSchedule s t ∧ t.dmx = s.dmx ∧ Returned s t .ok none []

/-- Rule R225: the packets of sections loaded onto one channel, emitted until the queue is empty (and any stuffing packets after
that), and fed in order to a fresh DMX channel, give SECTION_COMPLETED for each stamped section, in order, byte for byte. Where a
finite AGG_CAPACITY has the model refuse a FEED there is nothing to compare (rule R197). -/
def Obligations.PacketizedSectionsArriveInOrder : Prop :=
  ∀ (p : Params) (c d : Channel) (xs : List Bytes) (n : Nat) (e e' : Enc) (ks : List Packet) (evs : List Event)
    (r : ChanRec),
    (∀ x ∈ xs, outputSectionOk x = true) → (e.pkAt c).queue = xs.map stamp → (e.pkAt c).off = 0 →
    e.emitMany c n = (ks, e') → (e'.pkAt c).queue = [] → feedAll p d ks ChanRec.fresh = .ok (evs, r) →
      evs.filterMap Event.completedSection = xs.map stamp

/-! ## The cycle scheduler (44_cycling.md) -/

/-- Rule R242: CYC_ADD of an interval and a well-formed table registers an entry under the next id, SCHEDULED and due at once,
returns the id, and changes nothing else. -/
def Obligations.CycAddRegistersEntry : Prop :=
  ∀ (ch : Channel) (interval : BitVec 32) (tbl : List Bytes) (s : State), 1 ≤ tbl.length → tbl.length ≤ 256 →
    (∀ x ∈ tbl, outputSectionOk x = true) → interval ≠ 0 → s.enc.entries.length ≠ params.maxEntries →
    s.enc.nextId ≠ 32768 →
      ∃ t, exec (.cycAdd ch (cycAddOperand interval tbl)) s = .next t ∧
        Returned s t .ok (some (.entryId (BitVec.ofNat 15 s.enc.nextId))) [] ∧
        t.enc.entryAt s.enc.nextId = some ⟨ch, interval, tbl, s.enc.timeAt ch, .scheduled⟩ ∧
        (∀ i, i ≠ s.enc.nextId → t.enc.entryAt i = s.enc.entryAt i) ∧ t.enc.nextId = s.enc.nextId + 1 ∧
        (∀ c, t.enc.pkAt c = s.enc.pkAt c ∧ t.enc.timeAt c = s.enc.timeAt c ∧
          t.enc.inflightAt c = s.enc.inflightAt c) ∧ t.dmx = s.dmx

/-- Rules R242 and R277: the failures of CYC_ADD, each before the next: a short operand or a malformed table, interval 0, no entry
or no id left. -/
def Obligations.CycAddFailuresInOrder : Prop :=
  ∀ (ch : Channel) (d : Bytes) (s : State),
    ((d.length < 6 ∨ parseTable (d.drop 4) = none) →
      ∃ t, exec (.cycAdd ch d) s = .next t ∧ SameUnits s t ∧ Returned s t .errSection none []) ∧
    (6 ≤ d.length → parseTable (d.drop 4) ≠ none → be32 d 0 = 0 →
      ∃ t, exec (.cycAdd ch d) s = .next t ∧ SameUnits s t ∧ Returned s t .errInterval none []) ∧
    (6 ≤ d.length → parseTable (d.drop 4) ≠ none → be32 d 0 ≠ 0 →
      (s.enc.entries.length = params.maxEntries ∨ s.enc.nextId = 32768) →
      ∃ t, exec (.cycAdd ch d) s = .next t ∧ SameUnits s t ∧ Returned s t .errCapacity none [])

/-- Rule R244: CYC_REMOVE deletes the entry and ends its flight, leaves the queue and the id counter as they were, and fails
ERR_NO_ENTRY where there is no such entry. -/
def Obligations.CycRemoveDeletesEntry : Prop :=
  ∀ (id : EntryId) (s : State),
    (∀ n, s.enc.entryAt id.toNat = some n →
      ∃ t, exec (.cycRemove id) s = .next t ∧ Returned s t .ok none [] ∧ t.enc.entryAt id.toNat = none ∧
        (∀ i, i ≠ id.toNat → t.enc.entryAt i = s.enc.entryAt i) ∧ t.enc.nextId = s.enc.nextId ∧
        (∀ c, t.enc.pkAt c = s.enc.pkAt c ∧ t.enc.timeAt c = s.enc.timeAt c) ∧
        (∀ c, t.enc.inflightAt c =
          if c = n.ch ∧ s.enc.inflightAt c = some id.toNat then none else s.enc.inflightAt c) ∧ t.dmx = s.dmx) ∧
    (s.enc.entryAt id.toNat = none →
      ∃ t, exec (.cycRemove id) s = .next t ∧ SameUnits s t ∧ Returned s t .errNoEntry none [])

/-- Rule R245: CYC_REPLACE swaps the entry's table and nothing else; without such an entry it fails ERR_NO_ENTRY, whatever the
operand, and on a malformed table ERR_SECTION. -/
def Obligations.CycReplaceSwapsTable : Prop :=
  ∀ (id : EntryId) (s : State),
    (∀ n tbl, s.enc.entryAt id.toNat = some n → 1 ≤ tbl.length → tbl.length ≤ 256 →
      (∀ x ∈ tbl, outputSectionOk x = true) →
      ∃ t, exec (.cycReplace id (tableOperand tbl)) s = .next t ∧ Returned s t .ok none [] ∧
        t.enc.entryAt id.toNat = some { n with table := tbl } ∧
        (∀ i, i ≠ id.toNat → t.enc.entryAt i = s.enc.entryAt i) ∧ t.enc.nextId = s.enc.nextId ∧
        (∀ c, t.enc.pkAt c = s.enc.pkAt c ∧ t.enc.timeAt c = s.enc.timeAt c ∧
          t.enc.inflightAt c = s.enc.inflightAt c) ∧ t.dmx = s.dmx) ∧
    (∀ d, s.enc.entryAt id.toNat = none →
      ∃ t, exec (.cycReplace id d) s = .next t ∧ SameUnits s t ∧ Returned s t .errNoEntry none []) ∧
    (∀ d n, s.enc.entryAt id.toNat = some n → parseTable d = none →
      ∃ t, exec (.cycReplace id d) s = .next t ∧ SameUnits s t ∧ Returned s t .errSection none [])

/-- Rules R246, R222 and R250: CYC_TICK always ends OK with exactly one packet of its channel, 184 bytes long and not scrambled,
and advances that channel's packet time; other channels and the DMX unit are untouched. -/
def Obligations.CycTickEmitsOnePacket : Prop :=
  ∀ (ch : Channel) (s : State),
    ∃ t k, exec (.cycTick ch) s = .next t ∧ Returned s t .ok (some (.packet k)) [] ∧ k.channel = ch ∧
      k.scrambled = false ∧ k.payload.length = 184 ∧ t.enc.timeAt ch = s.enc.timeAt ch + 1 ∧
      (t.enc.pkAt ch).mode = (s.enc.pkAt ch).mode ∧ EncElsewhere s t ch ∧ t.enc.nextId = s.enc.nextId ∧ t.dmx = s.dmx

/-- Rules R246 to R249 and R251: on an empty queue a tick selects the ready entry with the least pair (next_due, id), sends the
first packet of its stamped table, and re-arms it for the tick's time plus its interval; the entry is EMITTED until the queue is
empty. The other ready entries of the channel become DUE, and nothing else of the schedule changes. -/
def Obligations.CycTickSelectsEarliestDue : Prop :=
  ∀ (P : Params) (ch : Channel) (s : State) (i : Nat) (n : Entry), GoodEnc P s.enc → (s.enc.pkAt ch).queue = [] →
    s.enc.entryAt i = some n → n.ch = ch → Ready n (s.enc.timeAt ch) →
    (∀ j m, s.enc.entryAt j = some m → m.ch = ch → Ready m (s.enc.timeAt ch) →
      n.nextDue < m.nextDue ∨ (n.nextDue = m.nextDue ∧ i ≤ j)) →
      ∃ t k, exec (.cycTick ch) s = .next t ∧ Returned s t .ok (some (.packet k)) [] ∧
        (k, t.enc.pkAt ch) = Packetizer.build { s.enc.pkAt ch with queue := n.table.map stamp } ch ∧
        t.enc.entryAt i = some
          { n with
            nextDue := s.enc.timeAt ch + n.interval.toNat
            state := if (t.enc.pkAt ch).queue = [] then .scheduled else .emitted } ∧
        t.enc.inflightAt ch = (if (t.enc.pkAt ch).queue = [] then none else some i) ∧
        ∀ j m, j ≠ i → s.enc.entryAt j = some m →
          (m.ch = ch → Ready m (s.enc.timeAt ch) → t.enc.entryAt j = some { m with state := .due }) ∧
          (¬(m.ch = ch ∧ Ready m (s.enc.timeAt ch)) → t.enc.entryAt j = some m)

/-- Rule R250: a tick on an empty queue with no entry ready sends a stuffing packet, in either mode, and changes nothing but the
packet time. -/
def Obligations.CycTickNothingDue : Prop :=
  ∀ (P : Params) (ch : Channel) (s : State), GoodEnc P s.enc → (s.enc.pkAt ch).queue = [] →
    (∀ j m, s.enc.entryAt j = some m → m.ch = ch → ¬Ready m (s.enc.timeAt ch)) →
      ∃ t, exec (.cycTick ch) s = .next t ∧
        Returned s t .ok
          (some (.packet ⟨ch, (s.enc.pkAt ch).cc - 1, false, false, List.replicate 184 0xFF#8⟩)) [] ∧
        t.enc.pkAt ch = s.enc.pkAt ch ∧ t.enc.inflightAt ch = s.enc.inflightAt ch ∧ SameSchedule s t

/-- Rules R246, R247 and R251: a tick on a queue with sections sends the next packet of the queue and selects nothing: every due
time, table, interval and channel stays, ready entries of the channel become DUE, and the entry in flight ends its emission when
the queue becomes empty. -/
def Obligations.CycTickBusyQueue : Prop :=
  ∀ (P : Params) (ch : Channel) (s : State), GoodEnc P s.enc → (s.enc.pkAt ch).queue ≠ [] →
    ∃ t k, exec (.cycTick ch) s = .next t ∧ Returned s t .ok (some (.packet k)) [] ∧
      (k, t.enc.pkAt ch) = (s.enc.pkAt ch).build ch ∧
      t.enc.inflightAt ch = (if (t.enc.pkAt ch).queue = [] then none else s.enc.inflightAt ch) ∧
      (∀ j, s.enc.entryAt j = none → t.enc.entryAt j = none) ∧
      ∀ j m, s.enc.entryAt j = some m →
        t.enc.entryAt j = some
          { m with
            state :=
              if (t.enc.pkAt ch).queue = [] ∧ s.enc.inflightAt ch = some j then .scheduled
              else if m.ch = ch ∧ m.state = .scheduled ∧ m.nextDue ≤ s.enc.timeAt ch then .due
              else m.state }

/-- Rules R44, R46 and R241, over every command: entry ids are assigned in registration order and never reused; an entry's channel
and interval never change, its table only by CYC_REPLACE, its due time only by a CYC_TICK of its channel, and its state only by a
CYC_TICK of its channel or by the PKT_NEXT that ends its emission. -/
def Obligations.EntriesChangeOnlyByTheirCommands : Prop :=
  ∀ (P : Params) (i : Instr) (s t : State) (j : Nat), GoodEnc P s.enc → exec i s = .next t →
    s.enc.nextId ≤ t.enc.nextId ∧ t.enc.nextId ≤ s.enc.nextId + 1 ∧
      (∀ n', s.enc.entryAt j = none → t.enc.entryAt j = some n' →
        (∃ d, i = .cycAdd n'.ch d) ∧ j = s.enc.nextId ∧ t.enc.nextId = s.enc.nextId + 1) ∧
      (∀ n, s.enc.entryAt j = some n → t.enc.entryAt j = none → ∃ id : EntryId, i = .cycRemove id ∧ id.toNat = j) ∧
      ∀ n n', s.enc.entryAt j = some n → t.enc.entryAt j = some n' →
        n'.ch = n.ch ∧ n'.interval = n.interval ∧
          (n'.table ≠ n.table → ∃ (id : EntryId) (d : Bytes), i = .cycReplace id d ∧ id.toNat = j) ∧
          (n'.nextDue ≠ n.nextDue → i = .cycTick n.ch) ∧
          (n'.state ≠ n.state →
            i = .cycTick n.ch ∨ (i = .pktNext n.ch ∧ n.state = .emitted ∧ n'.state = .scheduled))
end

