-- ==== Sys2Proof/Laws/Checksum.lean ====
section
/-! SUPPORT. Laws/Checksum.lean: the checksum over a concatenation, and big-endian words written and read back. -/

namespace Sys2Proof.Machine

open Config

/-- The checksum of a concatenation goes on from that of its first part (40_checksum.md rule R131). -/
theorem crc32_append (a b : Bytes) : crc32 (a ++ b) = b.foldl crcByte (crc32 a) := List.foldl_append

theorem crc32_nil : crc32 [] = 0xFFFFFFFF#32 := rfl

@[simp] theorem toBe32_length (v : Word) : (toBe32 v).length = 4 := rfl

/-- `be32(to_be32(v), 0) = v` (00_scope.md rule R10). -/
@[simp] theorem be32_toBe32 (v : Word) : be32 (toBe32 v) 0 = v := by
  simp only [be32, toBe32, byteAt, List.getD_cons_zero, List.getD_cons_succ]
  ext i hi
  simp only [BitVec.getElem_append, BitVec.getElem_extractLsb']
  split
  · simp [← BitVec.getLsbD_eq_getElem]
  · split
    · simp only [← BitVec.getLsbD_eq_getElem]
      congr 1
      omega
    · split
      · simp only [← BitVec.getLsbD_eq_getElem]
        congr 1
        omega
      · simp only [← BitVec.getLsbD_eq_getElem]
        congr 1
        omega

/-- Reading a byte of a concatenation past its first part. -/
theorem byteAt_append_right {a b : Bytes} {i : Nat} (h : a.length ≤ i) : byteAt (a ++ b) i = byteAt b (i - a.length) := by
  simp only [byteAt, List.getD_eq_getElem?_getD, List.getElem?_append_right h]

/-- Reading a byte of a concatenation within its first part. -/
theorem byteAt_append_left {a b : Bytes} {i : Nat} (h : i < a.length) : byteAt (a ++ b) i = byteAt a i := by
  simp only [byteAt, List.getD_eq_getElem?_getD, List.getElem?_append_left h]

/-- A word written at the end of a byte string is the code read there. -/
theorem secCode_append_toBe32 (a : Bytes) (v : Word) : secCode (a ++ toBe32 v) = v := by
  have h := be32_toBe32 v
  unfold secCode
  simp only [List.length_append, toBe32_length, Nat.add_sub_cancel]
  unfold be32 at h ⊢
  rw [byteAt_append_right (Nat.le_refl _), byteAt_append_right (Nat.le_add_right _ _),
    byteAt_append_right (Nat.le_add_right _ _), byteAt_append_right (Nat.le_add_right _ _)]
  simpa only [Nat.sub_self, Nat.add_sub_cancel_left, Nat.zero_add] using h

end Sys2Proof.Machine
end

