-- ==== Sys2Proof/Laws/Config.lean ====
section
/-! SUPPORT. Laws/Config.lean: the machine's parameters stand within the spec's bounds, whatever they are. -/

namespace Sys2Proof.Config

theorem params_inBounds : params.InBounds where
  aggCapacity_pos n h := by
    simp only [params, Option.map_eq_some_iff] at h
    obtain ⟨m, -, rfl⟩ := h
    omega
  pktQueueDepth_ge := Nat.le_add_left 256 _
  maxEntries_pos := Nat.le_add_left 1 _
  maxEntries_le := maxEntriesLessOne.isLt

theorem defaults_inBounds : Params.defaults.InBounds where
  aggCapacity_pos n h := by simp [Params.defaults] at h
  pktQueueDepth_ge := Nat.le_refl _
  maxEntries_pos := by decide
  maxEntries_le := Nat.le_refl _

end Sys2Proof.Config

namespace Sys2Proof.Machine

open Config

/-- A channel with no aggregation has room for one. -/
theorem hasRoom_zero {p : Params} (h : p.InBounds) : hasRoom p 0 = true := by
  unfold hasRoom
  cases hc : p.aggCapacity with
  | none => rfl
  | some cap => simpa using Nat.lt_of_lt_of_le Nat.zero_lt_one (h.aggCapacity_pos cap hc)

theorem hasRoom_eq_false {p : Params} {n : Nat} (h : hasRoom p n = false) : ∃ cap, p.aggCapacity = some cap ∧ cap ≤ n := by
  unfold hasRoom at h
  cases hc : p.aggCapacity with
  | none => simp [hc] at h
  | some cap => exact ⟨cap, rfl, by simpa [hc] using h⟩

end Sys2Proof.Machine
end

