-- ==== Sys2Proof/Laws/Maps.lean ====
section
/-! SUPPORT. Laws/Maps.lean: reading after writing a table, and that every write keeps the canonical form. -/

namespace Sys2Proof.Machine

section
variable {β : Type}

/-! ## Reading after writing -/

@[simp] theorem Keyed.find_nil (i : Nat) : Keyed.find ([] : Keyed β) i = none := rfl

theorem Keyed.find_cons (k : Nat) (v : β) (m : Keyed β) (i : Nat) :
    Keyed.find ((k, v) :: m) i = if k = i then some v else Keyed.find m i := rfl

theorem Keyed.find_insert (m : Keyed β) (i j : Nat) (v : β) :
    (m.insert i v).find j = if i = j then some v else m.find j := by
  induction m with
  | nil => rfl
  | cons a m ih =>
    obtain ⟨k, w⟩ := a
    by_cases h₁ : i < k
    · simp [Keyed.insert, Keyed.find_cons, h₁]
    · by_cases h₂ : i = k
      · subst h₂
        by_cases h : i = j <;> simp [Keyed.insert, Keyed.find_cons, h]
      · by_cases h : k = j
        · subst h
          simp [Keyed.insert, Keyed.find_cons, h₁, h₂]
        · simp [Keyed.insert, Keyed.find_cons, h₁, h₂, h, ih]

theorem Keyed.find_erase (m : Keyed β) (i j : Nat) : (m.erase i).find j = if i = j then none else m.find j := by
  induction m with
  | nil => simp [Keyed.erase]
  | cons a m ih =>
    obtain ⟨k, w⟩ := a
    by_cases h : k = i
    · subst h
      by_cases h' : k = j
      · subst h'
        simp [Keyed.erase, ih]
      · simp [Keyed.erase, Keyed.find_cons, ih, h']
    · by_cases h' : k = j
      · subst h'
        simp [Keyed.erase, Keyed.find_cons, h, Ne.symm h]
      · simp [Keyed.erase, Keyed.find_cons, h, h', ih]

theorem Keyed.find_modify (f : β → β) (m : Keyed β) (i j : Nat) :
    (Keyed.modify f m i).find j = if i = j then (m.find j).map f else m.find j := by
  induction m with
  | nil => simp [Keyed.modify]
  | cons a m ih =>
    obtain ⟨k, w⟩ := a
    by_cases h : k = i
    · subst h
      by_cases h' : k = j <;> simp [Keyed.modify, Keyed.find_cons, ih, h']
    · by_cases h' : k = j
      · subst h'
        simp [Keyed.modify, Keyed.find_cons, h, Ne.symm h]
      · simp [Keyed.modify, Keyed.find_cons, h, h', ih]

theorem Keyed.find_mapValues (f : β → β) (m : Keyed β) (j : Nat) :
    (Keyed.mapValues f m).find j = (m.find j).map f := by
  induction m with
  | nil => rfl
  | cons a m ih =>
    obtain ⟨k, w⟩ := a
    by_cases h : k = j <;> simp [Keyed.mapValues, Keyed.find_cons, ih, h]

theorem Keyed.find_putOption (m : Keyed β) (i j : Nat) (o : Option β) :
    (m.putOption i o).find j = if i = j then o else m.find j := by
  cases o with
  | none => exact Keyed.find_erase m i j
  | some v => exact Keyed.find_insert m i j v

theorem Keyed.getD_put [DecidableEq β] (m : Keyed β) (d : β) (i j : Nat) (v : β) :
    (m.put d i v).getD j d = if i = j then v else m.getD j d := by
  by_cases hv : v = d
  · by_cases h : i = j <;> simp [Keyed.put, Keyed.getD, Keyed.find_erase, hv, h]
  · by_cases h : i = j <;> simp [Keyed.put, Keyed.getD, Keyed.find_insert, hv, h]

/-! ## Membership -/

theorem Keyed.mem_of_find {m : Keyed β} {i : Nat} {v : β} (h : m.find i = some v) : (i, v) ∈ m := by
  induction m with
  | nil => simp at h
  | cons a m ih =>
    obtain ⟨k, w⟩ := a
    by_cases hk : k = i
    · simp [Keyed.find_cons, hk] at h
      simp [hk, h]
    · simp [Keyed.find_cons, hk] at h
      exact List.mem_cons_of_mem _ (ih h)

theorem Keyed.find_of_mem {m : Keyed β} (hm : m.Rising) {i : Nat} {v : β} (h : (i, v) ∈ m) : m.find i = some v := by
  induction m with
  | nil => simp at h
  | cons a m ih =>
    obtain ⟨k, w⟩ := a
    have hm' := List.pairwise_cons.1 hm
    rcases List.mem_cons.1 h with h | h
    · cases h
      simp [Keyed.find_cons]
    · have : k < i := hm'.1 _ h
      simp [Keyed.find_cons, Nat.ne_of_lt this, ih hm'.2 h]

theorem Keyed.mem_insert {m : Keyed β} {i : Nat} {v : β} {a : Nat × β} (h : a ∈ m.insert i v) :
    a = (i, v) ∨ a ∈ m := by
  induction m with
  | nil => simpa [Keyed.insert] using h
  | cons b m ih =>
    obtain ⟨k, w⟩ := b
    by_cases h₁ : i < k
    · simpa [Keyed.insert, h₁] using h
    · by_cases h₂ : i = k
      · simp [Keyed.insert, h₂] at h
        rcases h with h | h
        · exact .inl (by simp [h, h₂])
        · exact .inr (List.mem_cons_of_mem _ h)
      · simp only [Keyed.insert, if_neg h₁, if_neg h₂, List.mem_cons] at h
        rcases h with h | h
        · exact .inr (by simp [h])
        · rcases ih h with h | h
          · exact .inl h
          · exact .inr (List.mem_cons_of_mem _ h)

theorem Keyed.mem_erase {m : Keyed β} {i : Nat} {a : Nat × β} (h : a ∈ m.erase i) : a ∈ m ∧ a.1 ≠ i := by
  induction m with
  | nil => simp [Keyed.erase] at h
  | cons b m ih =>
    obtain ⟨k, w⟩ := b
    by_cases hk : k = i
    · simp only [Keyed.erase, if_pos hk] at h
      exact ⟨List.mem_cons_of_mem _ (ih h).1, (ih h).2⟩
    · simp only [Keyed.erase, if_neg hk, List.mem_cons] at h
      rcases h with h | h
      · exact ⟨by simp [h], by simpa [h] using hk⟩
      · exact ⟨List.mem_cons_of_mem _ (ih h).1, (ih h).2⟩

theorem Keyed.mem_modify {f : β → β} {m : Keyed β} {i k : Nat} {v : β} (h : (k, v) ∈ Keyed.modify f m i) :
    ∃ w, (k, w) ∈ m ∧ v = if k = i then f w else w := by
  induction m with
  | nil => simp [Keyed.modify] at h
  | cons b m ih =>
    obtain ⟨l, w⟩ := b
    simp only [Keyed.modify, List.mem_cons] at h
    rcases h with h | h
    · refine ⟨w, ?_⟩
      by_cases hl : l = i
      · rw [if_pos hl] at h
        cases h
        simp [hl]
      · rw [if_neg hl] at h
        cases h
        simp [hl]
    · obtain ⟨w', h₁, h₂⟩ := ih h
      exact ⟨w', List.mem_cons_of_mem _ h₁, h₂⟩

theorem Keyed.mem_mapValues {f : β → β} {m : Keyed β} {k : Nat} {v : β} (h : (k, v) ∈ Keyed.mapValues f m) :
    ∃ w, (k, w) ∈ m ∧ v = f w := by
  induction m with
  | nil => simp [Keyed.mapValues] at h
  | cons b m ih =>
    obtain ⟨l, w⟩ := b
    simp only [Keyed.mapValues, List.mem_cons] at h
    rcases h with h | h
    · cases h
      exact ⟨w, by simp, rfl⟩
    · obtain ⟨w', h₁, h₂⟩ := ih h
      exact ⟨w', List.mem_cons_of_mem _ h₁, h₂⟩

/-! ## The canonical form -/

theorem Keyed.insert_rising {m : Keyed β} (hm : m.Rising) (i : Nat) (v : β) : (m.insert i v).Rising := by
  induction m with
  | nil => simp [Keyed.insert]
  | cons b m ih =>
    obtain ⟨k, w⟩ := b
    have hm' := List.pairwise_cons.1 hm
    by_cases h₁ : i < k
    · simp only [Keyed.insert, if_pos h₁]
      refine List.pairwise_cons.2 ⟨fun a ha => ?_, hm⟩
      rcases List.mem_cons.1 ha with ha | ha
      · simpa [ha] using h₁
      · exact Nat.lt_trans h₁ (hm'.1 a ha)
    · by_cases h₂ : i = k
      · simp only [Keyed.insert, if_pos h₂, if_neg h₁]
        exact List.pairwise_cons.2 ⟨fun a ha => by simpa [h₂] using hm'.1 a ha, hm'.2⟩
      · simp only [Keyed.insert, if_neg h₂, if_neg h₁]
        refine List.pairwise_cons.2 ⟨fun a ha => ?_, ih hm'.2⟩
        rcases Keyed.mem_insert ha with ha | ha
        · simp only [ha]
          omega
        · exact hm'.1 a ha

theorem Keyed.erase_rising {m : Keyed β} (hm : m.Rising) (i : Nat) : (m.erase i).Rising := by
  induction m with
  | nil => simp [Keyed.erase]
  | cons b m ih =>
    obtain ⟨k, w⟩ := b
    have hm' := List.pairwise_cons.1 hm
    by_cases h : k = i
    · simpa only [Keyed.erase, if_pos h] using ih hm'.2
    · simp only [Keyed.erase, if_neg h]
      exact List.pairwise_cons.2 ⟨fun a ha => hm'.1 a (Keyed.mem_erase ha).1, ih hm'.2⟩

theorem Keyed.modify_rising {m : Keyed β} (hm : m.Rising) (f : β → β) (i : Nat) : (Keyed.modify f m i).Rising := by
  induction m with
  | nil => simp [Keyed.modify]
  | cons b m ih =>
    obtain ⟨k, w⟩ := b
    have hm' := List.pairwise_cons.1 hm
    refine List.pairwise_cons.2 ⟨fun a ha => ?_, ih hm'.2⟩
    obtain ⟨l, u⟩ := a
    obtain ⟨w', hw, -⟩ := Keyed.mem_modify ha
    have := hm'.1 (l, w') hw
    split <;> exact this

theorem Keyed.mapValues_rising {m : Keyed β} (hm : m.Rising) (f : β → β) : (Keyed.mapValues f m).Rising := by
  induction m with
  | nil => simp [Keyed.mapValues]
  | cons b m ih =>
    obtain ⟨k, w⟩ := b
    have hm' := List.pairwise_cons.1 hm
    refine List.pairwise_cons.2 ⟨fun a ha => ?_, ih hm'.2⟩
    obtain ⟨l, u⟩ := a
    obtain ⟨w', hw, -⟩ := Keyed.mem_mapValues ha
    exact hm'.1 (l, w') hw

theorem Keyed.putOption_rising {m : Keyed β} (hm : m.Rising) (i : Nat) (o : Option β) : (m.putOption i o).Rising := by
  cases o with
  | none => exact Keyed.erase_rising hm i
  | some v => exact Keyed.insert_rising hm i v

theorem Keyed.put_rising [DecidableEq β] {m : Keyed β} (hm : m.Rising) (d : β) (i : Nat) (v : β) :
    (m.put d i v).Rising := by
  unfold Keyed.put
  split
  · exact Keyed.erase_rising hm i
  · exact Keyed.insert_rising hm i v

/-- A write to a table with a default lists no entry equal to the default. -/
theorem Keyed.mem_put [DecidableEq β] {m : Keyed β} {d : β} {i k : Nat} {v w : β} (h : (k, w) ∈ m.put d i v) :
    (k = i ∧ w = v ∧ v ≠ d) ∨ (k, w) ∈ m := by
  unfold Keyed.put at h
  split at h
  · exact .inr (Keyed.mem_erase h).1
  · rename_i hv
    rcases Keyed.mem_insert h with h | h
    · cases h
      exact .inl ⟨rfl, rfl, hv⟩
    · exact .inr h

theorem Keyed.mem_putOption {m : Keyed β} {i k : Nat} {o : Option β} {w : β} (h : (k, w) ∈ m.putOption i o) :
    (k = i ∧ o = some w) ∨ (k, w) ∈ m := by
  cases o with
  | none => exact .inr (Keyed.mem_erase h).1
  | some v =>
    rcases Keyed.mem_insert h with h | h
    · cases h
      exact .inl ⟨rfl, rfl⟩
    · exact .inr h

/-! ## How many entries -/

theorem Keyed.length_modify (f : β → β) (m : Keyed β) (i : Nat) : (Keyed.modify f m i).length = m.length := by
  induction m with
  | nil => rfl
  | cons b m ih => simp [Keyed.modify, ih]

theorem Keyed.length_mapValues (f : β → β) (m : Keyed β) : (Keyed.mapValues f m).length = m.length := by
  induction m with
  | nil => rfl
  | cons b m ih => simp [Keyed.mapValues, ih]

theorem Keyed.length_erase_le (m : Keyed β) (i : Nat) : (m.erase i).length ≤ m.length := by
  induction m with
  | nil => simp [Keyed.erase]
  | cons b m ih =>
    obtain ⟨k, w⟩ := b
    by_cases h : k = i
    · simp only [Keyed.erase, if_pos h, List.length_cons]
      omega
    · simp only [Keyed.erase, if_neg h, List.length_cons]
      omega

theorem Keyed.length_insert_le (m : Keyed β) (i : Nat) (v : β) : (m.insert i v).length ≤ m.length + 1 := by
  induction m with
  | nil => simp [Keyed.insert]
  | cons b m ih =>
    obtain ⟨k, w⟩ := b
    simp only [Keyed.insert]
    split
    · simp
    · split <;> simp only [List.length_cons] <;> omega

theorem Keyed.length_insert_of_find {m : Keyed β} (hm : m.Rising) {i : Nat} {u : β} (h : m.find i = some u) (v : β) :
    (m.insert i v).length = m.length := by
  induction m with
  | nil => simp at h
  | cons b m ih =>
    obtain ⟨k, w⟩ := b
    have hm' := List.pairwise_cons.1 hm
    by_cases hk : k = i
    · subst hk
      simp [Keyed.insert]
    · rw [Keyed.find_cons, if_neg hk] at h
      have : k < i := hm'.1 _ (Keyed.mem_of_find h)
      simp only [Keyed.insert, if_neg (Nat.not_lt.2 (Nat.le_of_lt this)), if_neg (Ne.symm hk), List.length_cons,
        ih hm'.2 h]

end

end Sys2Proof.Machine
end

