-- ==== Sys2Proof/Laws/State.lean ====
section
/-! SUPPORT. Laws/State.lean: one lemma for each field of each update of a record. -/

namespace Sys2Proof.Machine

/-! ## The state -/

@[simp] theorem State.reply_dmx (s : State) (r : Result) : (s.reply r).dmx = s.dmx := rfl
@[simp] theorem State.reply_enc (s : State) (r : Result) : (s.reply r).enc = s.enc := rfl
@[simp] theorem State.reply_inputs (s : State) (r : Result) : (s.reply r).port.inputs = s.port.inputs := rfl
@[simp] theorem State.reply_result (s : State) (r : Result) : (s.reply r).port.result = some r := rfl
@[simp] theorem State.reply_status (s : State) (r : Result) : (s.reply r).status = some r.status := rfl
@[simp] theorem State.reply_value (s : State) (r : Result) : (s.reply r).value = r.value := rfl
@[simp] theorem State.reply_events (s : State) (r : Result) : (s.reply r).events = r.events := rfl
@[simp] theorem State.assertReset_dmx (s : State) : s.assertReset.dmx = Dmx.reset := rfl
@[simp] theorem State.assertReset_enc (s : State) : s.assertReset.enc = Enc.reset := rfl
@[simp] theorem State.assertReset_inputs (s : State) : s.assertReset.port.inputs = s.port.inputs := rfl
@[simp] theorem State.assertReset_result (s : State) : s.assertReset.port.result = none := rfl
@[simp] theorem State.issue_dmx (s : State) (c : Command) : (s.issue c).dmx = s.dmx := rfl
@[simp] theorem State.issue_enc (s : State) (c : Command) : (s.issue c).enc = s.enc := rfl
@[simp] theorem State.issueFirst_dmx (s : State) (c : Command) : (s.issueFirst c).dmx = s.dmx := rfl
@[simp] theorem State.issueFirst_enc (s : State) (c : Command) : (s.issueFirst c).enc = s.enc := rfl
@[simp] theorem State.issueFirst_inputs (s : State) (c : Command) :
    (s.issueFirst c).port.inputs = .command c :: s.port.inputs := rfl

/-! ## The working record of a FEED -/

@[simp] theorem Rx.emit_chan (r : Rx) (e : Event) : (r.emit e).chan = r.chan := rfl
@[simp] theorem Rx.emit_events (r : Rx) (e : Event) : (r.emit e).events = r.events ++ [e] := rfl
@[simp] theorem Rx.withBuf_buf (r : Rx) (b : Bytes) : (r.withBuf b).chan.buf = b := rfl
@[simp] theorem Rx.withBuf_lastCc (r : Rx) (b : Bytes) : (r.withBuf b).chan.lastCc = r.chan.lastCc := rfl
@[simp] theorem Rx.withBuf_aggs (r : Rx) (b : Bytes) : (r.withBuf b).chan.aggs = r.chan.aggs := rfl
@[simp] theorem Rx.withBuf_events (r : Rx) (b : Bytes) : (r.withBuf b).events = r.events := rfl
@[simp] theorem Rx.withAggs_aggs (r : Rx) (m : Keyed Agg) : (r.withAggs m).chan.aggs = m := rfl
@[simp] theorem Rx.withAggs_buf (r : Rx) (m : Keyed Agg) : (r.withAggs m).chan.buf = r.chan.buf := rfl
@[simp] theorem Rx.withAggs_lastCc (r : Rx) (m : Keyed Agg) : (r.withAggs m).chan.lastCc = r.chan.lastCc := rfl
@[simp] theorem Rx.withAggs_events (r : Rx) (m : Keyed Agg) : (r.withAggs m).events = r.events := rfl
@[simp] theorem Rx.withBuf_emit (r : Rx) (b : Bytes) (e : Event) : (r.withBuf b).emit e = (r.emit e).withBuf b := rfl
@[simp] theorem Rx.withBuf_withBuf (r : Rx) (b b' : Bytes) : (r.withBuf b).withBuf b' = r.withBuf b' := rfl
@[simp] theorem Agg.record_version (a : Agg) (n : BitVec 8) (s : Bytes) : (a.record n s).version = a.version := rfl
@[simp] theorem Agg.record_lastSn (a : Agg) (n : BitVec 8) (s : Bytes) : (a.record n s).lastSn = a.lastSn := rfl
@[simp] theorem Agg.record_slots (a : Agg) (n : BitVec 8) (s : Bytes) :
    (a.record n s).slots = a.slots.set n.toNat (some s) := rfl
@[simp] theorem Agg.fresh_version (v : BitVec 5) (l : BitVec 8) : (Agg.fresh v l).version = v := rfl
@[simp] theorem Agg.fresh_lastSn (v : BitVec 5) (l : BitVec 8) : (Agg.fresh v l).lastSn = l := rfl
@[simp] theorem Agg.fresh_slots (v : BitVec 5) (l : BitVec 8) :
    (Agg.fresh v l).slots = List.replicate (l.toNat + 1) none := rfl

/-! ## The ENC unit: the fields a write leaves -/

section
variable (e : Enc) (c : Channel)

@[simp] theorem Enc.setPk_time (p : Packetizer) : (e.setPk c p).time = e.time := rfl
@[simp] theorem Enc.setPk_inflight (p : Packetizer) : (e.setPk c p).inflight = e.inflight := rfl
@[simp] theorem Enc.setPk_entries (p : Packetizer) : (e.setPk c p).entries = e.entries := rfl
@[simp] theorem Enc.setPk_nextId (p : Packetizer) : (e.setPk c p).nextId = e.nextId := rfl
@[simp] theorem Enc.setTime_pk (t : Nat) : (e.setTime c t).pk = e.pk := rfl
@[simp] theorem Enc.setTime_inflight (t : Nat) : (e.setTime c t).inflight = e.inflight := rfl
@[simp] theorem Enc.setTime_entries (t : Nat) : (e.setTime c t).entries = e.entries := rfl
@[simp] theorem Enc.setTime_nextId (t : Nat) : (e.setTime c t).nextId = e.nextId := rfl
@[simp] theorem Enc.setInflight_pk (o : Option Nat) : (e.setInflight c o).pk = e.pk := rfl
@[simp] theorem Enc.setInflight_time (o : Option Nat) : (e.setInflight c o).time = e.time := rfl
@[simp] theorem Enc.setInflight_entries (o : Option Nat) : (e.setInflight c o).entries = e.entries := rfl
@[simp] theorem Enc.setInflight_nextId (o : Option Nat) : (e.setInflight c o).nextId = e.nextId := rfl
@[simp] theorem Enc.setEntry_pk (i : Nat) (n : Entry) : (e.setEntry i n).pk = e.pk := rfl
@[simp] theorem Enc.setEntry_time (i : Nat) (n : Entry) : (e.setEntry i n).time = e.time := rfl
@[simp] theorem Enc.setEntry_inflight (i : Nat) (n : Entry) : (e.setEntry i n).inflight = e.inflight := rfl
@[simp] theorem Enc.setEntry_nextId (i : Nat) (n : Entry) : (e.setEntry i n).nextId = e.nextId := rfl
@[simp] theorem Enc.removeEntry_pk (i : Nat) : (e.removeEntry i).pk = e.pk := rfl
@[simp] theorem Enc.removeEntry_time (i : Nat) : (e.removeEntry i).time = e.time := rfl
@[simp] theorem Enc.removeEntry_inflight (i : Nat) : (e.removeEntry i).inflight = e.inflight := rfl
@[simp] theorem Enc.removeEntry_nextId (i : Nat) : (e.removeEntry i).nextId = e.nextId := rfl
@[simp] theorem Enc.modifyEntry_pk (i : Nat) (f : Entry → Entry) : (e.modifyEntry i f).pk = e.pk := rfl
@[simp] theorem Enc.modifyEntry_time (i : Nat) (f : Entry → Entry) : (e.modifyEntry i f).time = e.time := rfl
@[simp] theorem Enc.modifyEntry_inflight (i : Nat) (f : Entry → Entry) : (e.modifyEntry i f).inflight = e.inflight := rfl
@[simp] theorem Enc.modifyEntry_nextId (i : Nat) (f : Entry → Entry) : (e.modifyEntry i f).nextId = e.nextId := rfl
@[simp] theorem Enc.markDue_pk (t : Nat) : (e.markDue c t).pk = e.pk := rfl
@[simp] theorem Enc.markDue_time (t : Nat) : (e.markDue c t).time = e.time := rfl
@[simp] theorem Enc.markDue_inflight (t : Nat) : (e.markDue c t).inflight = e.inflight := rfl
@[simp] theorem Enc.markDue_nextId (t : Nat) : (e.markDue c t).nextId = e.nextId := rfl

end

end Sys2Proof.Machine
end

