-- ==== Sys2Proof/Laws/Ops.lean ====
section
/-! SUPPORT. Laws/Ops.lean: what the reads of the TSE's state elements give after its writes, and one lemma for each shared
operation over the ENC unit that says all it can do. -/

namespace Sys2Proof.Machine

theorem channel_toNat_eq {c c' : Channel} : c.toNat = c'.toNat ↔ c = c' := BitVec.toNat_inj

/-! ## The DMX unit -/

theorem Dmx.chanAt_setChan (d : Dmx) (c c' : Channel) (r : Option ChanRec) :
    (d.setChan c r).chanAt c' = if c = c' then r else d.chanAt c' := by
  simp only [Dmx.chanAt, Dmx.setChan, Keyed.find_putOption, channel_toNat_eq]

@[simp] theorem Dmx.chanAt_setChan_self (d : Dmx) (c : Channel) (r : Option ChanRec) : (d.setChan c r).chanAt c = r := by
  simp [Dmx.chanAt_setChan]

theorem Dmx.chanAt_setChan_of_ne (d : Dmx) {c c' : Channel} (h : c' ≠ c) (r : Option ChanRec) :
    (d.setChan c r).chanAt c' = d.chanAt c' := by
  simp [Dmx.chanAt_setChan, h.symm]

/-! ## The ENC unit -/

theorem Enc.pkAt_setPk (e : Enc) (c c' : Channel) (p : Packetizer) :
    (e.setPk c p).pkAt c' = if c = c' then p else e.pkAt c' := by
  simp only [Enc.pkAt, Enc.setPk, Keyed.getD_put, channel_toNat_eq]

theorem Enc.timeAt_setTime (e : Enc) (c c' : Channel) (t : Nat) :
    (e.setTime c t).timeAt c' = if c = c' then t else e.timeAt c' := by
  simp only [Enc.timeAt, Enc.setTime, Keyed.getD_put, channel_toNat_eq]

theorem Enc.inflightAt_setInflight (e : Enc) (c c' : Channel) (o : Option Nat) :
    (e.setInflight c o).inflightAt c' = if c = c' then o else e.inflightAt c' := by
  simp only [Enc.inflightAt, Enc.setInflight, Keyed.find_putOption, channel_toNat_eq]

theorem Enc.entryAt_setEntry (e : Enc) (i j : Nat) (n : Entry) :
    (e.setEntry i n).entryAt j = if i = j then some n else e.entryAt j := Keyed.find_insert _ _ _ _

theorem Enc.entryAt_removeEntry (e : Enc) (i j : Nat) :
    (e.removeEntry i).entryAt j = if i = j then none else e.entryAt j := Keyed.find_erase _ _ _

theorem Enc.entryAt_modifyEntry (e : Enc) (i j : Nat) (f : Entry → Entry) :
    (e.modifyEntry i f).entryAt j = if i = j then (e.entryAt j).map f else e.entryAt j := Keyed.find_modify _ _ _ _

theorem Enc.entryAt_markDue (e : Enc) (c : Channel) (now j : Nat) :
    (e.markDue c now).entryAt j = (e.entryAt j).map (Entry.markDue c now) := Keyed.find_mapValues _ _ _

/-! ### Reads that a write of another element leaves -/

section
variable (e : Enc) (c c' : Channel)

@[simp] theorem Enc.pkAt_setTime (t : Nat) : (e.setTime c t).pkAt c' = e.pkAt c' := rfl
@[simp] theorem Enc.pkAt_setInflight (o : Option Nat) : (e.setInflight c o).pkAt c' = e.pkAt c' := rfl
@[simp] theorem Enc.pkAt_setEntry (i : Nat) (n : Entry) : (e.setEntry i n).pkAt c' = e.pkAt c' := rfl
@[simp] theorem Enc.pkAt_removeEntry (i : Nat) : (e.removeEntry i).pkAt c' = e.pkAt c' := rfl
@[simp] theorem Enc.pkAt_modifyEntry (i : Nat) (f : Entry → Entry) : (e.modifyEntry i f).pkAt c' = e.pkAt c' := rfl
@[simp] theorem Enc.pkAt_markDue (t : Nat) : (e.markDue c t).pkAt c' = e.pkAt c' := rfl
@[simp] theorem Enc.timeAt_setPk (p : Packetizer) : (e.setPk c p).timeAt c' = e.timeAt c' := rfl
@[simp] theorem Enc.timeAt_setInflight (o : Option Nat) : (e.setInflight c o).timeAt c' = e.timeAt c' := rfl
@[simp] theorem Enc.timeAt_setEntry (i : Nat) (n : Entry) : (e.setEntry i n).timeAt c' = e.timeAt c' := rfl
@[simp] theorem Enc.timeAt_removeEntry (i : Nat) : (e.removeEntry i).timeAt c' = e.timeAt c' := rfl
@[simp] theorem Enc.timeAt_modifyEntry (i : Nat) (f : Entry → Entry) : (e.modifyEntry i f).timeAt c' = e.timeAt c' := rfl
@[simp] theorem Enc.timeAt_markDue (t : Nat) : (e.markDue c t).timeAt c' = e.timeAt c' := rfl
@[simp] theorem Enc.inflightAt_setPk (p : Packetizer) : (e.setPk c p).inflightAt c' = e.inflightAt c' := rfl
@[simp] theorem Enc.inflightAt_setTime (t : Nat) : (e.setTime c t).inflightAt c' = e.inflightAt c' := rfl
@[simp] theorem Enc.inflightAt_setEntry (i : Nat) (n : Entry) : (e.setEntry i n).inflightAt c' = e.inflightAt c' := rfl
@[simp] theorem Enc.inflightAt_removeEntry (i : Nat) : (e.removeEntry i).inflightAt c' = e.inflightAt c' := rfl
@[simp] theorem Enc.inflightAt_modifyEntry (i : Nat) (f : Entry → Entry) :
    (e.modifyEntry i f).inflightAt c' = e.inflightAt c' := rfl
@[simp] theorem Enc.inflightAt_markDue (t : Nat) : (e.markDue c t).inflightAt c' = e.inflightAt c' := rfl
@[simp] theorem Enc.entryAt_setPk (p : Packetizer) (i : Nat) : (e.setPk c p).entryAt i = e.entryAt i := rfl
@[simp] theorem Enc.entryAt_setTime (t i : Nat) : (e.setTime c t).entryAt i = e.entryAt i := rfl
@[simp] theorem Enc.entryAt_setInflight (o : Option Nat) (i : Nat) : (e.setInflight c o).entryAt i = e.entryAt i := rfl

end

/-! ## The end of an emission (44_cycling.md rule R251) -/

section
variable (e : Enc) (c : Channel)

@[simp] theorem Enc.finishEmission_pk : (e.finishEmission c).pk = e.pk := by
  unfold Enc.finishEmission
  split
  · split <;> rfl
  · rfl

@[simp] theorem Enc.finishEmission_time : (e.finishEmission c).time = e.time := by
  unfold Enc.finishEmission
  split
  · split <;> rfl
  · rfl

@[simp] theorem Enc.finishEmission_nextId : (e.finishEmission c).nextId = e.nextId := by
  unfold Enc.finishEmission
  split
  · split <;> rfl
  · rfl

@[simp] theorem Enc.pkAt_finishEmission (c' : Channel) : (e.finishEmission c).pkAt c' = e.pkAt c' := by
  simp [Enc.pkAt]

@[simp] theorem Enc.timeAt_finishEmission (c' : Channel) : (e.finishEmission c).timeAt c' = e.timeAt c' := by
  simp [Enc.timeAt]

theorem Enc.inflightAt_finishEmission (c' : Channel) :
    (e.finishEmission c).inflightAt c' = if c = c' ∧ (e.pkAt c).queue = [] then none else e.inflightAt c' := by
  unfold Enc.finishEmission
  by_cases hq : (e.pkAt c).queue = []
  · rw [if_pos hq]
    cases hi : e.inflightAt c with
    | none =>
      by_cases h : c = c'
      · subst h
        simp [hi]
      · simp [h]
    | some i => simp [Enc.inflightAt_setInflight, hq]
  · simp [hq]

theorem Enc.entryAt_finishEmission (j : Nat) :
    (e.finishEmission c).entryAt j =
      if (e.pkAt c).queue = [] ∧ e.inflightAt c = some j then
        (e.entryAt j).map fun n => { n with state := .scheduled }
      else e.entryAt j := by
  unfold Enc.finishEmission
  by_cases hq : (e.pkAt c).queue = []
  · rw [if_pos hq]
    cases hi : e.inflightAt c with
    | none => simp
    | some i => simp [Enc.entryAt_modifyEntry, hq]
  · simp [hq]

end

/-! ## The host's next input -/

theorem State.nextInput_eq_some {s s' : State} {i : HostInput} (h : s.nextInput = some (i, s')) :
    ∃ rest, s.port.inputs = i :: rest ∧ s' = { s with port := { s.port with inputs := rest } } := by
  unfold State.nextInput at h
  cases hi : s.port.inputs with
  | nil => simp [hi] at h
  | cons j rest =>
    simp only [hi, Option.some.injEq, Prod.mk.injEq] at h
    exact ⟨rest, by rw [h.1], h.2.symm⟩

end Sys2Proof.Machine
end

