-- ==== Sys2Proof/Laws/Encoder.lean ====
section
/-! SUPPORT. Laws/Encoder.lean: what the shared operations of the ENC unit can do, one lemma each. -/

namespace Sys2Proof.Machine

open Config

/-- The output-section check, as its clauses (43_packetizer.md rule R211). -/
theorem outputSectionOk_iff {s : Bytes} : outputSectionOk s = true ↔
    minSectionSize ≤ s.length ∧ s.length ≤ maxSectionSize ∧ declLen s = s.length ∧ byteAt s 0 ≠ stuffByte := by
  simp only [outputSectionOk, Bool.and_eq_true, decide_eq_true_eq]
  tauto

/-- A declared length is at least 3 (30_encoding.md rule R97). -/
theorem three_le_declLen (s : Bytes) : 3 ≤ declLen s := Nat.le_add_right 3 _

/-- A declared length is at most 4098 (30_encoding.md rule R97). -/
theorem declLen_le (s : Bytes) : declLen s ≤ 4098 := by
  have h₁ := ((byteAt s 1).extractLsb' 0 4).isLt
  have h₂ := (byteAt s 2).isLt
  unfold declLen
  omega

/-- Filling a payload never passes 184 bytes (43_packetizer.md rule R216). -/
theorem fillPayload_length_le (f : Bool) (pl : Bytes) (off : Nat) (q : List Bytes) (h : pl.length ≤ payloadMax) :
    (fillPayload f pl off q).payload.length ≤ payloadMax := by
  induction q generalizing pl off with
  | nil => simpa [fillPayload] using h
  | cons s q ih =>
    have hl : (pl ++ (s.drop off).take (min (payloadMax - pl.length) (s.length - off))).length ≤ payloadMax := by
      simp only [List.length_append, List.length_take, List.length_drop]
      omega
    unfold fillPayload
    split
    · simp only
      split
      · split
        · exact ih _ _ hl
        · exact hl
      · exact hl
    · exact h

/-- The pair order of 44_cycling.md rule R248. -/
theorem dueBefore_iff {a b : Nat × Entry} :
    dueBefore a b = true ↔ a.2.nextDue < b.2.nextDue ∨ (a.2.nextDue = b.2.nextDue ∧ a.1 < b.1) := by
  simp [dueBefore]

theorem dueBefore_eq_false_iff {a b : Nat × Entry} :
    dueBefore a b = false ↔ ¬(a.2.nextDue < b.2.nextDue ∨ (a.2.nextDue = b.2.nextDue ∧ a.1 < b.1)) := by
  rw [← dueBefore_iff, Bool.not_eq_true]

theorem selectDue_eq_none {c : Channel} {m : Keyed Entry} (h : selectDue c m = none) :
    ∀ i n, (i, n) ∈ m → ¬(n.ch = c ∧ n.state = .due) := by
  induction m with
  | nil => simp
  | cons a m ih =>
    obtain ⟨k, w⟩ := a
    unfold selectDue at h
    by_cases hw : w.ch = c ∧ w.state = .due
    · rw [if_pos hw] at h
      split at h
      · cases h
      · split at h <;> cases h
    · rw [if_neg hw] at h
      intro i n hin
      rcases List.mem_cons.1 hin with hin | hin
      · cases hin
        exact hw
      · exact ih h i n hin

/-- `select(c)` gives a DUE entry of its channel with the least pair (44_cycling.md rule R248). -/
theorem selectDue_eq_some {c : Channel} {m : Keyed Entry} {i : Nat} {n : Entry} (h : selectDue c m = some (i, n)) :
    (i, n) ∈ m ∧ n.ch = c ∧ n.state = .due ∧
      ∀ j k, (j, k) ∈ m → k.ch = c → k.state = .due →
        n.nextDue < k.nextDue ∨ (n.nextDue = k.nextDue ∧ i ≤ j) := by
  induction m generalizing i n with
  | nil => simp [selectDue] at h
  | cons a m ih =>
    obtain ⟨l, w⟩ := a
    unfold selectDue at h
    by_cases hw : w.ch = c ∧ w.state = .due
    · rw [if_pos hw] at h
      cases hs : selectDue c m with
      | none =>
        simp only [hs, Option.some.injEq, Prod.mk.injEq] at h
        obtain ⟨rfl, rfl⟩ := h
        refine ⟨by simp, hw.1, hw.2, fun j k hjk hc hd => ?_⟩
        rcases List.mem_cons.1 hjk with hjk | hjk
        · cases hjk
          exact .inr ⟨rfl, Nat.le_refl _⟩
        · exact absurd ⟨hc, hd⟩ (selectDue_eq_none hs j k hjk)
      | some b =>
        obtain ⟨j₀, b⟩ := b
        obtain ⟨hm, hc₀, hd₀, hmin⟩ := ih hs
        simp only [hs] at h
        cases hb : dueBefore (l, w) (j₀, b)
        · simp only [hb, Bool.false_eq_true, if_false, Option.some.injEq, Prod.mk.injEq] at h
          obtain ⟨rfl, rfl⟩ := h
          rw [dueBefore_eq_false_iff] at hb
          refine ⟨List.mem_cons_of_mem _ hm, hc₀, hd₀, fun j k hjk hc hd => ?_⟩
          rcases List.mem_cons.1 hjk with hjk | hjk
          · cases hjk
            simp only at hb
            omega
          · exact hmin j k hjk hc hd
        · simp only [hb, if_true, Option.some.injEq, Prod.mk.injEq] at h
          obtain ⟨rfl, rfl⟩ := h
          rw [dueBefore_iff] at hb
          refine ⟨by simp, hw.1, hw.2, fun j k hjk hc hd => ?_⟩
          rcases List.mem_cons.1 hjk with hjk | hjk
          · cases hjk
            exact .inr ⟨rfl, Nat.le_refl _⟩
          · have := hmin j k hjk hc hd
            simp only at hb
            omega
    · rw [if_neg hw] at h
      obtain ⟨hm, hc₀, hd₀, hmin⟩ := ih h
      refine ⟨List.mem_cons_of_mem _ hm, hc₀, hd₀, fun j k hjk hc hd => ?_⟩
      rcases List.mem_cons.1 hjk with hjk | hjk
      · cases hjk
        exact absurd ⟨hc, hd⟩ hw
      · exact hmin j k hjk hc hd

/-- What PKT_LOAD can do (43_packetizer.md rule R212). -/
theorem pktLoadWith_cases (p : Params) (ch : Channel) (d : Bytes) (s : State) :
    (outputSectionOk d = false ∧ pktLoadWith p ch d s = s.fail .errSection) ∨
    (outputSectionOk d = true ∧ (s.enc.pkAt ch).queue.length = p.pktQueueDepth ∧
      pktLoadWith p ch d s = s.fail .errCapacity) ∨
    (outputSectionOk d = true ∧ (s.enc.pkAt ch).queue.length ≠ p.pktQueueDepth ∧
      pktLoadWith p ch d s = .next
        (State.reply { s with enc := s.enc.setPk ch { s.enc.pkAt ch with queue := (s.enc.pkAt ch).queue ++ [stamp d] } }
          ⟨.ok, none, []⟩)) := by
  unfold pktLoadWith
  cases h : outputSectionOk d
  · exact .inl ⟨rfl, rfl⟩
  · by_cases hq : (s.enc.pkAt ch).queue.length = p.pktQueueDepth
    · exact .inr (.inl ⟨rfl, hq, by simp [hq]⟩)
    · exact .inr (.inr ⟨rfl, hq, by simp [hq, State.done]⟩)

/-- What CYC_ADD can do (44_cycling.md rule R242), in the order of its checks. -/
theorem cycAddWith_cases (p : Params) (ch : Channel) (d : Bytes) (s : State) :
    ((d.length < 6 ∨ parseTable (d.drop 4) = none) ∧ cycAddWith p ch d s = s.fail .errSection) ∨
    ∃ t, 6 ≤ d.length ∧ parseTable (d.drop 4) = some t ∧
      ((be32 d 0 = 0#32 ∧ cycAddWith p ch d s = s.fail .errInterval) ∨
        (be32 d 0 ≠ 0#32 ∧ (s.enc.entries.length = p.maxEntries ∨ s.enc.nextId = entryIdCount) ∧
          cycAddWith p ch d s = s.fail .errCapacity) ∨
        (be32 d 0 ≠ 0#32 ∧ ¬(s.enc.entries.length = p.maxEntries ∨ s.enc.nextId = entryIdCount) ∧
          cycAddWith p ch d s = .next
            (State.reply
              { s with enc := { s.enc.setEntry s.enc.nextId ⟨ch, be32 d 0, t, s.enc.timeAt ch, .scheduled⟩ with
                nextId := s.enc.nextId + 1 } }
              ⟨.ok, some (.entryId (BitVec.ofNat 15 s.enc.nextId)), []⟩))) := by
  unfold cycAddWith
  by_cases h : d.length < 6
  · exact .inl ⟨.inl h, by rw [if_pos h]⟩
  · rw [if_neg h]
    cases hp : parseTable (d.drop 4) with
    | none => exact .inl ⟨.inr rfl, rfl⟩
    | some t =>
      refine .inr ⟨t, by omega, rfl, ?_⟩
      by_cases hi : be32 d 0 = 0#32
      · exact .inl ⟨hi, by simp [hi]⟩
      · by_cases hc : s.enc.entries.length = p.maxEntries ∨ s.enc.nextId = entryIdCount
        · exact .inr (.inl ⟨hi, hc, by simp only [if_neg hi, if_pos hc]⟩)
        · exact .inr (.inr ⟨hi, hc, by simp only [if_neg hi, if_neg hc, State.done]⟩)

/-- A packet slot of an idle channel (43_packetizer.md rules R214 and R219). -/
theorem Enc.emitPacket_of_empty {e : Enc} {c : Channel} (h : (e.pkAt c).queue = []) :
    e.emitPacket c = ((e.pkAt c).stuffingPacket c, (e.setTime c (e.timeAt c + 1)).finishEmission c) := by
  simp only [Enc.emitPacket, if_pos h]

/-- A packet slot of a channel with sections queued (43_packetizer.md rules R214 and R218). -/
theorem Enc.emitPacket_of_queue {e : Enc} {c : Channel} (h : (e.pkAt c).queue ≠ []) :
    e.emitPacket c = (((e.pkAt c).build c).1,
      ((e.setPk c ((e.pkAt c).build c).2).setTime c (e.timeAt c + 1)).finishEmission c) := by
  simp only [Enc.emitPacket, if_neg h]

/-- Every packet slot advances its channel's packet time by 1, and no other's (43_packetizer.md rule R222). -/
theorem Enc.timeAt_emitPacket (e : Enc) (c c' : Channel) :
    (e.emitPacket c).2.timeAt c' = if c = c' then e.timeAt c + 1 else e.timeAt c' := by
  by_cases h : (e.pkAt c).queue = []
  · simp [Enc.emitPacket_of_empty h, Enc.timeAt_setTime]
  · simp [Enc.emitPacket_of_queue h, Enc.timeAt_setTime]

/-- The Packetizers after a packet slot. -/
theorem Enc.pkAt_emitPacket (e : Enc) (c c' : Channel) :
    (e.emitPacket c).2.pkAt c' =
      if c = c' ∧ (e.pkAt c).queue ≠ [] then ((e.pkAt c).build c).2 else e.pkAt c' := by
  by_cases h : (e.pkAt c).queue = []
  · simp [Enc.emitPacket_of_empty h, h]
  · simp [Enc.emitPacket_of_queue h, h, Enc.pkAt_setPk]

@[simp] theorem Enc.nextId_emitPacket (e : Enc) (c : Channel) : (e.emitPacket c).2.nextId = e.nextId := by
  by_cases h : (e.pkAt c).queue = []
  · simp [Enc.emitPacket_of_empty h]
  · simp [Enc.emitPacket_of_queue h]

/-- Loading an entry replaces its channel's queue, and keeps the rest of its Packetizer (44_cycling.md rule R249). -/
theorem Enc.pkAt_loadEntry (e : Enc) (c c' : Channel) (i : Nat) (n : Entry) (now : Nat) :
    (e.loadEntry c i n now).pkAt c' =
      if c = c' then { e.pkAt c with queue := n.table.map stamp } else e.pkAt c' := by
  simp [Enc.loadEntry, Enc.pkAt_setPk]

theorem Enc.entryAt_loadEntry (e : Enc) (c : Channel) (i j : Nat) (n : Entry) (now : Nat) :
    (e.loadEntry c i n now).entryAt j =
      if i = j then (e.entryAt j).map fun m => { m with nextDue := now + m.interval.toNat, state := .emitted }
      else e.entryAt j := by
  simp [Enc.loadEntry, Enc.entryAt_modifyEntry]

theorem Enc.inflightAt_loadEntry (e : Enc) (c c' : Channel) (i : Nat) (n : Entry) (now : Nat) :
    (e.loadEntry c i n now).inflightAt c' = if c = c' then some i else e.inflightAt c' := by
  simp [Enc.loadEntry, Enc.inflightAt_setInflight]

/-- What the selection of a tick can do (44_cycling.md rules R246 and R248). -/
theorem Enc.selectAndLoad_cases (e : Enc) (c : Channel) (now : Nat) :
    (((e.pkAt c).queue ≠ [] ∨ selectDue c e.entries = none) ∧ e.selectAndLoad c now = e) ∨
    ∃ i n, (e.pkAt c).queue = [] ∧ selectDue c e.entries = some (i, n) ∧
      e.selectAndLoad c now = e.loadEntry c i n now := by
  unfold Enc.selectAndLoad
  by_cases hq : (e.pkAt c).queue = []
  · rw [if_pos hq]
    cases hs : selectDue c e.entries with
    | none => exact .inl ⟨.inr rfl, rfl⟩
    | some a => exact .inr ⟨a.1, a.2, hq, rfl, rfl⟩
  · rw [if_neg hq]
    exact .inl ⟨.inl hq, rfl⟩

/-- What PKT_NEXT can do (43_packetizer.md rules R214 and R220). -/
theorem execPktNext_cases (ch : Channel) (s : State) :
    ((s.enc.pkAt ch).queue = [] ∧ (s.enc.pkAt ch).mode = .signal ∧
      execPktNext ch s = .next (s.reply ⟨.exhausted, none, []⟩)) ∨
    (¬((s.enc.pkAt ch).queue = [] ∧ (s.enc.pkAt ch).mode = .signal) ∧
      execPktNext ch s = .next (State.reply { s with enc := (s.enc.emitPacket ch).2 }
        ⟨.ok, some (.packet (s.enc.emitPacket ch).1), []⟩)) := by
  unfold execPktNext
  by_cases h : (s.enc.pkAt ch).queue = [] ∧ (s.enc.pkAt ch).mode = .signal
  · exact .inl ⟨h.1, h.2, by simp only [if_pos h]⟩
  · exact .inr ⟨h, by simp only [if_neg h, State.done]⟩

/-- What CYC_REMOVE can do (44_cycling.md rule R244). -/
theorem execCycRemove_cases (id : EntryId) (s : State) :
    (s.enc.entryAt id.toNat = none ∧ execCycRemove id s = s.fail .errNoEntry) ∨
    ∃ n, s.enc.entryAt id.toNat = some n ∧ ∃ e, execCycRemove id s = .next (State.reply { s with enc := e } ⟨.ok, none, []⟩) ∧
      ((s.enc.inflightAt n.ch = some id.toNat ∧ e = (s.enc.removeEntry id.toNat).setInflight n.ch none) ∨
        (s.enc.inflightAt n.ch ≠ some id.toNat ∧ e = s.enc.removeEntry id.toNat)) := by
  unfold execCycRemove
  cases hn : s.enc.entryAt id.toNat with
  | none => exact .inl ⟨rfl, rfl⟩
  | some n =>
    refine .inr ⟨n, rfl, ?_⟩
    refine ⟨_, rfl, ?_⟩
    by_cases hi : s.enc.inflightAt n.ch = some id.toNat
    · exact .inl ⟨hi, if_pos hi⟩
    · exact .inr ⟨hi, if_neg hi⟩

/-- What CYC_REPLACE can do (44_cycling.md rule R245), in the order of its checks. -/
theorem execCycReplace_cases (id : EntryId) (d : Bytes) (s : State) :
    (s.enc.entryAt id.toNat = none ∧ execCycReplace id d s = s.fail .errNoEntry) ∨
    ∃ n, s.enc.entryAt id.toNat = some n ∧
      ((parseTable d = none ∧ execCycReplace id d s = s.fail .errSection) ∨
        ∃ t, parseTable d = some t ∧ execCycReplace id d s = .next
          (State.reply { s with enc := s.enc.modifyEntry id.toNat fun n => { n with table := t } } ⟨.ok, none, []⟩)) := by
  unfold execCycReplace
  cases hn : s.enc.entryAt id.toNat with
  | none => exact .inl ⟨rfl, rfl⟩
  | some n =>
    refine .inr ⟨n, rfl, ?_⟩
    cases hp : parseTable d with
    | none => exact .inl ⟨rfl, rfl⟩
    | some t => exact .inr ⟨t, rfl, rfl⟩

/-- One section of a table operand split off, and the rest (44_cycling.md rule R243). -/
theorem splitSections_succ_eq_some {k : Nat} {b : Bytes} {t : List Bytes} :
    splitSections (k + 1) b = some t ↔ 3 ≤ b.length ∧ declLen b ≤ b.length ∧ outputSectionOk (b.take (declLen b)) = true ∧
      ∃ t', splitSections k (b.drop (declLen b)) = some t' ∧ t = b.take (declLen b) :: t' := by
  rw [splitSections]
  by_cases h₁ : b.length < 3
  · simp only [if_pos h₁]
    constructor
    · intro h
      cases h
    · intro h
      omega
  · by_cases h₂ : b.length < declLen b
    · simp only [if_neg h₁, if_pos h₂]
      constructor
      · intro h
        cases h
      · intro h
        omega
    · cases h₃ : outputSectionOk (b.take (declLen b))
      · simp [h₁, h₂]
      · cases h₄ : splitSections k (b.drop (declLen b))
        · simp [h₁, h₂]
        · simp only [if_neg h₁, if_neg h₂, if_true, Option.some.injEq, true_and, exists_eq_left']
          exact ⟨fun h => ⟨by omega, by omega, h.symm⟩, fun h => h.2.2.symm⟩

end Sys2Proof.Machine
end

