-- ==== Sys2Proof/Laws/PerInstr.lean ====
section
/-! SUPPORT. Laws/PerInstr.lean: the statements made once for each constructor of Instr. -/

namespace Sys2Proof.Laws

/-- The header word an instruction is encoded to fits its row of the opcode table (30_encoding.md rule R93): every fixed bit is as
the row has it, whatever the operands. -/
def HeaderFitsRow.Statement (i : Instr) : Prop := i.row.fits (encode i).header = true

/-- Masking three appended fields masks each of them. -/
theorem append3_and {a b c : Nat} (x x' : BitVec a) (y y' : BitVec b) (z z' : BitVec c) :
    (x ++ y ++ z) &&& (x' ++ y' ++ z') = (x &&& x') ++ (y &&& y') ++ (z &&& z') := by
  rw [BitVec.and_append, BitVec.and_append]

/-- A header word fits a row when its three fields, each masked by the row's bits of that field, are the row's. -/
theorem headerWord_and (op mop : BitVec 4) (ch mch : Channel) (arg marg : BitVec 15) :
    headerWord op ch arg &&& headerWord mop mch marg = headerWord (op &&& mop) (ch &&& mch) (arg &&& marg) :=
  append3_and op mop ch mch arg marg

/-- Bit 14 of a FEED's ARG is 0 (rule R94). -/
theorem feedArg_and (n : Nat) (s p : Bool) (q : Counter) : feedArg n s p q &&& 0x4000#15 = 0#15 := by
  have hm : 0x4000#15 = 1#1 ++ 0#8 ++ 0#1 ++ 0#1 ++ 0#4 := by decide
  rw [hm]
  simp only [feedArg]
  rw [BitVec.and_append, BitVec.and_append, BitVec.and_append, BitVec.and_append]
  simp only [BitVec.and_zero, BitVec.zero_and]
  decide

/-- Bits 14:13 of a 13-bit length's ARG are 0 (rule R94). -/
theorem lengthArg_and (n : Nat) : lengthArg n &&& 0x6000#15 = 0#15 := by
  have hm : 0x6000#15 = 3#2 ++ 0#13 := by decide
  rw [hm]
  simp only [lengthArg]
  rw [BitVec.and_append]
  simp only [BitVec.and_zero, BitVec.zero_and]
  decide

/-- Bits 14:1 of PKT_CONFIG's ARG are 0 (rule R94). -/
theorem modeArg_and (m : PktMode) : (0#14 ++ BitVec.ofBool (bitOfMode m)) &&& 0x7FFE#15 = 0#15 := by
  cases m <;> decide

/-- A header word whose masked fields are those of the row's match fits the row. -/
theorem fits_of_masked {i : Instr} {op mop : BitVec 4} {ch mch : Channel} {arg marg : BitVec 15}
    (hh : (encode i).header = headerWord op ch arg) (hm : i.row.mask = headerWord mop mch marg)
    (hr : i.row.matchBits = headerWord (op &&& mop) (ch &&& mch) (arg &&& marg)) : HeaderFitsRow.Statement i := by
  simp only [HeaderFitsRow.Statement, OpcodeRow.fits, hh, hm, hr, headerWord_and, decide_true]

/-- A row whose mask takes OP, none of CH and the bits `marg` of ARG. -/
theorem fits_channel {i : Instr} {op : BitVec 4} {ch : Channel} {arg : BitVec 15} (marg : BitVec 15)
    (hh : (encode i).header = headerWord op ch arg) (hm : i.row.mask = headerWord 0xF#4 0#13 marg)
    (ha : arg &&& marg = 0#15) (hr : i.row.matchBits = headerWord (op &&& 0xF#4) 0#13 0#15) :
    HeaderFitsRow.Statement i :=
  fits_of_masked hh hm (by rw [hr, ha, BitVec.and_zero])

/-- A row whose mask takes OP, all of a CH that is 0, and the bits `marg` of ARG. -/
theorem fits_noChannel {i : Instr} {op : BitVec 4} {arg : BitVec 15} (marg : BitVec 15)
    (hh : (encode i).header = headerWord op 0#13 arg) (hm : i.row.mask = headerWord 0xF#4 0x1FFF#13 marg)
    (ha : arg &&& marg = 0#15) (hr : i.row.matchBits = headerWord (op &&& 0xF#4) 0#13 0#15) :
    HeaderFitsRow.Statement i :=
  fits_of_masked hh hm (by rw [hr, ha, BitVec.zero_and])

theorem HeaderFitsRow.feed (ch cc pusi scr payload) : HeaderFitsRow.Statement (.feed ch cc pusi scr payload) :=
  fits_channel 0x4000#15 rfl rfl (feedArg_and _ _ _ _) rfl

theorem HeaderFitsRow.dmxReset (ch) : HeaderFitsRow.Statement (.dmxReset ch) :=
  fits_channel 0x7FFF#15 rfl rfl (by decide) rfl

theorem HeaderFitsRow.dmxResetAll : HeaderFitsRow.Statement (.dmxResetAll) :=
  fits_noChannel 0x7FFF#15 rfl rfl (by decide) rfl

theorem HeaderFitsRow.crcCompute (data) : HeaderFitsRow.Statement (.crcCompute data) :=
  fits_noChannel 0x6000#15 rfl rfl (lengthArg_and _) rfl

theorem HeaderFitsRow.crcVerify (data) : HeaderFitsRow.Statement (.crcVerify data) :=
  fits_noChannel 0x6000#15 rfl rfl (lengthArg_and _) rfl

theorem HeaderFitsRow.pktLoad (ch data) : HeaderFitsRow.Statement (.pktLoad ch data) :=
  fits_channel 0x6000#15 rfl rfl (lengthArg_and _) rfl

theorem HeaderFitsRow.pktNext (ch) : HeaderFitsRow.Statement (.pktNext ch) :=
  fits_channel 0x7FFF#15 rfl rfl (by decide) rfl

theorem HeaderFitsRow.pktConfig (ch mode) : HeaderFitsRow.Statement (.pktConfig ch mode) :=
  fits_channel 0x7FFE#15 rfl rfl (modeArg_and _) rfl

theorem HeaderFitsRow.cycAdd (ch data) : HeaderFitsRow.Statement (.cycAdd ch data) :=
  fits_channel 0x7FFF#15 rfl rfl (by decide) rfl

theorem HeaderFitsRow.cycRemove (id) : HeaderFitsRow.Statement (.cycRemove id) :=
  fits_noChannel 0#15 rfl rfl BitVec.and_zero rfl

theorem HeaderFitsRow.cycReplace (id data) : HeaderFitsRow.Statement (.cycReplace id data) :=
  fits_noChannel 0#15 rfl rfl BitVec.and_zero rfl

theorem HeaderFitsRow.cycTick (ch) : HeaderFitsRow.Statement (.cycTick ch) :=
  fits_channel 0x7FFF#15 rfl rfl (by decide) rfl

end Sys2Proof.Laws
end

