-- ==== Sys2Proof/Laws/Reassembler.lean ====
section
/-! SUPPORT. Laws/Reassembler.lean: what the operations of FEED can do, one lemma each, and that `parseSections` is the loop of
41_reassembler.md rule R161. -/

namespace Sys2Proof.Machine

open Config

/-- The key of an aggregation determines its pair. -/
theorem aggKey_injective {t t' : BitVec 8} {x x' : BitVec 16} (h : aggKey t x = aggKey t' x') : t = t' ∧ x = x' := by
  have hx := x.isLt
  have hx' := x'.isLt
  unfold aggKey at h
  exact ⟨BitVec.eq_of_toNat_eq (by omega), BitVec.eq_of_toNat_eq (by omega)⟩

/-- What looking up an aggregation can do (rules R191 to R193 and R197). -/
theorem aggFor_cases {p : Params} {m : Keyed Agg} {k : Nat} {v : BitVec 5} {l : BitVec 8} :
    (∃ a, m.find k = some a ∧ a.version = v ∧ a.lastSn = l ∧ aggFor p m k v l = .ok a) ∨
    (∃ a, m.find k = some a ∧ ¬(a.version = v ∧ a.lastSn = l) ∧ aggFor p m k v l = .ok (Agg.fresh v l)) ∨
    (m.find k = none ∧ hasRoom p m.length = true ∧ aggFor p m k v l = .ok (Agg.fresh v l)) ∨
    (m.find k = none ∧ hasRoom p m.length = false ∧ aggFor p m k v l = .error .aggregationCapacity) := by
  unfold aggFor
  cases hf : m.find k with
  | none => cases hr : hasRoom p m.length <;> simp
  | some a =>
    by_cases h : a.version = v ∧ a.lastSn = l
    · exact .inl ⟨a, rfl, h.1, h.2, by simp [h.1, h.2]⟩
    · exact .inr (.inl ⟨a, rfl, h, by simp [h]⟩)

/-- What `aggregate` can do when it is not refused (rule R190): no slot for the section; a table completed; or the section
recorded. -/
theorem aggregate_cases {p : Params} {c : Channel} {r r' : Rx} {s : Bytes} (h : aggregate p c r s = .ok r') :
    (secLastSn s < secSn s ∧ r' = r.emit (.validationFailure c .badSectionNumber)) ∨
    ∃ old, ¬secLastSn s < secSn s ∧
      aggFor p r.chan.aggs (aggKey (secTableId s) (secExt s)) (secVersion s) (secLastSn s) = .ok old ∧
      (((old.record (secSn s) s).complete = true ∧
          r' = (r.emit (.tableCompleted c ((old.record (secSn s) s).table (secTableId s) (secExt s)))).withAggs
            (r.chan.aggs.erase (aggKey (secTableId s) (secExt s)))) ∨
        ((old.record (secSn s) s).complete = false ∧
          r' = r.withAggs (r.chan.aggs.insert (aggKey (secTableId s) (secExt s)) (old.record (secSn s) s)))) := by
  unfold aggregate at h
  by_cases hn : secLastSn s < secSn s
  · rw [if_pos hn] at h
    exact .inl ⟨hn, by cases h; rfl⟩
  · rw [if_neg hn] at h
    cases ha : aggFor p r.chan.aggs (aggKey (secTableId s) (secExt s)) (secVersion s) (secLastSn s) with
    | error e => simp [ha] at h
    | ok old =>
      simp only [ha] at h
      refine .inr ⟨old, hn, rfl, ?_⟩
      cases hc : (old.record (secSn s) s).complete
      · rw [hc] at h
        exact .inr ⟨rfl, by simpa using h.symm⟩
      · rw [hc] at h
        exact .inl ⟨rfl, by simpa using h.symm⟩

/-- What closing a section can do (rule R165). -/
theorem closeSection_cases {p : Params} {c : Channel} {r r' : Rx} {s : Bytes} (h : closeSection p c r s = .ok r') :
    (crcValid s = false ∧ r' = r.emit (.validationFailure c .crcMismatch)) ∨
    (crcValid s = true ∧ aggregate p c (r.emit (.sectionCompleted c s)) s = .ok r') := by
  unfold closeSection at h
  cases hv : crcValid s
  · rw [hv] at h
    exact .inl ⟨rfl, by simpa using h.symm⟩
  · rw [hv] at h
    exact .inr ⟨rfl, by simpa using h⟩

/-- What one byte can do (rule R164): a bad declared length; a section closed; or one byte more in the partial section. -/
theorem appendByte_cases {p : Params} {c : Channel} {r r' : Rx} {b : Byte} {o : AppendOutcome}
    (h : appendByte p c r b = .ok (r', o)) :
    (o = .bad ∧ (r.chan.buf ++ [b]).length = 3 ∧ maxSectionSize < declLen (r.chan.buf ++ [b]) ∧
      r' = (r.emit (.validationFailure c .sectionTooLong)).withBuf []) ∨
    (o = .bad ∧ (r.chan.buf ++ [b]).length = 3 ∧ declLen (r.chan.buf ++ [b]) < minSectionSize ∧
      r' = (r.emit (.validationFailure c .sectionTooShort)).withBuf []) ∨
    ((¬((r.chan.buf ++ [b]).length = 3 ∧ maxSectionSize < declLen (r.chan.buf ++ [b]))) ∧
      (¬((r.chan.buf ++ [b]).length = 3 ∧ declLen (r.chan.buf ++ [b]) < minSectionSize)) ∧
      ((o = .closed ∧ 3 ≤ (r.chan.buf ++ [b]).length ∧ (r.chan.buf ++ [b]).length = declLen (r.chan.buf ++ [b]) ∧
          closeSection p c (r.withBuf []) (r.chan.buf ++ [b]) = .ok r') ∨
        (o = .unfinished ∧
          ¬(3 ≤ (r.chan.buf ++ [b]).length ∧ (r.chan.buf ++ [b]).length = declLen (r.chan.buf ++ [b])) ∧
          r' = r.withBuf (r.chan.buf ++ [b])))) := by
  unfold appendByte at h
  by_cases h₁ : (r.chan.buf ++ [b]).length = 3 ∧ maxSectionSize < declLen (r.chan.buf ++ [b])
  · simp only [if_pos h₁] at h
    cases h
    exact .inl ⟨rfl, h₁.1, h₁.2, rfl⟩
  · by_cases h₂ : (r.chan.buf ++ [b]).length = 3 ∧ declLen (r.chan.buf ++ [b]) < minSectionSize
    · simp only [if_neg h₁, if_pos h₂] at h
      cases h
      exact .inr (.inl ⟨rfl, h₂.1, h₂.2, rfl⟩)
    · refine .inr (.inr ⟨h₁, h₂, ?_⟩)
      by_cases h₃ : 3 ≤ (r.chan.buf ++ [b]).length ∧ (r.chan.buf ++ [b]).length = declLen (r.chan.buf ++ [b])
      · simp only [if_neg h₁, if_neg h₂, if_pos h₃] at h
        cases hc : closeSection p c (r.withBuf []) (r.chan.buf ++ [b]) with
        | error e => simp [hc] at h
        | ok x =>
          simp only [hc] at h
          cases h
          exact .inl ⟨rfl, h₃.1, h₃.2, rfl⟩
      · simp only [if_neg h₁, if_neg h₂, if_neg h₃] at h
        cases h
        exact .inr ⟨rfl, h₃, rfl⟩

/-- `parseSections` is the loop of rule R161: at a section's first byte look for stuffing, else run `append` on the rest of the
packet, stop on BAD, and go on with the bytes it left. -/
theorem parseSections_eq_append (p : Params) (c : Channel) (r : Rx) (b : Byte) (rest : Bytes)
    (h : ¬(r.chan.buf = [] ∧ b = stuffByte)) :
    parseSections p c r (b :: rest) =
      match append p c r (b :: rest) with
      | .error e => .error e
      | .ok (r', _, .bad) => .ok r'
      | .ok (r', left, .closed) => parseSections p c r' left
      | .ok (r', _, .unfinished) => .ok r' := by
  induction rest generalizing r b with
  | nil =>
    simp only [parseSections, append, if_neg h]
    cases hb : appendByte p c r b with
    | error e => rfl
    | ok x =>
      obtain ⟨r', o⟩ := x
      cases o <;> rfl
  | cons b' rest ih =>
    rw [parseSections, append, if_neg h]
    cases hb : appendByte p c r b with
    | error e => rfl
    | ok x =>
      obtain ⟨r', o⟩ := x
      cases o with
      | bad => rfl
      | closed => rfl
      | unfinished =>
        have hbuf : r'.chan.buf ≠ [] := by
          rcases appendByte_cases hb with h' | h' | ⟨-, -, h' | ⟨-, -, rfl⟩⟩
          · simp at h'
          · simp at h'
          · simp at h'
          · simp
        exact ih r' b' fun hh => hbuf hh.1

/-- What the counter check leaves of an accepted packet's channel (rules R155, R157 and R158). -/
theorem takeCounter_cases (c : Channel) (rec : ChanRec) (cc : Counter) :
    ((∀ prev, rec.lastCc = some prev → cc = prev + 1) ∧
      takeCounter c rec cc = { chan := { rec with lastCc := some cc }, events := [] }) ∨
    ∃ prev, rec.lastCc = some prev ∧ cc ≠ prev + 1 ∧
      takeCounter c rec cc =
        { chan := { rec with lastCc := some cc, buf := [] }, events := [.discontinuity c (prev + 1) cc] } := by
  unfold takeCounter
  cases h : rec.lastCc with
  | none => exact .inl ⟨(fun _ hp => nomatch hp), rfl⟩
  | some prev =>
    by_cases hc : cc = prev + 1
    · exact .inl ⟨fun q hq => by cases hq; exact hc, by simp only [if_pos hc]⟩
    · exact .inr ⟨prev, rfl, hc, by simp only [if_neg hc]⟩

/-- Which of its five ways FEED's work on a channel record takes (rule R150). -/
theorem feedPacket_cases (p : Params) (c : Channel) (rec : ChanRec) (cc : Counter) (pusi scr : Bool) (pl : Bytes) :
    (scr = true ∧ feedPacket p c rec cc pusi scr pl =
      .ok { chan := { rec with lastCc := if p.scrambledUpdatesCc && !pl.isEmpty then some cc else rec.lastCc }
            events := [.scrambledSkipped c] }) ∨
    (scr = false ∧ (pl = [] ∨ rec.lastCc = some cc) ∧ feedPacket p c rec cc pusi scr pl = .ok ⟨rec, []⟩) ∨
    (scr = false ∧ pl ≠ [] ∧ rec.lastCc ≠ some cc ∧ pusi = true ∧
      feedPacket p c rec cc pusi scr pl = startPacket p c (takeCounter c rec cc) pl) ∨
    (scr = false ∧ pl ≠ [] ∧ rec.lastCc ≠ some cc ∧ pusi = false ∧
      feedPacket p c rec cc pusi scr pl = continuePacket p c (takeCounter c rec cc) pl) := by
  unfold feedPacket
  cases scr
  · by_cases hp : pl = []
    · exact .inr (.inl ⟨rfl, .inl hp, by simp [hp]⟩)
    · by_cases hc : rec.lastCc = some cc
      · exact .inr (.inl ⟨rfl, .inr hc, by simp [hp, hc]⟩)
      · cases pusi
        · exact .inr (.inr (.inr ⟨rfl, hp, hc, rfl, by simp [hp, hc]⟩))
        · exact .inr (.inr (.inl ⟨rfl, hp, hc, rfl, by simp [hp, hc]⟩))
  · exact .inl ⟨rfl, by simp⟩

/-- What FEED can do (rule R150): fail on the size; be refused; or leave one record on its channel and return the events. -/
theorem feedWith_cases (p : Params) (ch : Channel) (cc : Counter) (pusi scr : Bool) (pl : Bytes) (s : State) :
    (payloadMax < pl.length ∧ feedWith p ch cc pusi scr pl s = s.fail .errPacket) ∨
    (pl.length ≤ payloadMax ∧
      ((∃ e, feedPacket p ch ((s.dmx.chanAt ch).getD ChanRec.fresh) cc pusi scr pl = .error e ∧
          feedWith p ch cc pusi scr pl s = .refused e) ∨
        ∃ r, feedPacket p ch ((s.dmx.chanAt ch).getD ChanRec.fresh) cc pusi scr pl = .ok r ∧
          feedWith p ch cc pusi scr pl s =
            .next (({ s with dmx := s.dmx.setChan ch (some r.chan) } : State).reply ⟨.ok, none, r.events⟩))) := by
  unfold feedWith
  by_cases h : payloadMax < pl.length
  · exact .inl ⟨h, by rw [if_pos h]⟩
  · refine .inr ⟨by omega, ?_⟩
    rw [if_neg h]
    cases hf : feedPacket p ch ((s.dmx.chanAt ch).getD ChanRec.fresh) cc pusi scr pl with
    | error e => exact .inl ⟨e, rfl, rfl⟩
    | ok r => exact .inr ⟨r, rfl, rfl⟩

end Sys2Proof.Machine
end

