-- ==== Sys2Proof/Laws/Sections.lean ====
section
/-! SUPPORT. Laws/Sections.lean: the aggregator reads neither the partial section nor the events before it, and a list of sections is
handed to it part by part; and what `parseSections` does with whole sections back to back and with what ends a packet. -/

namespace Sys2Proof.Machine

open Config

/-- The aggregator does not read the partial section (42_demux.md rule R190). -/
theorem aggregate_withBuf (p : Params) (c : Channel) (r : Rx) (b s : Bytes) :
    aggregate p c (r.withBuf b) s = (aggregate p c r s).map fun r' => r'.withBuf b := by
  unfold aggregate
  by_cases hn : secLastSn s < secSn s
  · simp only [if_pos hn]
    rfl
  · simp only [if_neg hn, Rx.withBuf_aggs]
    cases aggFor p r.chan.aggs (aggKey (secTableId s) (secExt s)) (secVersion s) (secLastSn s) with
    | error e => rfl
    | ok old => cases hc : (old.record (secSn s) s).complete <;> simp only [hc] <;> rfl

/-- The events of a FEED so far only stand before those of the aggregator (00_scope.md rule R12). -/
theorem aggregate_events (p : Params) (c : Channel) (ch : ChanRec) (evs : List Event) (s : Bytes) :
    aggregate p c ⟨ch, evs⟩ s = (aggregate p c ⟨ch, []⟩ s).map fun r' => ⟨r'.chan, evs ++ r'.events⟩ := by
  unfold aggregate
  by_cases hn : secLastSn s < secSn s
  · simp only [if_pos hn]
    rfl
  · simp only [if_neg hn]
    cases aggFor p ch.aggs (aggKey (secTableId s) (secExt s)) (secVersion s) (secLastSn s) with
    | error e => rfl
    | ok old =>
      cases hc : (old.record (secSn s) s).complete <;>
        simp [hc, Except.map, Rx.withAggs, Rx.emit]

@[simp] theorem aggregateAll_nil (p : Params) (c : Channel) (r : Rx) : aggregateAll p c [] r = .ok r := rfl

theorem aggregateAll_cons (p : Params) (c : Channel) (x : Bytes) (xs : List Bytes) (r : Rx) :
    aggregateAll p c (x :: xs) r =
      match aggregate p c (r.emit (.sectionCompleted c x)) x with
      | .error e => .error e
      | .ok r' => aggregateAll p c xs r' := rfl

/-- Handing over two lists of sections is handing over the one and then the other. -/
theorem aggregateAll_append (p : Params) (c : Channel) (xs ys : List Bytes) (r : Rx) :
    aggregateAll p c (xs ++ ys) r =
      match aggregateAll p c xs r with
      | .error e => .error e
      | .ok r' => aggregateAll p c ys r' := by
  induction xs generalizing r with
  | nil => rfl
  | cons x xs ih =>
    simp only [List.cons_append, aggregateAll_cons]
    cases aggregate p c (r.emit (.sectionCompleted c x)) x with
    | error e => rfl
    | ok r' => exact ih r'

/-- A list of sections is handed over whatever the partial section is. -/
theorem aggregateAll_withBuf (p : Params) (c : Channel) (xs : List Bytes) (r : Rx) (b : Bytes) :
    aggregateAll p c xs (r.withBuf b) = (aggregateAll p c xs r).map fun r' => r'.withBuf b := by
  induction xs generalizing r with
  | nil => rfl
  | cons x xs ih =>
    simp only [aggregateAll_cons, Rx.withBuf_emit, aggregate_withBuf]
    cases aggregate p c (r.emit (.sectionCompleted c x)) x with
    | error e => rfl
    | ok r' => exact ih r'

/-- The aggregator keeps the partial section (42_demux.md rule R190). -/
theorem aggregate_buf {p : Params} {c : Channel} {r r' : Rx} {s : Bytes} (h : aggregate p c r s = .ok r') :
    r'.chan.buf = r.chan.buf := by
  rcases aggregate_cases h with ⟨-, rfl⟩ | ⟨old, -, -, ⟨-, rfl⟩ | ⟨-, rfl⟩⟩ <;> simp

/-- Closing a section keeps the partial section (rule R165: it is emptied before). -/
theorem closeSection_buf {p : Params} {c : Channel} {r r' : Rx} {s : Bytes} (h : closeSection p c r s = .ok r') :
    r'.chan.buf = r.chan.buf := by
  rcases closeSection_cases h with ⟨-, rfl⟩ | ⟨-, h⟩
  · simp
  · simpa using aggregate_buf h

@[simp] theorem closeAll_nil (p : Params) (c : Channel) (r : Rx) : closeAll p c [] r = .ok r := rfl

/-- The first section is closed, and then the others. -/
theorem closeAll_cons (p : Params) (c : Channel) (x : Bytes) (xs : List Bytes) (r : Rx) :
    closeAll p c (x :: xs) r =
      match closeSection p c r x with
      | .error e => .error e
      | .ok r' => closeAll p c xs r' := by
  cases hv : crcValid x
  · simp [closeAll, closeSection, hv]
  · cases ha : aggregate p c (r.emit (.sectionCompleted c x)) x <;> simp [closeAll, closeSection, hv, ha]

/-- Valid sections are reported and handed to the aggregator. -/
theorem closeAll_good (p : Params) (c : Channel) (xs : List Bytes) (r : Rx) (h : ∀ x ∈ xs, GoodSection x) :
    closeAll p c xs r = aggregateAll p c xs r := by
  induction xs generalizing r with
  | nil => rfl
  | cons x xs ih =>
    simp only [closeAll, aggregateAll, (h x (by simp)).valid, if_true]
    cases aggregate p c (r.emit (.sectionCompleted c x)) x with
    | error e => rfl
    | ok r' => exact ih r' fun y hy => h y (by simp [hy])

/-- The declared length is read from the first three bytes alone (rule R97). -/
theorem declLen_append {b z : Bytes} (h : 3 ≤ b.length) : declLen (b ++ z) = declLen b := by
  simp only [declLen, byteAt_append_left (show 1 < b.length by omega), byteAt_append_left (show 2 < b.length by omega)]

/-- What a partial section began with was one. -/
theorem GoodBuf.of_append {b z : Bytes} (h : GoodBuf (b ++ z)) : GoodBuf b where
  length_lt := by
    have := h.length_lt
    simp only [List.length_append] at this
    omega
  declared hb := by
    have := h.declared (by simp only [List.length_append]; omega)
    rw [declLen_append hb, List.length_append] at this
    omega
  not_stuffing hb := by
    have := h.not_stuffing (by simp [hb])
    rwa [byteAt_append_left (List.length_pos_iff.mpr hb)] at this

/-- A section without its last byte is a partial section. -/
theorem GoodBuf.of_section {y : Bytes} {b : Byte} (h : outputSectionOk (y ++ [b]) = true) : GoodBuf y := by
  obtain ⟨h₁, h₂, h₃, h₄⟩ := outputSectionOk_iff.mp h
  simp only [List.length_append, List.length_singleton] at h₁ h₂ h₃
  refine ⟨by omega, fun hy => ?_, fun hy => ?_⟩
  · rw [declLen_append hy] at h₃
    omega
  · rwa [byteAt_append_left (List.length_pos_iff.mpr hy)] at h₄

/-- A byte that leaves a partial section only joins it (rule R164). -/
theorem appendByte_unfinished (p : Params) (c : Channel) {r : Rx} {b : Byte} (h : GoodBuf (r.chan.buf ++ [b])) :
    appendByte p c r b = .ok (r.withBuf (r.chan.buf ++ [b]), .unfinished) := by
  have hd := h.declared
  simp only [appendByte]
  rw [if_neg (by omega), if_neg (by omega), if_neg (by omega)]

/-- The last byte of a section closes it (rules R164 and R165). -/
theorem appendByte_closed (p : Params) (c : Channel) {r : Rx} {b : Byte} (h : outputSectionOk (r.chan.buf ++ [b]) = true) :
    appendByte p c r b =
      match closeSection p c (r.withBuf []) (r.chan.buf ++ [b]) with
      | .error e => .error e
      | .ok r' => .ok (r', .closed) := by
  obtain ⟨h₁, h₂, h₃, -⟩ := outputSectionOk_iff.mp h
  unfold minSectionSize at h₁
  have g₁ : ¬((r.chan.buf ++ [b]).length = 3 ∧ maxSectionSize < declLen (r.chan.buf ++ [b])) := by omega
  have g₂ : ¬((r.chan.buf ++ [b]).length = 3 ∧ declLen (r.chan.buf ++ [b]) < minSectionSize) := by
    unfold minSectionSize
    omega
  have g₃ : 3 ≤ (r.chan.buf ++ [b]).length ∧ (r.chan.buf ++ [b]).length = declLen (r.chan.buf ++ [b]) := by omega
  cases hc : closeSection p c (r.withBuf []) (r.chan.buf ++ [b]) <;>
    simp only [appendByte, if_neg g₁, if_neg g₂, if_pos g₃, hc]

/-- Bytes that leave a partial section only join it (rules R161 and R164). -/
theorem parseSections_unfinished (p : Params) (c : Channel) (z rest : Bytes) (r : Rx) (h : GoodBuf (r.chan.buf ++ z)) :
    parseSections p c r (z ++ rest) = parseSections p c (r.withBuf (r.chan.buf ++ z)) rest := by
  induction z generalizing r with
  | nil => simp [Rx.withBuf]
  | cons b z ih =>
    have h' : GoodBuf (r.chan.buf ++ [b] ++ z) := by simpa using h
    have hs : ¬(r.chan.buf = [] ∧ b = stuffByte) := fun hh => by
      have := h'.of_append.not_stuffing (by simp)
      simp [hh.1, hh.2, byteAt] at this
    rw [List.cons_append, parseSections, if_neg hs, appendByte_unfinished p c h'.of_append]
    simpa using ih (r.withBuf (r.chan.buf ++ [b])) h'

/-- A whole section where one would begin is closed, and the parsing goes on behind it (rules R161, R164 and R165). -/
theorem parseSections_section (p : Params) (c : Channel) (r : Rx) (x rest : Bytes) (hr : r.chan.buf = [])
    (h : outputSectionOk x = true) :
    parseSections p c r (x ++ rest) =
      match closeSection p c r x with
      | .error e => .error e
      | .ok r' => parseSections p c r' rest := by
  have hx : x ≠ [] := by
    rintro rfl
    simp [outputSectionOk, minSectionSize] at h
  obtain ⟨y, b, rfl⟩ : ∃ y b, x = y ++ [b] := ⟨_, _, (List.dropLast_append_getLast hx).symm⟩
  have hy : ¬(y = [] ∧ b = stuffByte) := fun hh => by
    have := (outputSectionOk_iff.mp h).2.2.2
    simp [hh.1, hh.2, byteAt] at this
  rw [List.append_assoc, parseSections_unfinished p c y _ r (by simpa [hr] using GoodBuf.of_section h), hr,
    List.nil_append, List.singleton_append, parseSections, Rx.withBuf_buf, if_neg hy,
    appendByte_closed p c (by simpa using h), Rx.withBuf_buf, Rx.withBuf_withBuf, show r.withBuf [] = r by rw [← hr]; rfl]
  cases closeSection p c r (y ++ [b]) <;> rfl

/-- Whole sections back to back are closed in order, and the parsing goes on behind them (rule R161). -/
theorem parseSections_sections (p : Params) (c : Channel) (xs : List Bytes) (rest : Bytes) (r : Rx) (hr : r.chan.buf = [])
    (h : ∀ x ∈ xs, outputSectionOk x = true) :
    parseSections p c r (xs.flatten ++ rest) =
      match closeAll p c xs r with
      | .error e => .error e
      | .ok r' => parseSections p c r' rest := by
  induction xs generalizing r with
  | nil => rfl
  | cons x xs ih =>
    rw [List.flatten_cons, List.append_assoc, parseSections_section p c r x _ hr (h x (by simp)), closeAll_cons]
    cases hc : closeSection p c r x with
    | error e => rfl
    | ok r' => exact ih r' ((closeSection_buf hc).trans hr) fun y hy => h y (by simp [hy])

/-- Closing sections keeps the partial section empty. -/
theorem closeAll_buf {p : Params} {c : Channel} {xs : List Bytes} {r r' : Rx} (h : closeAll p c xs r = .ok r') :
    r'.chan.buf = r.chan.buf := by
  induction xs generalizing r with
  | nil => cases h; rfl
  | cons x xs ih =>
    rw [closeAll_cons] at h
    cases hc : closeSection p c r x with
    | error e => simp [hc] at h
    | ok r₁ => exact (ih (by simpa [hc] using h)).trans (closeSection_buf hc)

/-- The ways a packet ends behind its last whole section (rules R161, R162 and R164). -/
theorem parseSections_tail {p : Params} {c : Channel} {r : Rx} {rest y : Bytes} {evs : List Event} (hr : r.chan.buf = [])
    (h : PacketTail c rest y evs) :
    parseSections p c r rest = .ok ⟨{ r.chan with buf := y }, r.events ++ evs⟩ := by
  cases h with
  | unfinished _ hy =>
    have := parseSections_unfinished p c rest [] r (by simpa [hr] using hy)
    rw [List.append_nil] at this
    rw [this, hr]
    simp [parseSections, Rx.withBuf]
  | stuffing rest =>
    rw [parseSections, if_pos ⟨hr, rfl⟩, ← hr, List.append_nil]
  | badLength hd rest reason hb hs =>
    obtain ⟨hl, hb⟩ := hb
    obtain ⟨a, b, d, rfl⟩ := List.length_eq_three.mp hl
    have h₂ : GoodBuf (r.chan.buf ++ [a, b]) := by
      rw [hr]
      exact ⟨by simp [maxSectionSize], fun h => by simp at h, fun _ => hs⟩
    rw [show [a, b, d] ++ rest = [a, b] ++ (d :: rest) from rfl, parseSections_unfinished p c [a, b] _ r h₂, hr]
    rcases hb with ⟨rfl, hb⟩ | ⟨rfl, hb⟩
    · simp [parseSections, appendByte, hb, Rx.withBuf, Rx.emit]
    · have hb' : ¬maxSectionSize < declLen [a, b, d] := by
        unfold minSectionSize at hb
        unfold maxSectionSize
        omega
      simp [parseSections, appendByte, hb, hb', Rx.withBuf, Rx.emit]

/-- What the bytes from the pointer on can do (rule R161): whole sections are closed in order, and the packet ends behind them. -/
theorem parseSections_eq_closeThenEnd {p : Params} {c : Channel} {xs : List Bytes} {r : Rx} {rest y : Bytes} {evs : List Event}
    (hr : r.chan.buf = []) (h : ∀ x ∈ xs, outputSectionOk x = true) (ht : PacketTail c rest y evs) :
    parseSections p c r (xs.flatten ++ rest) = closeThenEnd p c xs y evs r := by
  rw [parseSections_sections p c xs rest r hr h, closeThenEnd]
  cases hc : closeAll p c xs r with
  | error e => rfl
  | ok r' => exact parseSections_tail ((closeAll_buf hc).trans hr) ht

end Sys2Proof.Machine
end

