-- ==== Sys2Proof/Machine/Wire.lean ====
section
/-! DEFINITION. Machine/Wire.lean: the on-wire packet layout that a host maps to and from packet records (30_encoding.md
section 4, informative: the TSE never sees these bytes, and no step of the machine uses this file). -/

namespace Sys2Proof.Machine

open Config

/-- The 188 wire bytes of a packet record that the TSE emits (rule R106). -/
def Packet.toWire (p : Packet) : Bytes :=
  [0x47#8, 0#1 ++ BitVec.ofBool p.pusi ++ 0#1 ++ p.channel.extractLsb' 8 5, p.channel.extractLsb' 0 8,
    0x1#4 ++ p.cc] ++ p.payload

/-- The payload of a wire packet by its adaptation_field_control (rule R105). -/
def wirePayload (w : Bytes) : Bytes :=
  match ((byteAt w 3).extractLsb' 4 2).toNat with
  | 1 => w.drop 4
  | 3 => w.drop (5 + (byteAt w 4).toNat)
  | _ => []

/-- The packet record of a wire packet (rules R104 and R105); `none` where the size is not 188 bytes, the host's hard
error. A packet whose transport_error_indicator is set is mapped like any other, which the spec leaves to the host: DESIGN CHOICE,
log 17. Byte 0 is not tested against the sync byte, of which the spec asks nothing here: DESIGN CHOICE, log 18. -/
def packetOfWire (w : Bytes) : Option Packet :=
  if w.length = packetSize then
    some
      { channel := (byteAt w 1).extractLsb' 0 5 ++ byteAt w 2
        cc := (byteAt w 3).extractLsb' 0 4
        pusi := (byteAt w 1).getLsbD 6
        scrambled := decide ((byteAt w 3).extractLsb' 6 2 ≠ 0#2)
        payload := wirePayload w }
  else none

end Sys2Proof.Machine
end

