-- ==== Sys2Proof/Laws/Wire.lean ====
section
/-! SUPPORT. Laws/Wire.lean: the host's two wire mappings agree (30_encoding.md rules R104 to R106). -/

namespace Sys2Proof.Machine

open Config

/-- A packet record of the kind the TSE emits is what a host reads back from its 188 wire bytes. -/
theorem packetOfWire_toWire {p : Packet} (hs : p.scrambled = false) (hp : p.payload.length = payloadMax) :
    packetOfWire p.toWire = some p := by
  obtain ⟨ch, cc, pusi, scr, payload⟩ := p
  simp only at hs hp
  subst hs
  have hl : (Packet.toWire ⟨ch, cc, pusi, false, payload⟩).length = packetSize := by simp [Packet.toWire, hp]
  have h3 : ∀ cc : Counter, (0x1#4 ++ cc : Byte).extractLsb' 4 2 = 1#2 := by decide
  have h3' : ∀ cc : Counter, (0x1#4 ++ cc : Byte).extractLsb' 6 2 = 0#2 := by decide
  have h0 : ∀ cc : Counter, (0x1#4 ++ cc : Byte).extractLsb' 0 4 = cc := by decide
  unfold packetOfWire
  rw [if_pos hl]
  simp only [Packet.toWire, wirePayload, byteAt, List.cons_append, List.nil_append, List.getD_cons_zero, List.getD_cons_succ,
    h3, h3', h0]
  simp only [Option.some.injEq, Packet.mk.injEq]
  refine ⟨?_, trivial, ?_, by simp, by simp⟩
  · ext i hi
    simp only [BitVec.getLsbD_append, BitVec.getLsbD_extractLsb',
      ← BitVec.getLsbD_eq_getElem]
    split
    · simp [*]
    · have : i - 8 < 5 := by omega
      simp only [this, Nat.zero_add, if_true, decide_true, Bool.true_and]
      congr 1
      omega
  · simp only [BitVec.getLsbD_append]
    cases pusi <;> simp

end Sys2Proof.Machine
end

