-- ==== Sys2Proof/Machine/Assembler.lean ====
section
/-! DEFINITION. Machine/Assembler.lean: the spec's assembler in its abstract syntax (30_encoding.md rules R109 and R110): it
fills the length fields and the table counts from the operands, and expands the one pseudo-instruction. Host side: no step
of the machine uses this file. -/

namespace Sys2Proof.Machine

/-- A line of the assembler (rules R109 and R110). The lines whose operands are a command's own are `core`. -/
inductive AsmLine where
  | core (i : Instr)
  /-- `CYC_ADD ch, interval, { … }`. -/
  | cycAdd (ch : Channel) (interval : BitVec 32) (table : List Bytes)
  /-- `CYC_REPLACE id, { … }`. -/
  | cycReplace (id : EntryId) (table : List Bytes)
  /-- `PKT_LOAD_TABLE ch, { … }`. -/
  | pktLoadTable (ch : Channel) (table : List Bytes)
deriving DecidableEq, Repr

/-- The instructions of a line (rules R94, R99 and R110). -/
def AsmLine.instrs : AsmLine → List Instr
  | .core i => [i]
  | .cycAdd ch interval t => [.cycAdd ch (cycAddOperand interval t)]
  | .cycReplace id t => [.cycReplace id (tableOperand t)]
  | .pktLoadTable ch t => t.map fun s => .pktLoad ch s

/-- The commands of a line (rule R109: the ARG length fields come from the operands). An operand too long for its length field, or
a table too long for its count, has the low bits of the number there: DESIGN CHOICE, log 20. -/
def AsmLine.commands (l : AsmLine) : List Command := l.instrs.map encode

/-- PKT_LOAD_TABLE as the host runs it: the expansion stops at the first command whose status is not OK, and the sections
loaded before it stay loaded (rule R110). A section of 8192 bytes or more, which no PKT_LOAD header word can carry, ends the expansion
with ERR_SECTION, as the shorter ones that are too long do: DESIGN CHOICE, log 20. -/
def runPktLoadTable (ch : Channel) : List Bytes → State → Host.Outcome State Fault Refusal
  | [], s => .next s
  | d :: rest, s =>
    match execPktLoad ch d s with
    | .next t => if t.status = some .ok then runPktLoadTable ch rest t else .next t
    | .fault f => .fault f
    | .refused r => .refused r

end Sys2Proof.Machine
end

