-- ==== Sys2Proof/Tests/Slice0.lean ====
section
/-! SUPPORT. Tests/Slice0.lean: decode tests on words written out from 30_encoding.md rule R93, one or two steps of each
instruction against the worked examples of the spec, and for each statement with hypotheses a concrete state and operands
that meet them all. Expected values are the spec's (95_test_vectors.md), not the model's. -/

namespace Sys2Proof.Tests

open Sys2Proof.Machine Sys2Proof.Config

-- One theorem after the other: the kernel evaluations below are many, and each would hold a thread.
set_option Elab.async false

/-- `n` bytes, written as one hex number. -/
def hx (n v : Nat) : Bytes := (List.range n).map fun j => BitVec.ofNat 8 (v >>> (8 * (n - 1 - j)))

/-- The state an outcome goes on in. -/
def after : Host.Outcome State Fault Refusal → Option State
  | .next t => some t
  | .fault _ => none
  | .refused _ => none

/-- What a command returned: status, value, events. -/
def reply (o : Host.Outcome State Fault Refusal) : Option Result := (after o).bind fun t => t.port.result

/-- The sections of 95_test_vectors.md section 0.1. -/
def PAT : Bytes := hx 16 0x00B00D0001C100000001F0002AB104B2
def S12 : Bytes := hx 12 0x43B0090000C10000614D39BC
def B0 : Bytes := hx 16 0x42B00D0005C30001B0B0B0B0EDB2C753
def B1 : Bytes := hx 16 0x42B00D0005C30101B1B1B1B1FDF72070
def C0 : Bytes := hx 16 0x42B00D0005C50000C0C0C0C00ED793C6
def E0 : Bytes := hx 16 0x43B00D0005C10001E0E0E0E010CCFC69
def BSN : Bytes := hx 16 0x47B00D0001C1020188888888B3EAADBF
def CA : Bytes := hx 16 0x40B00D0001C10000AAAAAAAAA4D0FBB1
def CB : Bytes := hx 16 0x41B00D0002C10000BBBBBBBBF2773202
def CB1 : Bytes := hx 16 0x41B00D0002C30000CCCCCCCC51822B68

/-- A state with the host about to issue one command. -/
def issuing (c : Command) : State := State.reset.issueFirst c

/-- A reset machine but for one DMX channel. -/
def onChannel (ch : Channel) (r : ChanRec) : State := { State.reset with dmx := { chan := [(ch.toNat, r)] } }

/-- A reset machine but for one channel's Packetizer. -/
def withPk (ch : Channel) (q : Packetizer) : State := { State.reset with enc := { Enc.reset with pk := [(ch.toNat, q)] } }

/-- The entry of R242's worked example, at id 0 on channel 0x50. -/
def entryCA : Entry := { ch := 0x50, interval := 5, table := [CA], nextDue := 0, state := .scheduled }

/-- The TSE of R242's worked example. -/
def withEntryCA : State := { State.reset with enc := { Enc.reset with entries := [(0, entryCA)], nextId := 1 } }

/-! ## Ill-formed terms, refused -/

theorem test_wellFormed_refuses_feed_256 : (Instr.feed 0 0 false false (List.replicate 256 0)).wellFormed = false := by
  decide +kernel
theorem test_wellFormed_refuses_crcCompute_8192 : (Instr.crcCompute (List.replicate 8192 0)).wellFormed = false := by
  decide +kernel
theorem test_wellFormed_refuses_crcVerify_8192 : (Instr.crcVerify (List.replicate 8192 0)).wellFormed = false := by
  decide +kernel
theorem test_wellFormed_refuses_pktLoad_8192 : (Instr.pktLoad 0 (List.replicate 8192 0)).wellFormed = false := by
  decide +kernel

/-! ## Decoding: words written out from rule R93's patterns -/

/-- `0001 0000100000000 0 00000001 1 1 0101`. -/
theorem test_decode_feed : decode ⟨0x10800075#32, [0xAB#8]⟩ = .ok (.feed 0x100 5 true true [0xAB#8]) := by decide
/-- `0001 1111111111111 0 00000000 1 1 1111`, T3. -/
theorem test_decode_feed_last_channel : decode ⟨0x1FFF803F#32, []⟩ = .ok (.feed 0x1FFF 15 true true []) := by decide
/-- `0010 0000000100001 000000000000000`, R199. -/
theorem test_decode_dmxReset : decode ⟨0x20108000#32, []⟩ = .ok (.dmxReset 0x21) := by decide
theorem test_decode_dmxResetAll : decode ⟨0x30000000#32, []⟩ = .ok .dmxResetAll := by decide
/-- R133. -/
theorem test_decode_crcCompute : decode ⟨0x40000009#32, hx 9 0x313233343536373839⟩ =
    .ok (.crcCompute (hx 9 0x313233343536373839)) := by decide
/-- R134. -/
theorem test_decode_crcVerify : decode ⟨0x50000010#32, PAT⟩ = .ok (.crcVerify PAT) := by decide
/-- R212. -/
theorem test_decode_pktLoad : decode ⟨0x60800010#32, PAT⟩ = .ok (.pktLoad 0x100 PAT) := by decide
/-- R214. -/
theorem test_decode_pktNext : decode ⟨0x70800000#32, []⟩ = .ok (.pktNext 0x100) := by decide
/-- P1 step 6, and T27 step 9. -/
theorem test_decode_pktConfig : decode ⟨0x80800001#32, []⟩ = .ok (.pktConfig 0x100 .signal) ∧
    decode ⟨0x80100000#32, []⟩ = .ok (.pktConfig 0x20 .stuff) := by decide
/-- R242. -/
theorem test_decode_cycAdd : decode ⟨0x90280000#32, hx 6 0x000000050000⟩ = .ok (.cycAdd 0x50 (hx 6 0x000000050000)) := by
  decide
/-- T32. -/
theorem test_decode_cycRemove : decode ⟨0xA0007FFF#32, []⟩ = .ok (.cycRemove 32767) := by decide
/-- R245. -/
theorem test_decode_cycReplace : decode ⟨0xB0000001#32, hx 2 0⟩ = .ok (.cycReplace 1 (hx 2 0)) := by decide
/-- R246. -/
theorem test_decode_cycTick : decode ⟨0xC0280000#32, []⟩ = .ok (.cycTick 0x50) := by decide
/-- The ILLEGAL words of T3. -/
theorem test_decode_illegal : [0x00000000#32, 0xD0000000#32, 0xE0000000#32, 0xF0000000#32, 0x10004000#32, 0x10086E50#32,
    0x20000001#32, 0x30008000#32, 0x30000001#32, 0x40008FFE#32, 0x60002000#32, 0x70000001#32, 0x80800002#32, 0x90000001#32,
    0xA0008000#32, 0xB0008000#32, 0xC0000001#32].map (fun w => decode ⟨w, []⟩) = List.replicate 17 (.error .illegal) := by
  decide +kernel
/-- R108. -/
theorem test_decode_operand_length : decode ⟨0x40000009#32, []⟩ = .error .operandLength := by decide
/-- The table's word of FEED with `n = 1`: the data byte stands in bits 39..32. -/
theorem test_decodeTableWord_feed : decodeTableWord 40 0xAB10800075 = some (.feed 0x100 5 true true [0xAB#8]) := by decide

/-! ## One step of each instruction -/

/-- P1 step 3. -/
theorem test_feed_pat : reply (feedWith Params.defaults 0x100 0 true false ([0#8] ++ PAT ++ stuffing 167) State.reset) =
    some ⟨.ok, none, [.sectionCompleted 0x100 PAT, .tableCompleted 0x100 ⟨0x00, 0x0001, 0, 0, [PAT]⟩]⟩ := by decide +kernel
/-- T22, reverse order in one packet. -/
theorem test_feed_reverse_order :
    reply (feedWith Params.defaults 0x10 0 true false ([0#8] ++ B1 ++ B0 ++ stuffing 151) State.reset) =
    some ⟨.ok, none, [.sectionCompleted 0x10 B1, .sectionCompleted 0x10 B0,
      .tableCompleted 0x10 ⟨0x42, 0x0005, 1, 1, [B0, B1]⟩]⟩ := by decide +kernel
/-- T23 step 3. -/
theorem test_dmxReset : (after (exec (.dmxReset 0x10) { State.reset with dmx := { chan :=
      [(0x10, ⟨some 0, PAT.take 9, []⟩), (0x11, ⟨some 0, [], []⟩)] } })).map (fun t => t.dmx) =
    some { chan := [(0x11, ⟨some 0, [], []⟩)] } := by decide
/-- T23 step 7. -/
theorem test_dmxResetAll : (after (exec .dmxResetAll (onChannel 0x11 ⟨some 0, [], []⟩))).map (fun t => t.dmx) =
    some Dmx.reset := by decide
/-- R133. -/
theorem test_crcCompute : reply (exec (.crcCompute (hx 9 0x313233343536373839)) State.reset) =
    some ⟨.ok, some (.crc 0x0376E6E7#32), []⟩ := by decide +kernel
/-- R134. -/
theorem test_crcVerify : reply (exec (.crcVerify PAT) State.reset) = some ⟨.ok, some (.verdict true), []⟩ ∧
    reply (exec (.crcVerify (hx 16 0x00B00D0001C100000000F0002AB104B2)) State.reset) =
      some ⟨.ok, some (.verdict false), []⟩ := by decide +kernel
/-- R212. -/
theorem test_pktLoad : (after (pktLoadWith Params.defaults 0x100 (hx 16 0x00B00D0001C100000001F00000000000) State.reset)).map
    (fun t => (t.enc.pkAt 0x100).queue) = some [PAT] := by decide +kernel
/-- R214. -/
theorem test_pktNext : reply (exec (.pktNext 0x100) (withPk 0x100 ⟨[PAT], 0, 0, .stuff⟩)) =
    some ⟨.ok, some (.packet ⟨0x100, 0, true, false, [0#8] ++ PAT ++ stuffing 167⟩), []⟩ := by decide +kernel
/-- T27 step 1. -/
theorem test_pktNext_stuffing : reply (exec (.pktNext 0x20) State.reset) =
    some ⟨.ok, some (.packet ⟨0x20, 15, false, false, stuffing 184⟩), []⟩ := by decide +kernel
/-- P1 step 6. -/
theorem test_pktConfig : (after (exec (.pktConfig 0x100 .signal) State.reset)).map (fun t => t.enc.pkAt 0x100) =
    some ⟨[], 0, 0, .signal⟩ := by decide
/-- R242. -/
theorem test_cycAdd : (after (cycAddWith Params.defaults 0x50 (hx 6 0x000000050001 ++ CA) State.reset)).map
    (fun t => (t.value, t.enc.entryAt 0, t.enc.nextId)) = some (some (.entryId 0), some entryCA, 1) := by decide +kernel
/-- T31, interval 0. -/
theorem test_cycAdd_interval_zero : reply (exec (.cycAdd 0x50 (hx 6 0x000000000001 ++ CA)) State.reset) =
    some ⟨.errInterval, none, []⟩ := by decide +kernel
/-- T32. -/
theorem test_cycRemove : (after (exec (.cycRemove 0) withEntryCA)).map (fun t => t.enc.entries) = some [] ∧
    reply (exec (.cycRemove 1) withEntryCA) = some ⟨.errNoEntry, none, []⟩ := by decide
/-- T33. -/
theorem test_cycReplace : (after (exec (.cycReplace 0 (hx 2 1 ++ CB)) withEntryCA)).map (fun t => t.enc.entryAt 0) =
    some (some { entryCA with table := [CB] }) ∧
    reply (exec (.cycReplace 1 (hx 2 0)) withEntryCA) = some ⟨.errNoEntry, none, []⟩ := by decide +kernel
/-- R246. -/
theorem test_cycTick : (after (exec (.cycTick 0x50) withEntryCA)).map (fun t => (t.value, t.enc.entryAt 0, t.enc.timeAt 0x50)) =
    some (some (.packet ⟨0x50, 0, true, false, [0#8] ++ CA ++ stuffing 167⟩), some { entryCA with nextDue := 5 }, 1) := by
  decide +kernel
/-- T35. -/
theorem test_cycTick_nothing_due : reply (exec (.cycTick 0x50) (withPk 0x50 ⟨[], 0, 0, .signal⟩)) =
    some ⟨.ok, some (.packet ⟨0x50, 15, false, false, stuffing 184⟩), []⟩ := by decide +kernel

/-- T3: a step answers an ILLEGAL word with its status. -/
theorem test_step_illegal : reply (step (issuing ⟨0x10086E50#32, []⟩)) = some ⟨.illegal, none, []⟩ := by decide
/-- A command runs as the first one after reset. -/
theorem test_step_withFetchWord : (after (step (State.reset.withFetchWord 32 0x80800001))).map (fun t => t.enc.pkAt 0x100) =
    some ⟨[], 0, 0, .signal⟩ := by decide

/-- The codes of 60_exceptions.md rules R272, R275 and R276. -/
theorem test_codes : [Status.ok, .illegal, .errPacket, .errSection, .errNoEntry, .errInterval, .errCapacity, .exhausted].map
      Status.code = [0, 1, 2, 3, 4, 5, 6, 7] ∧
    [Reason.crcMismatch, .lengthInconsistent, .sectionTooLong, .sectionTooShort, .badPointer, .badSectionNumber].map
      Reason.code = [1, 2, 3, 4, 5, 6] ∧
    (Event.discontinuity 7 1 2).kind = 4 ∧ (Event.scrambledSkipped 7).channel = 7 := by decide
/-- R110: the pseudo-instruction stops at the first section that is refused. -/
theorem test_pktLoadTable_commands : (AsmLine.pktLoadTable 0x100 [PAT, S12]).commands =
    [⟨0x60800010#32, PAT⟩, ⟨0x6080000C#32, S12⟩] := by decide
/-- R101's worked example, from the wire (R104 to R106). -/
theorem test_wire_header : (Packet.toWire ⟨0x100, 0, true, false, []⟩) = [0x47#8, 0x41#8, 0x00#8, 0x10#8] := by decide

/-- An outcome that goes on in a state with a decided property. -/
theorem goesOn {o : Host.Outcome State Fault Refusal} (q : State → Bool) (h : (after o).any q = true) :
    ∃ t, o = .next t ∧ q t = true := by
  cases o with
  | next t => exact ⟨t, rfl, h⟩
  | fault f => cases h
  | refused r => cases h

/-- Why an outcome is refused. -/
def refusalOf : Host.Outcome State Fault Refusal → Option Refusal
  | .next _ => none
  | .fault _ => none
  | .refused r => some r

theorem refusedBy {o : Host.Outcome State Fault Refusal} {r : Refusal} (h : refusalOf o = some r) : o = .refused r := by
  cases o with
  | next t => cases h
  | fault f => cases h
  | refused q =>
    cases h
    rfl

theorem goesOn' {o : Host.Outcome State Fault Refusal} (h : (after o).isSome = true) : ∃ t, o = .next t := by
  cases o with
  | next t => exact ⟨t, rfl⟩
  | fault f => cases h
  | refused r => cases h

/-! ## A state that meets the invariant, with every kind of state in use -/

/-- DMX channel 0x10 is in the middle of a section and of a table; channel 0x100 is sending entry 0; channel 0x50 has two entries
ready with one due time, and an idle Packetizer; channel 0x51 has an entry that is not due; channel 0x52 is in SIGNAL mode. -/
def world : State :=
  { dmx := { chan := [(0x10, { lastCc := some 0, buf := [0x42#8, 0xB1#8], aggs :=
      [(0x420005, { version := 1, lastSn := 1, slots := [some B0, none] })] })] }
    enc :=
      { pk := [(0x50, ⟨[], 0, 3, .stuff⟩), (0x52, ⟨[], 0, 0, .signal⟩), (0x100, ⟨[S12], 5, 1, .stuff⟩)]
        time := [(0x50, 7), (0x100, 1)]
        inflight := [(0x100, 0)]
        entries := [(0, ⟨0x100, 5, [S12], 5, .emitted⟩), (1, ⟨0x50, 5, [CA, CB], 7, .scheduled⟩),
          (2, ⟨0x50, 8, [CB], 7, .due⟩), (3, ⟨0x51, 1, [CA], 9, .scheduled⟩)]
        nextId := 4 }
    port := { inputs := [], result := none } }

/-- `world` with one entry only, so that it meets the invariant for every value MAX_ENTRIES may have. -/
def worldOne : State := { world with enc := { world.enc with entries := [(0, ⟨0x100, 5, [S12], 5, .emitted⟩)] } }

theorem goodSection_of {s : Bytes} (h : outputSectionOk s = true ∧ crcValid s = true) : GoodSection s := ⟨h.1, h.2⟩

theorem goodSection_PAT : GoodSection PAT := goodSection_of (by decide +kernel)
theorem goodSection_S12 : GoodSection S12 := goodSection_of (by decide +kernel)
theorem goodSection_B0 : GoodSection B0 := goodSection_of (by decide +kernel)
theorem goodSection_BSN : GoodSection BSN := goodSection_of (by decide +kernel)

/-- A partial section given by a decided check. -/
theorem goodBuf_of {b : Bytes} (h : b.length < maxSectionSize ∧
    (3 ≤ b.length → minSectionSize ≤ declLen b ∧ declLen b ≤ maxSectionSize ∧ b.length < declLen b) ∧
    (b ≠ [] → byteAt b 0 ≠ stuffByte)) : GoodBuf b := ⟨h.1, h.2.1, h.2.2⟩

theorem world_goodDmx {p : Params} (hp : p.InBounds) : GoodDmx p world.dmx where
  rising := by decide +kernel
  keys k r h := by
    simp only [world, List.mem_singleton, Prod.mk.injEq] at h
    rw [h.1]
    decide
  chans k r h := by
    simp only [world, List.mem_singleton, Prod.mk.injEq] at h
    obtain ⟨-, rfl⟩ := h
    refine ⟨goodBuf_of (by decide +kernel), by decide +kernel, fun k a h => ?_, fun n hn => hp.aggCapacity_pos n hn⟩
    simp only [List.mem_singleton, Prod.mk.injEq] at h
    obtain ⟨rfl, rfl⟩ := h
    refine ⟨by decide +kernel, by decide +kernel, fun n s hs => ?_⟩
    match n, hs with
    | 0, hs =>
      simp only [List.getElem?_cons_zero, Option.some.injEq] at hs
      subst hs
      exact ⟨goodSection_B0, by decide +kernel⟩
    | 1, hs => simp at hs
    | n + 2, hs => simp at hs

theorem world_goodPk {p : Params} (hp : p.InBounds) : ∀ k q, (k, q) ∈ world.enc.pk →
    k < channelCount ∧ q ≠ Packetizer.reset ∧ GoodPk p q := by
  intro k q h
  have hd := hp.pktQueueDepth_ge
  simp only [world, List.mem_cons, Prod.mk.injEq, List.not_mem_nil, or_false] at h
  rcases h with ⟨rfl, rfl⟩ | ⟨rfl, rfl⟩ | ⟨rfl, rfl⟩
  · exact ⟨by decide +kernel, by decide +kernel, by simp, by simp, by simp, by simp⟩
  · exact ⟨by decide +kernel, by decide +kernel, by simp, by simp, by simp, by simp⟩
  · refine ⟨by decide +kernel, by decide +kernel, ?_, by simp, ?_, ?_⟩
    · simp only [List.length_singleton]
      omega
    · intro s rest hs
      simp only [List.cons.injEq] at hs
      obtain ⟨rfl, -⟩ := hs
      decide +kernel
    · simpa using goodSection_S12

/-- An entry in flight on channel 0x100 alone. -/
theorem world_inflight (c : Channel) (i : Nat) : world.enc.inflightAt c = some i ↔ c = 0x100 ∧ i = 0 := by
  have h : (256 : Nat) = c.toNat ↔ c = 0x100 := by
    rw [eq_comm, show (256 : Nat) = (0x100 : Channel).toNat from rfl, BitVec.toNat_inj]
  simp only [Enc.inflightAt, world, Keyed.find, h]
  split <;> simp_all [eq_comm]

theorem world_goodEnc : GoodEnc Params.defaults world.enc where
  pk_rising := by decide +kernel
  pk_entries := world_goodPk defaults_inBounds
  time_rising := by decide +kernel
  time_entries k t h := by
    simp only [world, List.mem_cons, Prod.mk.injEq, List.not_mem_nil, or_false] at h
    rcases h with ⟨rfl, rfl⟩ | ⟨rfl, rfl⟩ <;> decide +kernel
  inflight_rising := by decide +kernel
  inflight_keys k i h := by
    simp only [world, List.mem_singleton, Prod.mk.injEq] at h
    rw [h.1]
    decide
  entries_rising := by decide +kernel
  entries i n h := by
    simp only [world, List.mem_cons, Prod.mk.injEq, List.not_mem_nil, or_false] at h
    rcases h with ⟨rfl, rfl⟩ | ⟨rfl, rfl⟩ | ⟨rfl, rfl⟩ | ⟨rfl, rfl⟩ <;>
      exact ⟨by decide +kernel, by decide +kernel, by decide +kernel, by decide +kernel, by decide +kernel⟩
  entries_count := by decide +kernel
  nextId_le := by decide +kernel
  emitted_iff i n h := by
    have hm := Keyed.mem_of_find h
    simp only [world, List.mem_cons, Prod.mk.injEq, List.not_mem_nil, or_false] at hm
    rw [world_inflight]
    rcases hm with ⟨rfl, rfl⟩ | ⟨rfl, rfl⟩ | ⟨rfl, rfl⟩ | ⟨rfl, rfl⟩ <;> decide +kernel
  inflight_live c i h := by
    obtain ⟨rfl, rfl⟩ := (world_inflight c i).1 h
    exact ⟨⟨_, rfl, rfl⟩, by decide +kernel⟩

theorem worldOne_inv : worldOne.Inv where
  dmx := world_goodDmx params_inBounds
  enc :=
    { pk_rising := by decide +kernel
      pk_entries := world_goodPk params_inBounds
      time_rising := by decide +kernel
      time_entries := world_goodEnc.time_entries
      inflight_rising := by decide +kernel
      inflight_keys := world_goodEnc.inflight_keys
      entries_rising := by decide +kernel
      entries := fun i n h => by
        simp only [worldOne, List.mem_singleton, Prod.mk.injEq] at h
        obtain ⟨rfl, rfl⟩ := h
        exact ⟨by decide +kernel, by decide +kernel, by decide +kernel, by decide +kernel, by decide +kernel⟩
      entries_count := params_inBounds.maxEntries_pos
      nextId_le := by decide +kernel
      emitted_iff := fun i n h => by
        have hm := Keyed.mem_of_find h
        simp only [worldOne, List.mem_singleton, Prod.mk.injEq] at hm
        obtain ⟨rfl, rfl⟩ := hm
        rw [show worldOne.enc.inflightAt = world.enc.inflightAt from rfl, world_inflight]
        decide +kernel
      inflight_live := fun c i h => by
        obtain ⟨rfl, rfl⟩ := (world_inflight c i).1 h
        exact ⟨⟨_, rfl, rfl⟩, by decide +kernel⟩ }

/-! ## A state and operands for the hypotheses of each statement, at the edge of their ranges -/

theorem witness_DecodeOfEncode : (Instr.feed 0x1FFF 15 true true (List.replicate 255 0)).wellFormed = true ∧
    (Instr.crcVerify (List.replicate 8191 0)).wellFormed = true := by decide +kernel

theorem witness_EncodeOfDecode : decode ⟨0xA0007FFF#32, []⟩ = .ok (.cycRemove 0x7FFF) := by decide +kernel

theorem witness_WordIsOpcodeExactlyByMask : decode ⟨0x30000000#32, []⟩ = .ok .dmxResetAll ∧
    decode ⟨0x30000001#32, []⟩ = .error .illegal ∧ (Instr.cycTick 0).row ∈ opcodeTable ∧
    (Instr.cycTick 0).row.fits 0xCFFF8000#32 = true := by decide +kernel

/-- One operand length that runs and one that does not, for each clause. -/
theorem witness_OperandLengthDecides :
    (∀ d, (issuing ⟨0x10000040#32, d⟩).port.inputs = [.command ⟨0x10000040#32, d⟩]) ∧
    (Instr.feed 0 0 false false []).row.fits 0x10000040#32 = true ∧ feedLength 0x10000040#32 = [0x00#8].length ∧
    feedLength 0x10000040#32 ≠ ([] : Bytes).length ∧ (Instr.crcCompute []).row.fits 0x40001FFF#32 = true ∧
    sectionLength 0x40001FFF#32 = 8191 ∧ (Instr.cycReplace 0 []).row.fits 0xB0007FFF#32 = true ∧
    (Instr.dmxReset 0).row.fits 0x2FFF8000#32 = true ∧ [0x00#8] ≠ [] :=
  ⟨fun _ => rfl, by decide +kernel⟩

/-- The least and the greatest count of a table operand, and one more. -/
theorem witness_TableOperandParsesExactly : parseTable (tableOperand [CB1]) = some [CB1] ∧
    parseTable (tableOperand (List.replicate 256 S12)) = some (List.replicate 256 S12) ∧
    parseTable (tableOperand (List.replicate 257 S12)) = none := by decide +kernel

theorem witness_StepRunsDecodedCommand :
    (issuing ⟨0x80800001#32, []⟩).port.inputs = .command ⟨0x80800001#32, []⟩ :: [] ∧
      decode ⟨0x80800001#32, []⟩ = .ok (.pktConfig 0x100 .signal) := by decide +kernel

theorem witness_IllegalWordFails : (issuing ⟨0x10004000#32, [0x00#8]⟩).port.inputs = [.command ⟨0x10004000#32, [0x00#8]⟩] ∧
    ∀ r ∈ opcodeTable, r.fits 0x10004000#32 = false :=
  ⟨rfl, by simp [opcodeTable, Instr.row, OpcodeRow.fits]⟩

theorem witness_ResetInputAndIdle : ({ world with port := ⟨[.reset], none⟩ } : State).port.inputs = .reset :: [] ∧
    world.port.inputs = [] := ⟨rfl, rfl⟩

theorem witness_StepKeepsUnitInvariants : (worldOne.issueFirst ⟨0xC0800000#32, []⟩).Inv ∧
    ∃ t, step (worldOne.issueFirst ⟨0xC0800000#32, []⟩) = .next t :=
  ⟨⟨worldOne_inv.dmx, worldOne_inv.enc⟩, goesOn' (by decide +kernel)⟩

theorem witness_FailedCommandChangesNothing : ∃ t,
    (world.issueFirst ⟨0xA0007FFF#32, []⟩).port.inputs = .command ⟨0xA0007FFF#32, []⟩ :: [] ∧
      step (world.issueFirst ⟨0xA0007FFF#32, []⟩) = .next t ∧ t.status = some .errNoEntry ∧
      Status.errNoEntry.isFailure = true := ⟨_, rfl, rfl, rfl, rfl⟩

/-- The clause of a status that is not OK, and that of an OK one with a value. -/
theorem witness_ResultsHaveTheirKinds : (∃ t, exec (.pktNext 0x52) world = .next t ∧ t.status = some .exhausted) ∧
    ∃ t, exec (.cycTick 0x50) world = .next t ∧ t.status = some .ok := by
  obtain ⟨t, ht, h⟩ := goesOn (o := exec (.cycTick 0x50) world) (fun t => t.status == some .ok) (by decide +kernel)
  exact ⟨⟨_, rfl, rfl⟩, t, ht, eq_of_beq h⟩

theorem witness_UnitsAreIsolated : (∃ t, exec (.dmxReset 0x10) world = .next t) ∧
    ({ State.reset with dmx := world.dmx } : State).dmx = world.dmx ∧ (Instr.dmxReset 0x10).unit ≠ .enc :=
  ⟨⟨_, rfl⟩, rfl, by decide +kernel⟩

theorem witness_CommandsToDifferentUnitsCommute : (Instr.dmxReset 0x10).unit ≠ (Instr.pktNext 0x100).unit ∧
    ∃ s₁ s₂, exec (.dmxReset 0x10) world = .next s₁ ∧ exec (.pktNext 0x100) s₁ = .next s₂ := ⟨by decide +kernel, _, _, rfl, rfl⟩

/-- A second aggregation with AGG_CAPACITY 1, the least the spec admits, in a full payload. -/
theorem witness_RefusesOnlyBeyondAggCapacity : ([0#8] ++ B0 ++ E0 ++ stuffing 151).length ≤ 184 ∧
    feedWith { Params.defaults with aggCapacity := some 1 } 0x10 0 true false ([0#8] ++ B0 ++ E0 ++ stuffing 151) State.reset =
        .refused .aggregationCapacity ∧
      aggregate { Params.defaults with aggCapacity := some 1 } 0x10
        ⟨⟨some 0, [], [(0x420005, ⟨1, 1, [some B0, none]⟩)]⟩, []⟩ E0 = .error .aggregationCapacity :=
  ⟨by decide +kernel, refusedBy (by decide +kernel), by decide +kernel⟩

theorem witness_CrcComputeReturnsChecksum : (List.replicate 4093 (0 : Byte)).length ≤ 4093 ∧
    4093 < (List.replicate 4094 (0 : Byte)).length := by simp only [List.length_replicate]; decide +kernel

theorem witness_CrcVerifyChecksResidue : 4 ≤ (List.replicate 4 (0 : Byte)).length ∧
    (List.replicate 4093 (0 : Byte)).length ≤ 4093 ∧ (List.replicate 3 (0 : Byte)).length < 4 ∧
    4093 < (List.replicate 4094 (0 : Byte)).length := by simp only [List.length_replicate]; decide +kernel

theorem witness_StampIsCrcValid : 12 ≤ (List.replicate 12 (0 : Byte)).length ∧ 7 + 4 < (List.replicate 12 (0 : Byte)).length := by
  decide

/-- The last bit of the last body byte of the shortest section. -/
theorem witness_SingleBitFlipIsCaught : 12 ≤ S12.length ∧ crcValid S12 = true ∧ 7 + 4 < S12.length ∧ 7 < 8 := by
  decide +kernel

theorem witness_FeedSizeError : 184 < (List.replicate 185 (0 : Byte)).length ∧ (List.replicate 184 (0 : Byte)).length ≤ 184 ∧
    ∃ t, exec (.feed 0x10 0 false true (List.replicate 184 0)) State.reset = .next t :=
  ⟨by decide +kernel, by decide +kernel, goesOn' (by decide +kernel)⟩

theorem witness_FeedCreatesRecord : (List.replicate 184 (0 : Byte)).length ≤ 184 ∧ State.reset.dmx.chanAt 0x10 = none ∧
    ∃ t, exec (.feed 0x10 0 false false (List.replicate 184 0)) State.reset = .next t :=
  ⟨by decide +kernel, by decide +kernel, goesOn' (by decide +kernel)⟩

theorem witness_FeedScrambledSkips : (List.replicate 184 (0 : Byte)).length ≤ 184 := by decide +kernel

theorem witness_FeedDuplicateIgnored : (List.replicate 184 (0 : Byte)).length ≤ 184 ∧ List.replicate 184 (0 : Byte) ≠ [] ∧
    (world.chanRec 0x10).lastCc = some 0 := by decide +kernel

/-- The counter two past the last one, on a packet that starts a section. -/
theorem witness_FeedDiscontinuityResynchronises : ([0#8] ++ PAT.take 4).length ≤ 184 ∧ ([0#8] ++ PAT.take 4) ≠ [] ∧
    (world.chanRec 0x10).lastCc = some 0 ∧ (2 : Counter) ≠ 0 ∧ (2 : Counter) ≠ 0 + 1 ∧
    ∃ t, exec (.feed 0x10 2 true false ([0#8] ++ PAT.take 4))
      { world with dmx := world.dmx.setChan 0x10 (some { world.chanRec 0x10 with lastCc := none, buf := [] }) } = .next t :=
  ⟨by decide +kernel, by decide +kernel, by decide +kernel, by decide +kernel, by decide +kernel, goesOn' (by decide +kernel)⟩

/-- A channel with a counter, at the counter's wrap. -/
def wrapping (b : Bytes) : State := onChannel 0x10 ⟨some 15, b, []⟩

theorem wrapping_continues (b : Bytes) : Continues ((wrapping b).chanRec 0x10) 0 := fun prev h => by
  have h' : some (15 : Counter) = some prev := h
  cases h'
  decide

theorem witness_FeedUnlocatedBytesDiscarded : (List.replicate 184 (0 : Byte)).length ≤ 184 ∧ List.replicate 184 (0 : Byte) ≠ [] ∧
    ((wrapping []).chanRec 0x10).buf = [] ∧ Continues ((wrapping []).chanRec 0x10) 0 :=
  ⟨by decide +kernel, by decide +kernel, rfl, wrapping_continues []⟩

/-- Two header bytes, then all but the last byte of the shortest section. -/
theorem witness_FeedExtendsPartialSection : ((S12.drop 2).take 9).length ≤ 184 ∧ (S12.drop 2).take 9 ≠ [] ∧
    ((wrapping (S12.take 2)).chanRec 0x10).buf ≠ [] ∧ Continues ((wrapping (S12.take 2)).chanRec 0x10) 0 ∧
    GoodBuf (((wrapping (S12.take 2)).chanRec 0x10).buf ++ (S12.drop 2).take 9) :=
  ⟨by decide +kernel, by decide +kernel, by decide +kernel, wrapping_continues _, goodBuf_of (by decide +kernel)⟩

/-- The three ways a packet ends, the first at both its ends: nothing, a section that lacks its last byte, stuffing before a section
(T13 (d)), and a declared length of 4094 (T10). -/
theorem witness_PacketTail (c : Channel) : PacketTail c [] [] [] ∧ PacketTail c (S12.take 11) (S12.take 11) [] ∧
    PacketTail c (0xFF#8 :: PAT) [] [] ∧
    PacketTail c ([0x42#8, 0xBF#8, 0xFB#8] ++ stuffing 136) [] [.validationFailure c .sectionTooLong] :=
  ⟨.unfinished _ (goodBuf_of (by decide +kernel)), .unfinished _ (goodBuf_of (by decide +kernel)), .stuffing _,
    .badLength _ _ _ ⟨rfl, .inl ⟨rfl, by decide +kernel⟩⟩ (by decide +kernel)⟩

/-- A section with a wrong code, in full payloads: completed by the last byte of the payload; by the last byte before the pointer, with
a good section at the pointer; and at the pointer, between two good sections, with a bad length behind them. -/
theorem witness_FeedRejectsBadChecksum : (Continues ((wrapping (S12.take 2)).chanRec 0x10) 0 ∧
      ((S12.set 11 0).drop 2).length ≤ 184 ∧ 10 ≤ ((S12.set 11 0).drop 2).length ∧
      GoodBuf ((wrapping (S12.take 2)).chanRec 0x10).buf ∧ ((wrapping (S12.take 2)).chanRec 0x10).buf ≠ [] ∧
      outputSectionOk (((wrapping (S12.take 2)).chanRec 0x10).buf ++ ((S12.set 11 0).drop 2).take 10) = true ∧
      crcValid (((wrapping (S12.take 2)).chanRec 0x10).buf ++ ((S12.set 11 0).drop 2).take 10) = false) ∧
    (((S12.set 11 0).drop 2).length + [PAT].flatten.length + (0xFF#8 :: stuffing 156).length ≤ 183 ∧
      (∀ x ∈ [PAT], outputSectionOk x = true) ∧ PacketTail 0x10 (0xFF#8 :: stuffing 156) [] []) ∧
    Continues ((wrapping []).chanRec 0x10) 0 ∧ ((wrapping []).chanRec 0x10).buf = [] ∧
    ([] : Bytes).length + [PAT, S12.set 11 0, B0].flatten.length + ([0x42#8, 0xBF#8, 0xFB#8] ++ stuffing 136).length ≤ 183 ∧
    (∀ x ∈ [PAT, S12.set 11 0, B0], outputSectionOk x = true) ∧ crcValid (S12.set 11 0) = false ∧
    PacketTail 0x10 ([0x42#8, 0xBF#8, 0xFB#8] ++ stuffing 136) [] [.validationFailure 0x10 .sectionTooLong] :=
  ⟨⟨wrapping_continues _, by decide +kernel, by decide +kernel, goodBuf_of (by decide +kernel), by decide +kernel,
      by decide +kernel, by decide +kernel⟩,
    ⟨by decide +kernel, by decide +kernel, .stuffing _⟩, wrapping_continues _, rfl, by decide +kernel, by decide +kernel,
    by decide +kernel, (witness_PacketTail 0x10).2.2.2⟩

/-- T16's section, one number past the last, completed with a byte of the payload left over; and for the clause of every FEED
that runs, a start packet with two sections (T22). -/
theorem witness_FeedRejectsBadSectionNumber : (BSN.drop 15 ++ [0xFF#8]).length ≤ 184 ∧ 1 ≤ (BSN.drop 15 ++ [0xFF#8]).length ∧
    GoodBuf ((wrapping (BSN.take 15)).chanRec 0x10).buf ∧ ((wrapping (BSN.take 15)).chanRec 0x10).buf ≠ [] ∧
    Continues ((wrapping (BSN.take 15)).chanRec 0x10) 0 ∧
    GoodSection (((wrapping (BSN.take 15)).chanRec 0x10).buf ++ (BSN.drop 15 ++ [0xFF#8]).take 1) ∧
    secLastSn (((wrapping (BSN.take 15)).chanRec 0x10).buf ++ (BSN.drop 15 ++ [0xFF#8]).take 1) <
      secSn (((wrapping (BSN.take 15)).chanRec 0x10).buf ++ (BSN.drop 15 ++ [0xFF#8]).take 1) ∧
    ([0#8] ++ B1 ++ B0 ++ stuffing 151).length ≤ 184 ∧
    ∃ t, feedWith Params.defaults 0x10 0 true false ([0#8] ++ B1 ++ B0 ++ stuffing 151) State.reset = .next t :=
  ⟨by decide +kernel, by decide +kernel, goodBuf_of (by decide +kernel), by decide +kernel, wrapping_continues _,
    goodSection_of (by decide +kernel), by decide +kernel, by decide +kernel, goesOn' (by decide +kernel)⟩

/-- The pointer just past the end of a full payload. -/
theorem witness_FeedBadPointer : (List.replicate 183 (0 : Byte)).length ≤ 183 ∧
    (List.replicate 183 (0 : Byte)).length ≤ (183 : Byte).toNat ∧ Continues ((wrapping [0x42#8]).chanRec 0x10) 0 :=
  ⟨by decide +kernel, by decide +kernel, wrapping_continues _⟩

/-- Pointer 0 with a partial section open, and a whole section at the pointer (T13 (h)); and a partial section that lacks its last
byte at the pointer, with a bad section and an open one behind it. -/
theorem witness_FeedLengthInconsistent :
    (([] : Bytes).length + [PAT].flatten.length + (0xFF#8 :: stuffing 166).length ≤ 183 ∧
      ((wrapping [0x42#8]).chanRec 0x10).buf ≠ [] ∧ Continues ((wrapping [0x42#8]).chanRec 0x10) 0 ∧
      GoodBuf (((wrapping [0x42#8]).chanRec 0x10).buf ++ []) ∧ (∀ x ∈ [PAT], outputSectionOk x = true) ∧
      PacketTail 0x10 (0xFF#8 :: stuffing 166) [] []) ∧
    ((S12.take 11).drop 1).length + [S12.set 11 0, PAT].flatten.length + (S12.take 11).length ≤ 183 ∧
    ((wrapping (S12.take 1)).chanRec 0x10).buf ≠ [] ∧ Continues ((wrapping (S12.take 1)).chanRec 0x10) 0 ∧
    GoodBuf (((wrapping (S12.take 1)).chanRec 0x10).buf ++ (S12.take 11).drop 1) ∧
    (∀ x ∈ [S12.set 11 0, PAT], outputSectionOk x = true) ∧ PacketTail 0x10 (S12.take 11) (S12.take 11) [] :=
  ⟨⟨by decide +kernel, by decide +kernel, wrapping_continues _, goodBuf_of (by decide +kernel), by decide +kernel, .stuffing _⟩,
    by decide +kernel, by decide +kernel, wrapping_continues _, goodBuf_of (by decide +kernel), by decide +kernel,
    (witness_PacketTail 0x10).2.1⟩

/-- The pointer at the last byte. -/
theorem witness_FeedStuffingAtPointer : (stuffing 183).length ≤ 183 ∧ (182 : Byte).toNat < (stuffing 183).length ∧
    byteAt (stuffing 183) (182 : Byte).toNat = stuffByte ∧ ((wrapping []).chanRec 0x10).buf = [] ∧
    Continues ((wrapping []).chanRec 0x10) 0 :=
  ⟨by decide +kernel, by decide +kernel, by decide +kernel, rfl, wrapping_continues _⟩

/-- Declared lengths 4094 and 11, in full payloads: from the pointer on, behind a section with a wrong code (T14's last row); with one
byte in the partial section; with two, and a section at the pointer. -/
theorem witness_FeedChecksDeclaredLength :
    (∀ b, Continues ((wrapping b).chanRec 0x10) 0 ∧ ((wrapping b).chanRec 0x10).buf = b) ∧
    (BadLength [0x42#8, 0xBF#8, 0xFB#8] .sectionTooLong ∧ BadLength [0x42#8, 0xB0#8, 0x08#8] .sectionTooShort) ∧
    (([] : Bytes).length + [S12.set 11 0].flatten.length + [0x42#8, 0xBF#8, 0xFB#8].length + (stuffing 168).length ≤ 183 ∧
      (∀ x ∈ [S12.set 11 0], outputSectionOk x = true) ∧ byteAt [0x42#8, 0xBF#8, 0xFB#8] 0 ≠ stuffByte) ∧
    BadLength ([0x42#8] ++ ([0xBF#8, 0xFB#8] ++ stuffing 182).take 2) .sectionTooLong ∧
    ([0xBF#8, 0xFB#8] ++ stuffing 182).length ≤ 184 ∧
    BadLength ([0x42#8, 0xB0#8] ++ [0x08#8].take 1) .sectionTooShort ∧
    [0x08#8].length + [PAT].flatten.length + (0xFF#8 :: stuffing 165).length ≤ 183 ∧
    (∀ x ∈ [PAT], outputSectionOk x = true) ∧ PacketTail 0x10 (0xFF#8 :: stuffing 165) [] [] :=
  ⟨fun b => ⟨wrapping_continues b, rfl⟩,
    ⟨⟨rfl, .inl ⟨rfl, by decide +kernel⟩⟩, ⟨rfl, .inr ⟨rfl, by decide +kernel⟩⟩⟩, by decide +kernel,
    ⟨rfl, .inl ⟨rfl, by decide +kernel⟩⟩, by decide +kernel, ⟨rfl, .inr ⟨rfl, by decide +kernel⟩⟩, by decide +kernel,
    by decide +kernel, .stuffing _⟩

/-- Full payloads: two sections and a third left open; a partial section completed by the last byte before the pointer, and a
section after it; and a table of one section. -/
theorem witness_FeedCompletesSingleSectionTable :
    (Continues ((wrapping []).chanRec 0x10) 0 ∧ ((wrapping []).chanRec 0x10).buf = [] ∧
      ((wrapping []).chanRec 0x10).aggs = []) ∧
    ((∀ x ∈ [PAT, B0], GoodSection x) ∧ GoodBuf (S12.take 11) ∧
      (hx 140 0).length + [PAT, B0].flatten.length + (S12.take 11).length + 0 ≤ 183) ∧
    (Continues ((wrapping (S12.take 2)).chanRec 0x10) 0 ∧ ((wrapping (S12.take 2)).chanRec 0x10).buf ≠ [] ∧
      GoodBuf ((wrapping (S12.take 2)).chanRec 0x10).buf ∧ 10 ≤ (S12.drop 2).length ∧
      GoodSection (((wrapping (S12.take 2)).chanRec 0x10).buf ++ (S12.drop 2).take 10) ∧
      (∀ x ∈ [PAT], GoodSection x) ∧ GoodBuf [] ∧
      (S12.drop 2).length + [PAT].flatten.length + ([] : Bytes).length + 157 ≤ 183) ∧
    ([] : Bytes).length + PAT.length + 167 ≤ 183 ∧ GoodSection PAT ∧ secSn PAT = 0 ∧ secLastSn PAT = 0 := by
  have hp : ∀ x ∈ [PAT], GoodSection x := by simpa only [List.mem_singleton, forall_eq] using goodSection_PAT
  have hb : ∀ x ∈ [PAT, B0], GoodSection x := by
    simp only [List.mem_cons, List.not_mem_nil, or_false, forall_eq_or_imp, forall_eq]
    exact ⟨goodSection_PAT, goodSection_B0⟩
  exact ⟨⟨wrapping_continues _, rfl, rfl⟩, ⟨hb, goodBuf_of (by decide +kernel), by decide +kernel⟩,
    ⟨wrapping_continues _, by decide +kernel, goodBuf_of (by decide +kernel), by decide +kernel,
      goodSection_of (by decide +kernel), hp, goodBuf_of (by decide +kernel), by decide +kernel⟩,
    by decide +kernel, goodSection_PAT, by decide +kernel, by decide +kernel⟩

/-- The section that completes the table of `world`: both kinds of event are emitted. -/
theorem witness_FeedReportsOnlyValidSections : GoodDmx params world.dmx ∧
    ∃ t, exec (.feed 0x10 1 true false ([0#8] ++ B1 ++ stuffing 167)) world = .next t ∧
      Event.sectionCompleted 0x10 B1 ∈ t.events ∧ Event.tableCompleted 0x10 ⟨0x42, 5, 1, 1, [B0, B1]⟩ ∈ t.events := by
  obtain ⟨t, ht, h⟩ := goesOn (o := exec (.feed 0x10 1 true false ([0#8] ++ B1 ++ stuffing 167)) world)
    (fun t => decide (Event.sectionCompleted 0x10 B1 ∈ t.events ∧
      Event.tableCompleted 0x10 ⟨0x42, 5, 1, 1, [B0, B1]⟩ ∈ t.events)) (by decide +kernel)
  exact ⟨world_goodDmx params_inBounds, t, ht, of_decide_eq_true h⟩

theorem witness_FeedRepeatedIsIdempotent :
    ∃ t, exec (.feed 0x10 1 true false ([0#8] ++ B1 ++ stuffing 167)) world = .next t :=
  goesOn' (by decide +kernel)

theorem witness_FeedChannelsAreIndependent :
    ({ world with enc := Enc.reset } : State).dmx.chanAt 0x10 = world.dmx.chanAt 0x10 ∧
      ∃ t, exec (.feed 0x10 1 true false ([0#8] ++ B1 ++ stuffing 167)) world = .next t :=
  ⟨rfl, goesOn' (by decide +kernel)⟩

/-- The last free place of a finite capacity; a change of last_section_number; and a table of one section that supersedes another
version (T20, step 2 of the multi-part reading). -/
theorem witness_AggregateStartsAfresh : secSn E0 ≤ secLastSn E0 ∧ secLastSn E0 ≠ 0 ∧
    Keyed.find [(0x420005, (⟨1, 1, [some B0, none]⟩ : Agg))] (aggKey (secTableId E0) (secExt E0)) = none ∧
    [(0x420005, (⟨1, 1, [some B0, none]⟩ : Agg))].length < 2 ∧
    Keyed.find [(0x420005, (⟨1, 2, [none, none, none]⟩ : Agg))] (aggKey (secTableId B0) (secExt B0)) =
      some ⟨1, 2, [none, none, none]⟩ ∧ (2 : BitVec 8) ≠ secLastSn B0 ∧
    secSn C0 ≤ secLastSn C0 ∧ secLastSn C0 = 0 ∧
    Keyed.find [(0x420005, (⟨1, 1, [some B0, none]⟩ : Agg))] (aggKey (secTableId C0) (secExt C0)) =
      some ⟨1, 1, [some B0, none]⟩ ∧ (1 : BitVec 5) ≠ secVersion C0 := by decide +kernel

/-- T22: another section for a filled slot. -/
theorem witness_AggregateRecordsSection : secSn B0 ≤ secLastSn B0 ∧
    Keyed.find [(0x420005, (⟨1, 1, [some B0, none]⟩ : Agg))] (aggKey (secTableId B0) (secExt B0)) =
      some ⟨1, 1, [some B0, none]⟩ ∧ (1 : BitVec 5) = secVersion B0 ∧ (1 : BitVec 8) = secLastSn B0 ∧
    [some B0, none].length = (secLastSn B0).toNat + 1 ∧ 1 ≠ (secSn B0).toNat ∧ [some B0, none][1]? = some none := by
  decide +kernel

theorem witness_AggregateCompletesTable : secSn B1 ≤ secLastSn B1 ∧
    Keyed.find [(0x420005, (⟨1, 1, [some B0, none]⟩ : Agg))] (aggKey (secTableId B1) (secExt B1)) =
      some ⟨1, 1, [some B0, none]⟩ ∧ (1 : BitVec 5) = secVersion B1 ∧ (1 : BitVec 8) = secLastSn B1 ∧
    [some B0, none].length = (secLastSn B1).toNat + 1 ∧
    ∀ n, n ≤ (secLastSn B1).toNat → n ≠ (secSn B1).toNat → ∃ y, [some B0, none][n]? = some (some y) := by
  refine ⟨by decide +kernel, by decide +kernel, by decide +kernel, by decide +kernel, by decide +kernel, fun n h h' => ?_⟩
  have h1 : (secLastSn B1).toNat = 1 := by decide +kernel
  have h2 : (secSn B1).toNat = 1 := by decide +kernel
  obtain rfl : n = 0 := by omega
  exact ⟨B0, rfl⟩

/-- The shortest section with room in the queue; the same with the queue full; and 11 bytes. -/
theorem witness_PktLoadQueuesStampedSection :
    (12 ≤ S12.length ∧ S12.length ≤ 4093 ∧ declLen S12 = S12.length ∧ byteAt S12 0 ≠ stuffByte) ∧
      (State.reset.enc.pkAt 0x20).queue.length ≠ params.pktQueueDepth ∧
      (Packetizer.queue ⟨List.replicate params.pktQueueDepth S12, 0, 0, .stuff⟩).length = params.pktQueueDepth ∧
      ¬12 ≤ (S12.take 11).length :=
  ⟨by decide +kernel, Nat.ne_of_lt (Nat.lt_of_lt_of_le (by decide +kernel) params_inBounds.pktQueueDepth_ge),
    by simp only [List.length_replicate], by decide +kernel⟩

theorem witness_PktNextOnEmptyQueue : (world.enc.pkAt 0x52).queue = [] ∧ (world.enc.pkAt 0x52).mode = .signal ∧
    GoodEnc Params.defaults world.enc ∧ (world.enc.pkAt 0x50).queue = [] ∧ (world.enc.pkAt 0x50).mode = .stuff :=
  ⟨rfl, rfl, world_goodEnc, rfl, rfl⟩

/-- The packet that empties the queue of an entry in flight. -/
theorem witness_PktNextBuildsPacket : GoodEnc Params.defaults world.enc ∧ (world.enc.pkAt 0x100).queue ≠ [] ∧
    ((world.enc.pkAt 0x100).build 0x100).2.queue = [] ∧ world.enc.inflightAt 0x100 = some 0 :=
  ⟨world_goodEnc, by decide +kernel, by decide +kernel, rfl⟩

theorem goodPk_of {q : Packetizer} (hd : q.queue.length ≤ 256) (he : q.queue ≠ []) (ho : q.off < (q.queue.headD []).length)
    (hs : ∀ s ∈ q.queue, GoodSection s) : GoodPk Params.defaults q where
  depth := hd
  off_empty h := absurd h he
  off_head s rest h := by simpa [h] using ho
  sections := hs

/-- A section beginning in the packet; the tail of one with another behind it; and a tail alone. -/
theorem witness_FlagMarksSectionStart :
    (GoodPk Params.defaults ⟨[B0, S12], 0, 0, .stuff⟩ ∧ ((⟨[B0, S12], 0, 0, .stuff⟩ : Packetizer).build 0x20).1.pusi = true) ∧
    (GoodPk Params.defaults ⟨[B0, S12], 15, 0, .stuff⟩ ∧
      ((⟨[B0, S12], 15, 0, .stuff⟩ : Packetizer).build 0x20).1.pusi = true) ∧
    (GoodPk Params.defaults ⟨[B0], 15, 0, .stuff⟩ ∧ ((⟨[B0], 15, 0, .stuff⟩ : Packetizer).build 0x20).1.pusi = false) := by
  have h2 : ∀ s ∈ [B0, S12], GoodSection s := by
    simp only [List.mem_cons, List.not_mem_nil, or_false, forall_eq_or_imp, forall_eq]
    exact ⟨goodSection_B0, goodSection_S12⟩
  have h1 : ∀ s ∈ [B0], GoodSection s := by simpa only [List.mem_singleton, forall_eq] using goodSection_B0
  exact ⟨⟨goodPk_of (by simp) (by simp) (by decide +kernel) h2, by decide +kernel⟩,
    ⟨goodPk_of (by simp) (by simp) (by decide +kernel) h2, by decide +kernel⟩,
    ⟨goodPk_of (by simp) (by simp) (by decide +kernel) h1, by decide +kernel⟩⟩

/-- A packet with the flag, and one without. -/
theorem witness_BuildSendsBytesInOrder :
    (GoodPk Params.defaults ⟨[B0, S12], 15, 0, .stuff⟩ ∧
      ((⟨[B0, S12], 15, 0, .stuff⟩ : Packetizer).build 0x20).1.pusi = true) ∧
    (GoodPk Params.defaults ⟨[B0], 15, 0, .stuff⟩ ∧ ((⟨[B0], 15, 0, .stuff⟩ : Packetizer).build 0x20).1.pusi = false) :=
  witness_FlagMarksSectionStart.2

/-- Sixteen sections, one of them over two packets, and a stuffing packet behind: 192 section bytes. -/
def sixteen : Enc := (withPk 0x20 ⟨(List.replicate 16 S12).map stamp, 0, 0, .stuff⟩).enc

theorem witness_PacketizedSectionsArriveInOrder : (∀ x ∈ List.replicate 16 S12, outputSectionOk x = true) ∧
    (sixteen.pkAt 0x20).queue = (List.replicate 16 S12).map stamp ∧ (sixteen.pkAt 0x20).off = 0 ∧
    ((sixteen.emitMany 0x20 3).2.pkAt 0x20).queue = [] ∧
    (feedAll Params.defaults 0x20 (sixteen.emitMany 0x20 3).1 ChanRec.fresh).map (fun x => x.1.length) = .ok 32 :=
  ⟨fun x hx => by rw [List.eq_of_mem_replicate hx]; decide +kernel, by decide +kernel, by decide +kernel, by decide +kernel,
    by decide +kernel⟩

/-- The longest table, the longest interval, the last id. -/
theorem witness_CycAddRegistersEntry : 1 ≤ (List.replicate 256 S12).length ∧ (List.replicate 256 S12).length ≤ 256 ∧
    (∀ x ∈ List.replicate 256 S12, outputSectionOk x = true) ∧ 0xFFFFFFFF#32 ≠ 0 ∧
    ({ Enc.reset with nextId := 32767 } : Enc).entries.length ≠ params.maxEntries ∧
    ({ Enc.reset with nextId := 32767 } : Enc).nextId ≠ 32768 :=
  ⟨by simp only [List.length_replicate]; decide, by simp only [List.length_replicate]; decide,
    fun x hx => by rw [List.eq_of_mem_replicate hx]; decide +kernel, by decide,
    Nat.ne_of_lt params_inBounds.maxEntries_pos, by decide⟩

/-- 5 bytes; interval 0; as many entries as MAX_ENTRIES, whatever it is; the ids used up. -/
theorem witness_CycAddFailuresInOrder : (hx 5 5).length < 6 ∧ parseTable ((hx 6 0).drop 4) = none ∧
    (6 ≤ (cycAddOperand 0 [CA]).length ∧ parseTable ((cycAddOperand 0 [CA]).drop 4) ≠ none ∧
      be32 (cycAddOperand 0 [CA]) 0 = 0) ∧
    (6 ≤ (cycAddOperand 5 [CA]).length ∧ parseTable ((cycAddOperand 5 [CA]).drop 4) ≠ none ∧
      be32 (cycAddOperand 5 [CA]) 0 ≠ 0) ∧
    ({ Enc.reset with entries := List.replicate params.maxEntries (0, entryCA) } : Enc).entries.length = params.maxEntries ∧
    ({ Enc.reset with nextId := 32768 } : Enc).nextId = 32768 :=
  ⟨by decide +kernel, by decide +kernel, by decide +kernel, by decide +kernel, by simp only [List.length_replicate], rfl⟩

/-- The entry in flight, and an id with no entry. -/
theorem witness_CycRemoveDeletesEntry : world.enc.entryAt (0 : EntryId).toNat = some ⟨0x100, 5, [S12], 5, .emitted⟩ ∧
    world.enc.inflightAt 0x100 = some (0 : EntryId).toNat ∧ world.enc.entryAt (0x7FFF : EntryId).toNat = none := by
  decide +kernel

theorem witness_CycReplaceSwapsTable : world.enc.entryAt (0 : EntryId).toNat = some ⟨0x100, 5, [S12], 5, .emitted⟩ ∧
    1 ≤ [CB].length ∧ [CB].length ≤ 256 ∧ (∀ x ∈ [CB], outputSectionOk x = true) ∧
    world.enc.entryAt (0x7FFF : EntryId).toNat = none ∧ parseTable (hx 2 0) = none :=
  ⟨by decide +kernel, by decide, by decide, by simp only [List.mem_singleton, forall_eq]; decide +kernel, by decide +kernel,
    by decide +kernel⟩

/-- Every entry of `world`. -/
theorem world_entries {j : Nat} {m : Entry} (h : world.enc.entryAt j = some m) :
    (j = 0 ∧ m = ⟨0x100, 5, [S12], 5, .emitted⟩) ∨ (j = 1 ∧ m = ⟨0x50, 5, [CA, CB], 7, .scheduled⟩) ∨
      (j = 2 ∧ m = ⟨0x50, 8, [CB], 7, .due⟩) ∨ (j = 3 ∧ m = ⟨0x51, 1, [CA], 9, .scheduled⟩) := by
  simpa only [world, List.mem_cons, Prod.mk.injEq, List.not_mem_nil, or_false] using Keyed.mem_of_find h

/-- Two ready entries with one due time, the tick's own: the lower id is selected. -/
theorem witness_CycTickSelectsEarliestDue : GoodEnc Params.defaults world.enc ∧ (world.enc.pkAt 0x50).queue = [] ∧
    world.enc.entryAt 1 = some ⟨0x50, 5, [CA, CB], 7, .scheduled⟩ ∧
    Ready ⟨0x50, 5, [CA, CB], 7, .scheduled⟩ (world.enc.timeAt 0x50) ∧
    (∀ j m, world.enc.entryAt j = some m → m.ch = 0x50 → Ready m (world.enc.timeAt 0x50) →
      7 < m.nextDue ∨ (7 = m.nextDue ∧ 1 ≤ j)) ∧
    Ready ⟨0x50, 8, [CB], 7, .due⟩ (world.enc.timeAt 0x50) := by
  refine ⟨world_goodEnc, rfl, rfl, .inr ⟨rfl, by decide⟩, fun j m h hc _ => ?_, .inl rfl⟩
  rcases world_entries h with ⟨rfl, rfl⟩ | ⟨rfl, rfl⟩ | ⟨rfl, rfl⟩ | ⟨rfl, rfl⟩
  · exact absurd hc (by decide)
  · exact .inr ⟨rfl, by decide⟩
  · exact .inr ⟨rfl, by decide⟩
  · exact absurd hc (by decide)

theorem witness_CycTickNothingDue : GoodEnc Params.defaults world.enc ∧ (world.enc.pkAt 0x51).queue = [] ∧
    ∀ j m, world.enc.entryAt j = some m → m.ch = 0x51 → ¬Ready m (world.enc.timeAt 0x51) := by
  refine ⟨world_goodEnc, rfl, fun j m h hc hr => ?_⟩
  rcases world_entries h with ⟨rfl, rfl⟩ | ⟨rfl, rfl⟩ | ⟨rfl, rfl⟩ | ⟨rfl, rfl⟩
  · exact absurd hc (by decide)
  · exact absurd hc (by decide)
  · exact absurd hc (by decide)
  · rcases hr with hr | ⟨-, hr⟩
    · cases hr
    · exact absurd hr (by decide)

/-- The tick that ends the emission of entry 0. -/
theorem witness_CycTickBusyQueue : GoodEnc Params.defaults world.enc ∧ (world.enc.pkAt 0x100).queue ≠ [] ∧
    ((world.enc.pkAt 0x100).build 0x100).2.queue = [] ∧ world.enc.inflightAt 0x100 = some 0 :=
  witness_PktNextBuildsPacket

/-- A tick that changes an entry, and the CYC_ADD that makes one. -/
theorem witness_EntriesChangeOnlyByTheirCommands : GoodEnc Params.defaults world.enc ∧
    (∃ t, exec (.cycTick 0x50) world = .next t ∧ t.enc.entryAt 1 = some ⟨0x50, 5, [CA, CB], 12, .scheduled⟩) ∧
    GoodEnc Params.defaults State.reset.enc ∧ State.reset.enc.entryAt 0 = none ∧
    ∃ t, exec (.cycAdd 0x50 (cycAddOperand 5 [CA])) State.reset = .next t ∧ t.enc.entryAt 0 ≠ none := by
  refine ⟨world_goodEnc, ?_, ?_, rfl, ?_⟩
  · obtain ⟨t, ht, h⟩ := goesOn (o := exec (.cycTick 0x50) world)
      (fun t => decide (t.enc.entryAt 1 = some ⟨0x50, 5, [CA, CB], 12, .scheduled⟩)) (by decide +kernel)
    exact ⟨t, ht, of_decide_eq_true h⟩
  · constructor <;> simp [State.reset, Enc.reset, Enc.entryAt, Enc.inflightAt]
  · have hp : parseTable ((cycAddOperand 5 [CA]).drop 4) ≠ none := by decide +kernel
    rcases cycAddWith_cases params 0x50 (cycAddOperand 5 [CA]) State.reset with
      ⟨h, -⟩ | ⟨t, -, -, ⟨h, -⟩ | ⟨-, h, -⟩ | ⟨-, -, h⟩⟩
    · exact absurd h (not_or.2 ⟨by decide +kernel, hp⟩)
    · exact absurd h (by decide +kernel)
    · rcases h with h | h
      · exact absurd h (Nat.ne_of_lt params_inBounds.maxEntries_pos)
      · exact absurd h (by decide)
    · exact ⟨_, h, by simp [State.reset, Enc.reset, Enc.entryAt, Enc.setEntry, Keyed.insert, Keyed.find]⟩

end Sys2Proof.Tests
end

section
/-! PROOFS. The step of one command, and the isolation of the units (00_scope.md rules R3 and R4). -/

namespace Sys2Proof.Machine

open Config

/-! ## One step of one command -/

theorem State.nextInput_of_cons {s : State} {i : HostInput} {rest : List HostInput} (h : s.port.inputs = i :: rest) :
    s.nextInput = some (i, { s with port := { s.port with inputs := rest } }) := by
  simp only [State.nextInput, h]

theorem step_of_decode_ok {s : State} {c : Command} {rest : List HostInput} {i : Instr}
    (h : s.port.inputs = .command c :: rest) (hd : decode c = .ok i) :
    step s = exec i { s with port := { s.port with inputs := rest } } := by
  simp only [step, State.nextInput_of_cons h, hd]

/-- Settles O7: the port gives the command, and the decoder its instruction. -/
theorem stepRunsDecodedCommand : Obligations.StepRunsDecodedCommand :=
  fun _ _ _ _ h hd => step_of_decode_ok h hd

/-! ## A unit's state among other units

Rule R3 as one equation, `exec_withUnitOf`: a command run where only its own unit is as in `s` ends as it ends in `s`, with
everything outside its unit where it was. That it reads no other unit and that it writes none are both read off from it. -/

/-- The state `o`, but with the unit `u` as it is in `s`. The CRC unit holds nothing (10_state.md rule R30). -/
def State.withUnitOf (o : State) (u : TseUnit) (s : State) : State :=
  match u with
  | .crc => o
  | .dmx => { o with dmx := s.dmx }
  | .enc => { o with enc := s.enc }

/-- The state `o` after a command to the unit `u` that ends as in `t`: that unit and the result are those of `t`. -/
def State.withOutcomeOf (o : State) (u : TseUnit) (t : State) : State :=
  { o.withUnitOf u t with port := { o.port with result := t.port.result } }

theorem State.withUnitOf_dmx (o s : State) : o.withUnitOf .dmx s = { o with dmx := s.dmx } := rfl
theorem State.withUnitOf_enc (o s : State) : o.withUnitOf .enc s = { o with enc := s.enc } := rfl

/-- The outcome with its next state, if there is one, changed by `f`. -/
def mapNext (f : State → State) : Host.Outcome State Fault Refusal → Host.Outcome State Fault Refusal
  | .next t => .next (f t)
  | .fault r => .fault r
  | .refused r => .refused r

@[simp] theorem mapNext_next (f : State → State) (t : State) : mapNext f (.next t) = .next (f t) := rfl

section
variable (o t : State) (u : TseUnit)

@[simp] theorem State.withOutcomeOf_inputs : (o.withOutcomeOf u t).port.inputs = o.port.inputs := rfl
@[simp] theorem State.withOutcomeOf_result : (o.withOutcomeOf u t).port.result = t.port.result := rfl
@[simp] theorem State.withOutcomeOf_dmx_self : (o.withOutcomeOf .dmx t).dmx = t.dmx := rfl
@[simp] theorem State.withOutcomeOf_enc_self : (o.withOutcomeOf .enc t).enc = t.enc := rfl

variable {u}

theorem State.withOutcomeOf_dmx_of_ne (h : u ≠ .dmx) : (o.withOutcomeOf u t).dmx = o.dmx := by
  cases u with
  | dmx => exact absurd rfl h
  | crc => rfl
  | enc => rfl

theorem State.withOutcomeOf_enc_of_ne (h : u ≠ .enc) : (o.withOutcomeOf u t).enc = o.enc := by
  cases u with
  | enc => exact absurd rfl h
  | crc => rfl
  | dmx => rfl

end

/-- A state that agrees with `s` on the unit stays as it is. -/
theorem State.withUnitOf_eq_self {o s : State} {u : TseUnit} (hdmx : u = .dmx → o.dmx = s.dmx)
    (henc : u = .enc → o.enc = s.enc) : o.withUnitOf u s = o := by
  cases u with
  | crc => rfl
  | dmx => simp only [withUnitOf, ← hdmx rfl]
  | enc => simp only [withUnitOf, ← henc rfl]

/-! ## Each meaning works on its own unit alone -/

section
variable (o s : State)

theorem execCrcCompute_withUnitOf (data : Bytes) :
    execCrcCompute data (o.withUnitOf .crc s) = mapNext (o.withOutcomeOf .crc) (execCrcCompute data s) := by
  unfold execCrcCompute
  split <;> rfl

theorem execCrcVerify_withUnitOf (data : Bytes) :
    execCrcVerify data (o.withUnitOf .crc s) = mapNext (o.withOutcomeOf .crc) (execCrcVerify data s) := by
  unfold execCrcVerify
  split <;> rfl

/-- FEED, its refusals included: it works on its channel's record in the DMX unit. -/
theorem feedWith_withUnitOf (p : Params) (ch : Channel) (cc : Counter) (pusi scr : Bool) (payload : Bytes) :
    feedWith p ch cc pusi scr payload (o.withUnitOf .dmx s) =
      mapNext (o.withOutcomeOf .dmx) (feedWith p ch cc pusi scr payload s) := by
  rw [State.withUnitOf_dmx]
  simp only [feedWith]
  split
  · rfl
  · cases feedPacket p ch ((s.dmx.chanAt ch).getD ChanRec.fresh) cc pusi scr payload with
    | error e => rfl
    | ok r => rfl

theorem pktLoadWith_withUnitOf (p : Params) (ch : Channel) (data : Bytes) :
    pktLoadWith p ch data (o.withUnitOf .enc s) = mapNext (o.withOutcomeOf .enc) (pktLoadWith p ch data s) := by
  rw [State.withUnitOf_enc]
  simp only [pktLoadWith]
  split
  · split <;> rfl
  · rfl

theorem execPktNext_withUnitOf (ch : Channel) :
    execPktNext ch (o.withUnitOf .enc s) = mapNext (o.withOutcomeOf .enc) (execPktNext ch s) := by
  rw [State.withUnitOf_enc]
  simp only [execPktNext]
  split <;> rfl

theorem cycAddWith_withUnitOf (p : Params) (ch : Channel) (data : Bytes) :
    cycAddWith p ch data (o.withUnitOf .enc s) = mapNext (o.withOutcomeOf .enc) (cycAddWith p ch data s) := by
  rw [State.withUnitOf_enc]
  simp only [cycAddWith]
  split
  · rfl
  · cases parseTable (data.drop 4) with
    | none => rfl
    | some t =>
      dsimp only
      split
      · rfl
      · split <;> rfl

theorem execCycRemove_withUnitOf (id : EntryId) :
    execCycRemove id (o.withUnitOf .enc s) = mapNext (o.withOutcomeOf .enc) (execCycRemove id s) := by
  rw [State.withUnitOf_enc]
  simp only [execCycRemove]
  cases s.enc.entryAt id.toNat with
  | none => rfl
  | some n => rfl

theorem execCycReplace_withUnitOf (id : EntryId) (data : Bytes) :
    execCycReplace id data (o.withUnitOf .enc s) = mapNext (o.withOutcomeOf .enc) (execCycReplace id data s) := by
  rw [State.withUnitOf_enc]
  simp only [execCycReplace]
  cases s.enc.entryAt id.toNat with
  | none => rfl
  | some n =>
    cases parseTable data with
    | none => rfl
    | some t => rfl

end

/-- Rule R3 for every command: run where its own unit is as in `s` and all else is as in `o`, it ends as it does in `s`, and all
else stays as in `o`. The commands with one outcome only (DMX_RESET, DMX_RESET_ALL, PKT_CONFIG, CYC_TICK) are so by
definition. -/
theorem exec_withUnitOf (i : Instr) (o s : State) :
    exec i (o.withUnitOf i.unit s) = mapNext (o.withOutcomeOf i.unit) (exec i s) := by
  cases i with
  | feed ch cc pusi scr payload => exact feedWith_withUnitOf o s _ ch cc pusi scr payload
  | dmxReset ch => rfl
  | dmxResetAll => rfl
  | crcCompute data => exact execCrcCompute_withUnitOf o s data
  | crcVerify data => exact execCrcVerify_withUnitOf o s data
  | pktLoad ch data => exact pktLoadWith_withUnitOf o s _ ch data
  | pktNext ch => exact execPktNext_withUnitOf o s ch
  | pktConfig ch mode => rfl
  | cycAdd ch data => exact cycAddWith_withUnitOf o s _ ch data
  | cycRemove id => exact execCycRemove_withUnitOf o s id
  | cycReplace id data => exact execCycReplace_withUnitOf o s id data
  | cycTick ch => rfl

/-- A command that runs in `s` runs in every state that agrees with `s` on its unit, with the same outcome. -/
theorem exec_next_of_sameUnit {i : Instr} {s t : State} (h : exec i s = .next t) {o : State}
    (hdmx : i.unit = .dmx → o.dmx = s.dmx) (henc : i.unit = .enc → o.enc = s.enc) :
    exec i o = .next (o.withOutcomeOf i.unit t) :=
  calc exec i o = exec i (o.withUnitOf i.unit s) := by rw [State.withUnitOf_eq_self hdmx henc]
    _ = mapNext (o.withOutcomeOf i.unit) (exec i s) := exec_withUnitOf i o s
    _ = .next (o.withOutcomeOf i.unit t) := by rw [h, mapNext_next]

/-- A command changes nothing but its own unit and the last result. -/
theorem exec_next_eq_withOutcomeOf {i : Instr} {s t : State} (h : exec i s = .next t) : t = s.withOutcomeOf i.unit t :=
  Host.Outcome.next.inj (h.symm.trans (exec_next_of_sameUnit h (fun _ => rfl) (fun _ => rfl)))

/-- Settles O15. Written: the command ends as `s` with its own unit and result replaced. Read: from a state that agrees with `s` on
its unit it ends as that state with the same replacement. -/
theorem unitsAreIsolated : Obligations.UnitsAreIsolated := by
  intro i s s' t h
  have hframe : t = s.withOutcomeOf i.unit t := exec_next_eq_withOutcomeOf h
  refine ⟨fun hu => ?dmxFrame, fun hu => ?encFrame, ?inputsFrame, fun hdmx henc => ?sameOutcome⟩
  case dmxFrame => exact (congrArg State.dmx hframe).trans (State.withOutcomeOf_dmx_of_ne s t hu)
  case encFrame => exact (congrArg State.enc hframe).trans (State.withOutcomeOf_enc_of_ne s t hu)
  case inputsFrame => exact congrArg (fun t => t.port.inputs) hframe
  case sameOutcome =>
    refine ⟨s'.withOutcomeOf i.unit t, exec_next_of_sameUnit h hdmx henc, rfl, fun hu => ?_, fun hu => ?_⟩
    · rw [hu, State.withOutcomeOf_dmx_self]
    · rw [hu, State.withOutcomeOf_enc_self]

end Sys2Proof.Machine
end

section
/-! PROOFS. The invariant of the DMX unit (10_state.md rules R34 to R38) through the parts of a FEED: the partial section, the
aggregations, and the channel record that holds both. -/

namespace Sys2Proof.Machine

open Config

/-! ## A partial section that takes one byte more (41_reassembler.md rule R164) -/

theorem GoodBuf.nil : GoodBuf [] where
  length_lt := by decide
  declared h := by simp at h
  not_stuffing h := absurd rfl h

/-- A partial section and one byte more do not begin with stuffing, if the first byte of all is none (rule R162). -/
theorem GoodBuf.snoc_not_stuffing {y : Bytes} {b : Byte} (h : GoodBuf y) (hb : y = [] → b ≠ stuffByte) :
    byteAt (y ++ [b]) 0 ≠ stuffByte := by
  by_cases hy : y = []
  · simpa [hy, byteAt] using hb hy
  · rw [byteAt_append_left (List.length_pos_iff.mpr hy)]
    exact h.not_stuffing hy

/-- The declared length of a partial section and one byte more is in bounds and not passed, if it is not refused when the third
byte arrives. -/
theorem GoodBuf.snoc_declared {y : Bytes} {b : Byte} (h : GoodBuf y)
    (hlong : ¬((y ++ [b]).length = 3 ∧ maxSectionSize < declLen (y ++ [b])))
    (hshort : ¬((y ++ [b]).length = 3 ∧ declLen (y ++ [b]) < minSectionSize)) (h3 : 3 ≤ (y ++ [b]).length) :
    minSectionSize ≤ declLen (y ++ [b]) ∧ declLen (y ++ [b]) ≤ maxSectionSize ∧
      (y ++ [b]).length ≤ declLen (y ++ [b]) := by
  have hlen : (y ++ [b]).length = y.length + 1 := by simp
  by_cases hy : 3 ≤ y.length
  · have := h.declared hy
    rw [declLen_append hy]
    omega
  · have := three_le_declLen (y ++ [b])
    omega

/-- A partial section and one byte more is one, when its length is not yet the declared one. -/
theorem GoodBuf.snoc {y : Bytes} {b : Byte} (h : GoodBuf y) (hb : y = [] → b ≠ stuffByte)
    (hlong : ¬((y ++ [b]).length = 3 ∧ maxSectionSize < declLen (y ++ [b])))
    (hshort : ¬((y ++ [b]).length = 3 ∧ declLen (y ++ [b]) < minSectionSize))
    (hopen : ¬(3 ≤ (y ++ [b]).length ∧ (y ++ [b]).length = declLen (y ++ [b]))) : GoodBuf (y ++ [b]) where
  length_lt := by
    by_cases h3 : 3 ≤ (y ++ [b]).length
    · have := h.snoc_declared hlong hshort h3
      omega
    · unfold maxSectionSize
      omega
  declared h3 := by
    have := h.snoc_declared hlong hshort h3
    omega
  not_stuffing _ := h.snoc_not_stuffing hb

/-- A partial section and one byte more is a section of the right shape, when its length is the declared one (rule R165). -/
theorem GoodBuf.snoc_outputSectionOk {y : Bytes} {b : Byte} (h : GoodBuf y) (hb : y = [] → b ≠ stuffByte)
    (hlong : ¬((y ++ [b]).length = 3 ∧ maxSectionSize < declLen (y ++ [b])))
    (hshort : ¬((y ++ [b]).length = 3 ∧ declLen (y ++ [b]) < minSectionSize)) (h3 : 3 ≤ (y ++ [b]).length)
    (hclosed : (y ++ [b]).length = declLen (y ++ [b])) : outputSectionOk (y ++ [b]) = true := by
  have := h.snoc_declared hlong hshort h3
  exact outputSectionOk_iff.mpr ⟨by omega, by omega, hclosed.symm, h.snoc_not_stuffing hb⟩

/-! ## Aggregations (42_demux.md rules R190 to R197) -/

/-- What an aggregation must be before the section it is looked up for is recorded: all of `GoodAgg` but for the empty slot. -/
structure GoodAggBefore (k : Nat) (v : BitVec 5) (l : BitVec 8) (a : Agg) : Prop where
  version : a.version = v
  lastSn : a.lastSn = l
  slot_count : a.slots.length = a.lastSn.toNat + 1
  recorded : ∀ n s, a.slots[n]? = some (some s) →
    GoodSection s ∧ aggKey (secTableId s) (secExt s) = k ∧ secVersion s = a.version ∧ secLastSn s = a.lastSn ∧
      (secSn s).toNat = n

/-- A fresh aggregation has its slots, and none of them holds a section. -/
theorem GoodAggBefore.fresh (k : Nat) (v : BitVec 5) (l : BitVec 8) : GoodAggBefore k v l (Agg.fresh v l) where
  version := rfl
  lastSn := rfl
  slot_count := by simp
  recorded n s h := by simp [List.getElem?_replicate] at h

/-- The aggregation that a section is looked up for is fit to record it. -/
theorem goodAggBefore_of_aggFor {p : Params} {m : Keyed Agg} {k : Nat} {v : BitVec 5} {l : BitVec 8} {a : Agg}
    (hm : ∀ k a, (k, a) ∈ m → GoodAgg k a) (h : aggFor p m k v l = .ok a) : GoodAggBefore k v l a := by
  rcases aggFor_cases (p := p) (m := m) (k := k) (v := v) (l := l) with
    ⟨old, hf, hv, hl, ho⟩ | ⟨_, _, _, ho⟩ | ⟨_, _, ho⟩ | ⟨_, _, ho⟩
  · obtain rfl := Except.ok.inj (ho.symm.trans h)
    have hgood := hm k old (Keyed.mem_of_find hf)
    exact ⟨hv, hl, hgood.slot_count, hgood.recorded⟩
  · obtain rfl := Except.ok.inj (ho.symm.trans h)
    exact .fresh k v l
  · obtain rfl := Except.ok.inj (ho.symm.trans h)
    exact .fresh k v l
  · cases ho.symm.trans h

/-- Recording a section in the aggregation it is looked up for leaves a good one, unless that completes it (rules R194 and
R195). -/
theorem GoodAggBefore.record {k : Nat} {s : Bytes} {a : Agg}
    (h : GoodAggBefore k (secVersion s) (secLastSn s) a) (hs : GoodSection s) (hk : aggKey (secTableId s) (secExt s) = k)
    (hopen : (a.record (secSn s) s).complete = false) : GoodAgg k (a.record (secSn s) s) where
  slot_count := by simp [h.slot_count]
  incomplete := by
    obtain ⟨o, ho, hnone⟩ := List.all_eq_false.mp hopen
    cases o with
    | none => exact ho
    | some x => simp at hnone
  recorded n x hx := by
    rw [Agg.record_slots, List.getElem?_set] at hx
    split at hx
    next hn =>
      split at hx
      · obtain rfl : s = x := by simpa using hx
        exact ⟨hs, hk, h.version.symm, h.lastSn.symm, hn⟩
      · simp at hx
    next => exact h.recorded n x hx

/-- Writing the aggregation of a section keeps their number within AGG_CAPACITY (rule R197). -/
theorem length_insert_le_of_aggFor {p : Params} {m : Keyed Agg} {k n : Nat} {v : BitVec 5} {l : BitVec 8} {a : Agg}
    (hm : m.Rising) (hroom : m.length ≤ n) (hn : p.aggCapacity = some n) (h : aggFor p m k v l = .ok a) (b : Agg) :
    (m.insert k b).length ≤ n := by
  have hfound : ∀ old, m.find k = some old → (m.insert k b).length ≤ n := fun old hf =>
    (Keyed.length_insert_of_find hm hf b).le.trans hroom
  rcases aggFor_cases (p := p) (m := m) (k := k) (v := v) (l := l) with
    ⟨old, hf, -⟩ | ⟨old, hf, -⟩ | ⟨-, hr, -⟩ | ⟨-, -, ho⟩
  · exact hfound old hf
  · exact hfound old hf
  · have hlt : m.length < n := by simpa [hasRoom, hn] using hr
    exact (Keyed.length_insert_le m k b).trans hlt
  · cases ho.symm.trans h

/-! ## The channel record through the parts of a FEED -/

theorem GoodChan.fresh (p : Params) : GoodChan p ChanRec.fresh where
  buf := .nil
  aggs_rising := List.Pairwise.nil
  aggs k a h := by simp [ChanRec.fresh] at h
  room n _ := Nat.zero_le n

/-- The partial section of a good record may be replaced by another one, and its counter by any. -/
theorem GoodChan.replaceBuf {p : Params} {r : ChanRec} (h : GoodChan p r) {b : Bytes} (hb : GoodBuf b) (o : Option Counter) :
    GoodChan p ⟨o, b, r.aggs⟩ := ⟨hb, h.aggs_rising, h.aggs, h.room⟩

section
variable {p : Params} {c : Channel} {r r' : Rx}

theorem GoodChan.withBuf (h : GoodChan p r.chan) {b : Bytes} (hb : GoodBuf b) : GoodChan p (r.withBuf b).chan :=
  h.replaceBuf hb r.chan.lastCc

/-- The aggregator keeps the record's invariant (42_demux.md rule R190). -/
theorem GoodChan.aggregate {s : Bytes} (h : GoodChan p r.chan) (hs : GoodSection s)
    (ha : aggregate p c r s = .ok r') : GoodChan p r'.chan := by
  rcases aggregate_cases ha with ⟨-, rfl⟩ | ⟨old, -, hfor, ⟨-, rfl⟩ | ⟨hopen, rfl⟩⟩
  case inl => exact h
  case inr.inl =>
    exact ⟨h.buf, Keyed.erase_rising h.aggs_rising _, fun k a hk => h.aggs k a (Keyed.mem_erase hk).1,
      fun n hn => (Keyed.length_erase_le _ _).trans (h.room n hn)⟩
  case inr.inr =>
    refine ⟨h.buf, Keyed.insert_rising h.aggs_rising _ _, fun k a hk => ?_,
      fun n hn => length_insert_le_of_aggFor h.aggs_rising (h.room n hn) hn hfor _⟩
    rcases Keyed.mem_insert hk with hk | hk
    · cases hk
      exact (goodAggBefore_of_aggFor h.aggs hfor).record hs rfl hopen
    · exact h.aggs k a hk

/-- Closing a section of the right shape keeps the record's invariant (rule R165). -/
theorem GoodChan.closeSection {s : Bytes} (h : GoodChan p r.chan) (hs : outputSectionOk s = true)
    (hc : closeSection p c r s = .ok r') : GoodChan p r'.chan := by
  rcases closeSection_cases hc with ⟨-, rfl⟩ | ⟨hv, ha⟩
  · exact h
  · exact GoodChan.aggregate (r := r.emit _) h ⟨hs, hv⟩ ha

/-- One byte keeps the record's invariant, if it is no stuffing byte where a section would begin (rules R162 and R164). -/
theorem GoodChan.appendByte {b : Byte} {o : AppendOutcome} (h : GoodChan p r.chan) (hb : r.chan.buf = [] → b ≠ stuffByte)
    (ha : appendByte p c r b = .ok (r', o)) : GoodChan p r'.chan := by
  rcases appendByte_cases ha with
    ⟨-, -, -, rfl⟩ | ⟨-, -, -, rfl⟩ | ⟨hlong, hshort, ⟨-, h3, hlen, hc⟩ | ⟨-, hopen, rfl⟩⟩
  case inl => exact h.withBuf (r := r.emit _) .nil
  case inr.inl => exact h.withBuf (r := r.emit _) .nil
  case inr.inr.inl =>
    exact (h.withBuf .nil).closeSection (h.buf.snoc_outputSectionOk hb hlong hshort h3 hlen) hc
  case inr.inr.inr => exact h.withBuf (h.buf.snoc hb hlong hshort hopen)

/-- A byte that leaves the section open leaves a partial section. -/
theorem buf_ne_nil_of_appendByte {b : Byte} (ha : appendByte p c r b = .ok (r', .unfinished)) : r'.chan.buf ≠ [] := by
  rcases appendByte_cases ha with ⟨ho, -⟩ | ⟨ho, -⟩ | ⟨-, -, ⟨ho, -⟩ | ⟨-, -, rfl⟩⟩
  · cases ho
  · cases ho
  · cases ho
  · simp

/-- Bytes that join a partial section keep the record's invariant: after the byte that ends it no more are read
(rule R164). -/
theorem GoodChan.append {bs rest : Bytes} {o : AppendOutcome} (h : GoodChan p r.chan) (hbuf : r.chan.buf ≠ [])
    (ha : append p c r bs = .ok (r', rest, o)) : GoodChan p r'.chan := by
  induction bs generalizing r with
  | nil =>
    cases ha
    exact h
  | cons b bs ih =>
    rw [Machine.append] at ha
    cases hb : Machine.appendByte p c r b with
    | error e => simp [hb] at ha
    | ok x =>
      obtain ⟨r₁, o₁⟩ := x
      have h₁ : GoodChan p r₁.chan := h.appendByte (fun hn => absurd hn hbuf) hb
      rw [hb] at ha
      cases o₁ with
      | unfinished => exact ih h₁ (buf_ne_nil_of_appendByte hb) ha
      | closed =>
        cases ha
        exact h₁
      | bad =>
        cases ha
        exact h₁

/-- The bytes before the pointer keep the record's invariant (rule R160). -/
theorem GoodChan.finishPartial {pre : Bytes} (h : GoodChan p r.chan) (hf : finishPartial p c r pre = .ok r') :
    GoodChan p r'.chan := by
  unfold Machine.finishPartial at hf
  by_cases hbuf : r.chan.buf = []
  · rw [if_pos hbuf] at hf
    cases hf
    exact h
  · rw [if_neg hbuf] at hf
    cases ha : Machine.append p c r pre with
    | error e => simp [ha] at hf
    | ok x =>
      obtain ⟨r₁, rest, o⟩ := x
      have h₁ : GoodChan p r₁.chan := h.append hbuf ha
      rw [ha] at hf
      cases o with
      | unfinished =>
        cases hf
        exact h₁.withBuf (r := r₁.emit _) .nil
      | closed =>
        cases hf
        exact h₁
      | bad =>
        cases hf
        exact h₁

/-- The bytes from the pointer on keep the record's invariant: a stuffing byte where a section would begin is not read
(rules R161 and R162). -/
theorem GoodChan.parseSections {bs : Bytes} (h : GoodChan p r.chan) (hp : parseSections p c r bs = .ok r') :
    GoodChan p r'.chan := by
  induction bs generalizing r with
  | nil =>
    cases hp
    exact h
  | cons b bs ih =>
    rw [Machine.parseSections] at hp
    by_cases hs : r.chan.buf = [] ∧ b = stuffByte
    · rw [if_pos hs] at hp
      cases hp
      exact h
    · rw [if_neg hs] at hp
      cases hb : Machine.appendByte p c r b with
      | error e => simp [hb] at hp
      | ok x =>
        obtain ⟨r₁, o⟩ := x
        have h₁ : GoodChan p r₁.chan := h.appendByte (fun hn hbs => hs ⟨hn, hbs⟩) hb
        rw [hb] at hp
        cases o with
        | unfinished => exact ih h₁ hp
        | closed => exact ih h₁ hp
        | bad =>
          cases hp
          exact h₁

/-- A packet with the flag keeps the record's invariant (rule R159). -/
theorem GoodChan.startPacket {payload : Bytes} (h : GoodChan p r.chan) (hp : startPacket p c r payload = .ok r') :
    GoodChan p r'.chan := by
  cases payload with
  | nil =>
    cases hp
    exact h
  | cons ptr data =>
    rw [Machine.startPacket] at hp
    by_cases hptr : data.length ≤ ptr.toNat
    · rw [if_pos hptr] at hp
      cases hp
      exact h.withBuf (r := r.emit _) .nil
    · rw [if_neg hptr] at hp
      cases hf : Machine.finishPartial p c r (data.take ptr.toNat) with
      | error e => simp [hf] at hp
      | ok r₁ =>
        rw [hf] at hp
        exact (h.finishPartial hf).parseSections hp

/-- A packet without the flag keeps the record's invariant (rule R163). -/
theorem GoodChan.continuePacket {payload : Bytes} (h : GoodChan p r.chan) (hp : continuePacket p c r payload = .ok r') :
    GoodChan p r'.chan := by
  unfold Machine.continuePacket at hp
  by_cases hbuf : r.chan.buf = []
  · rw [if_pos hbuf] at hp
    cases hp
    exact h
  · rw [if_neg hbuf] at hp
    cases ha : Machine.append p c r payload with
    | error e => simp [ha] at hp
    | ok x =>
      rw [ha] at hp
      cases hp
      exact h.append hbuf ha

end

/-- The counter check keeps the record's invariant (rules R155 to R158). -/
theorem GoodChan.takeCounter {p : Params} {rec : ChanRec} (h : GoodChan p rec) (c : Channel) (cc : Counter) :
    GoodChan p (takeCounter c rec cc).chan := by
  rcases takeCounter_cases c rec cc with ⟨-, ht⟩ | ⟨_, -, -, ht⟩
  · rw [ht]
    exact h.replaceBuf h.buf _
  · rw [ht]
    exact h.replaceBuf .nil _

/-- FEED's work keeps its channel record's invariant, in each of its five ways (rule R150). -/
theorem GoodChan.feedPacket {p : Params} {c : Channel} {rec : ChanRec} {cc : Counter} {pusi scr : Bool} {pl : Bytes} {r : Rx}
    (h : GoodChan p rec) (hf : feedPacket p c rec cc pusi scr pl = .ok r) : GoodChan p r.chan := by
  rcases feedPacket_cases p c rec cc pusi scr pl with
    ⟨-, heq⟩ | ⟨-, -, heq⟩ | ⟨-, -, -, -, heq⟩ | ⟨-, -, -, -, heq⟩
  · cases heq.symm.trans hf
    exact h.replaceBuf h.buf _
  · cases heq.symm.trans hf
    exact h
  · exact (h.takeCounter c cc).startPacket (heq.symm.trans hf)
  · exact (h.takeCounter c cc).continuePacket (heq.symm.trans hf)

/-! ## The unit -/

theorem goodDmx_reset (p : Params) : GoodDmx p Dmx.reset where
  rising := List.Pairwise.nil
  keys k r h := by simp [Dmx.reset] at h
  chans k r h := by simp [Dmx.reset] at h

/-- The record a FEED works on is a good one, whether the channel has it or it is made (rule R152). -/
theorem GoodDmx.chanAt_getD {p : Params} {d : Dmx} (h : GoodDmx p d) (c : Channel) :
    GoodChan p ((d.chanAt c).getD ChanRec.fresh) := by
  cases hc : d.chanAt c with
  | none => exact .fresh p
  | some r => exact h.chans c.toNat r (Keyed.mem_of_find hc)

/-- Writing or removing a channel's record keeps the unit's invariant (rule R33). -/
theorem GoodDmx.setChan {p : Params} {d : Dmx} (h : GoodDmx p d) (c : Channel) {o : Option ChanRec}
    (ho : ∀ r, o = some r → GoodChan p r) : GoodDmx p (d.setChan c o) where
  rising := Keyed.putOption_rising h.rising _ _
  keys k r hk := by
    rcases Keyed.mem_putOption hk with ⟨rfl, -⟩ | hk
    · exact c.isLt
    · exact h.keys k r hk
  chans k r hk := by
    rcases Keyed.mem_putOption hk with ⟨-, hr⟩ | hk
    · exact ho r hr
    · exact h.chans k r hk

/-- FEED keeps the DMX unit's invariant, at any value of the parameters. -/
theorem feedWith_keeps_goodDmx {p : Params} {ch : Channel} {cc : Counter} {pusi scr : Bool} {pl : Bytes} {s t : State}
    (h : GoodDmx p s.dmx) (hf : feedWith p ch cc pusi scr pl s = .next t) : GoodDmx p t.dmx := by
  rcases feedWith_cases p ch cc pusi scr pl s with ⟨-, heq⟩ | ⟨-, ⟨e, -, heq⟩ | ⟨r, hr, heq⟩⟩
  · obtain rfl := Host.Outcome.next.inj (heq.symm.trans hf)
    exact h
  · cases heq.symm.trans hf
  · obtain rfl := Host.Outcome.next.inj (heq.symm.trans hf)
    refine h.setChan ch fun r' hr' => ?_
    obtain rfl := Option.some.inj hr'
    exact (h.chanAt_getD ch).feedPacket hr

/-- Every command keeps the DMX unit's invariant: FEED and the two resets by what they write, the others because they write
nothing of it (00_scope.md rule R3). -/
theorem exec_keeps_goodDmx {i : Instr} {s t : State} (h : GoodDmx params s.dmx) (hx : exec i s = .next t) :
    GoodDmx params t.dmx := by
  have hframe := (unitsAreIsolated i s s t hx).1
  cases i with
  | feed ch cc pusi scr payload => exact feedWith_keeps_goodDmx h hx
  | dmxReset ch =>
    obtain rfl := Host.Outcome.next.inj hx
    exact h.setChan ch fun r hr => nomatch hr
  | dmxResetAll =>
    obtain rfl := Host.Outcome.next.inj hx
    exact goodDmx_reset params
  | _ =>
    rw [hframe (by simp [Instr.unit])]
    exact h

end Sys2Proof.Machine
end

section
/-! PROOFS. The filling of a payload (43_packetizer.md rules R215 to R217), and the Packetizer's invariant through it. -/

namespace Sys2Proof.Machine

open Config

/-! ## What a filling takes from the queue -/

/-- The offset is within the head section (10_state.md rule R40). -/
structure GoodOffset (q : List Bytes) (off : Nat) : Prop where
  empty : q = [] → off = 0
  head : ∀ s rest, q = s :: rest → off < s.length

theorem GoodOffset.zero {q : List Bytes} (h : ∀ s ∈ q, s ≠ []) : GoodOffset q 0 where
  empty _ := rfl
  head s rest hq := List.length_pos_iff.mpr (h s (by simp [hq]))

/-- The filling `f` of a payload that held `pl` takes `n` bytes, in order, from the queue `q` behind `off`: none is lost or
repeated, and what is left is a queue and an offset again. -/
structure Takes (pl : Bytes) (off : Nat) (q : List Bytes) (n : Nat) (f : Filled) : Prop where
  payload : f.payload = pl ++ (q.flatten.drop off).take n
  unsent : f.queue.flatten.drop f.off = (q.flatten.drop off).drop n
  suffix : f.queue <:+ q
  offset : GoodOffset f.queue f.off

/-- Nothing is taken. -/
theorem Takes.none {pl : Bytes} {off : Nat} {q : List Bytes} (h : GoodOffset q off) : Takes pl off q 0 ⟨pl, q, off⟩ where
  payload := by simp
  unsent := by simp
  suffix := List.suffix_refl q
  offset := h

section
variable {pl s : Bytes} {off : Nat} {q : List Bytes}

/-- The bytes of a queue behind an offset into its head section. -/
theorem drop_flatten_cons (h : off ≤ s.length) : (s :: q).flatten.drop off = s.drop off ++ q.flatten := by
  rw [List.flatten_cons, List.drop_append_of_le_length h]

/-- Fewer bytes are taken than the head section has left. -/
theorem Takes.within {n : Nat} (h : off + n < s.length) :
    Takes pl off (s :: q) n ⟨pl ++ (s.drop off).take n, s :: q, off + n⟩ where
  payload := by
    rw [drop_flatten_cons (by omega), List.take_append_of_le_length (by rw [List.length_drop]; omega)]
  unsent := by rw [List.drop_drop]
  suffix := List.suffix_refl _
  offset := ⟨(fun hq => nomatch hq), fun s' rest hq => by cases hq; exact h⟩

/-- The rest of the head section is taken, and then `n` bytes of the sections behind it. -/
theorem Takes.through {n : Nat} {f : Filled} (h : off ≤ s.length) (hf : Takes (pl ++ s.drop off) 0 q n f) :
    Takes pl off (s :: q) (s.length - off + n) f where
  payload := by
    rw [hf.payload, drop_flatten_cons h, List.drop_zero, ← List.length_drop, List.take_length_add_append,
      List.append_assoc]
  unsent := by rw [hf.unsent, drop_flatten_cons h, List.drop_zero, ← List.length_drop, List.drop_length_add_append]
  suffix := hf.suffix.trans (List.suffix_cons s q)
  offset := hf.offset

/-! ## The two fillings (rule R216) -/

/-- One turn of a filling whose payload has room for no more than a part of the head section's rest. -/
theorem fillPayload_cons_within {flag : Bool} (hpl : pl.length < payloadMax) (h : off + (payloadMax - pl.length) < s.length) :
    fillPayload flag pl off (s :: q) =
      ⟨pl ++ (s.drop off).take (payloadMax - pl.length), s :: q, off + (payloadMax - pl.length)⟩ := by
  have hmin : min (payloadMax - pl.length) (s.length - off) = payloadMax - pl.length := by omega
  simp only [fillPayload, if_pos hpl, hmin, if_neg h.ne]

/-- One turn of a filling whose payload has room for all the head section's rest. -/
theorem fillPayload_cons_through {flag : Bool} (hpl : pl.length < payloadMax) (hoff : off ≤ s.length)
    (h : s.length ≤ off + (payloadMax - pl.length)) :
    fillPayload flag pl off (s :: q) =
      if flag then fillPayload flag (pl ++ s.drop off) 0 q else ⟨pl ++ s.drop off, q, 0⟩ := by
  have hmin : min (payloadMax - pl.length) (s.length - off) = s.length - off := by omega
  have htake : (s.drop off).take (s.length - off) = s.drop off := List.take_of_length_le (by rw [List.length_drop])
  cases flag <;>
    simp only [fillPayload, if_pos hpl, hmin, htake, show off + (s.length - off) = s.length by omega, if_true,
      Bool.false_eq_true, if_false]

end

/-- With the flag a filling takes as many bytes as fit and are queued, through any number of sections. -/
theorem fillPayload_true_takes {pl : Bytes} {off : Nat} {q : List Bytes} (hpl : pl.length ≤ payloadMax)
    (hoff : GoodOffset q off) (hq : ∀ s ∈ q, s ≠ []) :
    Takes pl off q (min (payloadMax - pl.length) (q.flatten.drop off).length) (fillPayload true pl off q) := by
  induction q generalizing pl off with
  | nil =>
    have h0 : min (payloadMax - pl.length) (([] : List Bytes).flatten.drop off).length = 0 := by simp
    rw [h0]
    exact .none hoff
  | cons s q ih =>
    have hs : off < s.length := hoff.head s q rfl
    have hlen : ((s :: q).flatten.drop off).length = s.length - off + q.flatten.length := by
      rw [drop_flatten_cons hs.le, List.length_append, List.length_drop]
    rw [hlen]
    by_cases hfull : pl.length < payloadMax
    · by_cases hfit : off + (payloadMax - pl.length) < s.length
      · rw [fillPayload_cons_within hfull hfit,
          show min (payloadMax - pl.length) (s.length - off + q.flatten.length) = payloadMax - pl.length by omega]
        exact .within hfit
      · have hrest : ∀ x ∈ q, x ≠ [] := fun x hx => hq x (List.mem_cons_of_mem s hx)
        have hpl' : (pl ++ s.drop off).length = pl.length + (s.length - off) := by simp
        have := ih (pl := pl ++ s.drop off) (by omega) (.zero hrest) hrest
        rw [fillPayload_cons_through hfull hs.le (by omega), if_pos rfl,
          show min (payloadMax - pl.length) (s.length - off + q.flatten.length) =
            s.length - off + min (payloadMax - (pl ++ s.drop off).length) (q.flatten.drop 0).length by
              rw [hpl', List.drop_zero]; omega]
        exact this.through hs.le
    · rw [show min (payloadMax - pl.length) (s.length - off + q.flatten.length) = 0 by omega, fillPayload, if_neg hfull]
      exact .none hoff

/-- Without the flag a filling takes as many bytes as fit of the head section's rest. -/
theorem fillPayload_false_takes {pl s : Bytes} {off : Nat} {q : List Bytes} (hpl : pl.length < payloadMax)
    (hs : off < s.length) (hq : ∀ x ∈ q, x ≠ []) :
    Takes pl off (s :: q) (min (payloadMax - pl.length) (s.length - off)) (fillPayload false pl off (s :: q)) := by
  by_cases hfit : off + (payloadMax - pl.length) < s.length
  · rw [fillPayload_cons_within hpl hfit,
      show min (payloadMax - pl.length) (s.length - off) = payloadMax - pl.length by omega]
    exact .within hfit
  · rw [fillPayload_cons_through hpl hs.le (by omega),
      show min (payloadMax - pl.length) (s.length - off) = s.length - off + 0 by omega]
    exact (Takes.none (.zero hq)).through hs.le

/-! ## The packet that is built -/

theorem GoodSection.ne_nil {s : Bytes} (h : GoodSection s) : s ≠ [] := by
  rintro rfl
  exact absurd h.shape (by decide)

/-- The Packetizer's offset is within its head section. -/
theorem GoodPk.offset {p : Params} {q : Packetizer} (h : GoodPk p q) : GoodOffset q.queue q.off := ⟨h.off_empty, h.off_head⟩

section
variable (q : Packetizer) (c : Channel)

@[simp] theorem Packetizer.build_pusi : (q.build c).1.pusi = q.startsSection := rfl

theorem Packetizer.build_payload : (q.build c).1.payload =
    (fillPayload q.startsSection q.pointer q.off q.queue).payload ++
      stuffing (payloadMax - (fillPayload q.startsSection q.pointer q.off q.queue).payload.length) := rfl

theorem Packetizer.build_queue :
    (q.build c).2.queue = (fillPayload q.startsSection q.pointer q.off q.queue).queue := rfl

theorem Packetizer.build_off : (q.build c).2.off = (fillPayload q.startsSection q.pointer q.off q.queue).off := rfl

/-- The pointer byte is there exactly with the flag (rule R215). -/
theorem Packetizer.pointer_length : q.pointer.length = if q.startsSection then 1 else 0 := by
  by_cases hoff : q.off = 0
  · simp [pointer, startsSection, hoff]
  · cases hs : q.startsSection <;> simp [pointer, hoff, hs]

end

/-- How many section bytes the next packet takes (rule R216): with the flag as many as fit behind the pointer and are queued,
without it as many as fit of the head section's rest. -/
def Packetizer.sent (q : Packetizer) : Nat :=
  if q.startsSection then min (payloadMax - q.pointer.length) q.remaining.length else min payloadMax q.headLeft

section
variable {p : Params} {q : Packetizer}

/-- A Packetizer with sections queued has bytes of its head section left, and they are among those that remain. -/
theorem GoodPk.headLeft_bounds (h : GoodPk p q) (hq : q.queue ≠ []) :
    1 ≤ q.headLeft ∧ q.headLeft ≤ q.remaining.length := by
  obtain ⟨s, rest, hs⟩ := List.exists_cons_of_ne_nil hq
  have hoff := h.off_head s rest hs
  rw [Packetizer.headLeft, Packetizer.remaining, hs, drop_flatten_cons hoff.le, List.headD_cons, List.length_append,
    List.length_drop]
  omega

/-- A packet takes at least one section byte, no more than remain, and no more than fit. -/
theorem GoodPk.sent_bounds (h : GoodPk p q) (hq : q.queue ≠ []) :
    1 ≤ q.sent ∧ q.sent ≤ q.remaining.length ∧ q.pointer.length + q.sent ≤ payloadMax := by
  have hleft := h.headLeft_bounds hq
  have hptr := q.pointer_length
  unfold Packetizer.sent payloadMax
  cases hs : q.startsSection
  · simp only [hs, Bool.false_eq_true, if_false] at hptr ⊢
    omega
  · simp only [hs, if_true] at hptr ⊢
    omega

/-- The payload of the next packet takes `q.sent` bytes from the queue, with the flag and without. -/
theorem GoodPk.fillPayload_takes (h : GoodPk p q) (hq : q.queue ≠ []) :
    Takes q.pointer q.off q.queue q.sent (fillPayload q.startsSection q.pointer q.off q.queue) := by
  have hne : ∀ s ∈ q.queue, s ≠ [] := fun s hs => (h.sections s hs).ne_nil
  have hptr := q.pointer_length
  cases hs : q.startsSection with
  | true =>
    rw [Packetizer.sent, if_pos hs]
    exact fillPayload_true_takes (by rw [hptr, hs]; decide) h.offset hne
  | false =>
    obtain ⟨s, rest, hqs⟩ := List.exists_cons_of_ne_nil hq
    have hnil : q.pointer = [] := List.length_eq_zero_iff.mp (by rw [hptr, hs]; rfl)
    rw [Packetizer.sent, if_neg (by simp [hs]), Packetizer.headLeft, hqs, hnil]
    exact fillPayload_false_takes (pl := []) (by decide) (h.off_head s rest hqs)
      fun x hx => hne x (by rw [hqs]; exact List.mem_cons_of_mem s hx)

/-- Building a packet keeps the Packetizer's invariant (10_state.md rules R40 and R48 item 5). -/
theorem GoodPk.build (h : GoodPk p q) (hq : q.queue ≠ []) (c : Channel) : GoodPk p (q.build c).2 := by
  have hf := h.fillPayload_takes hq
  exact ⟨hf.suffix.sublist.length_le.trans h.depth, hf.offset.empty, hf.offset.head,
    fun s hs => h.sections s (hf.suffix.mem hs)⟩

/-- The payload that is built: pointer, section bytes in order, and stuffing. -/
theorem GoodPk.build_payload_eq (h : GoodPk p q) (hq : q.queue ≠ []) (c : Channel) :
    (q.build c).1.payload =
      q.pointer ++ q.remaining.take q.sent ++ stuffing (payloadMax - (q.pointer.length + q.sent)) := by
  have hpay : (fillPayload q.startsSection q.pointer q.off q.queue).payload = q.pointer ++ q.remaining.take q.sent :=
    (h.fillPayload_takes hq).payload
  have hlen : (q.pointer ++ q.remaining.take q.sent).length = q.pointer.length + q.sent := by
    rw [List.length_append, List.length_take_of_le (h.sent_bounds hq).2.1]
  rw [Packetizer.build_payload, hpay, hlen]

end

/-- Settles O48: the filling takes `q.sent` bytes from what remains. -/
theorem buildSendsBytesInOrder : Obligations.BuildSendsBytesInOrder := by
  intro p q c h hq
  have htakes := h.fillPayload_takes hq
  obtain ⟨hpos, hle, hfit⟩ := h.sent_bounds hq
  have hptr := q.pointer_length
  refine ⟨q.sent, rfl, hpos, hle, hfit, ?withFlag, ?withoutFlag, h.build_payload_eq hq c, htakes.unsent, htakes.suffix,
    h.build hq c⟩
  case withFlag => cases hs : q.startsSection <;> simp [hptr, hs]
  case withoutFlag => cases hs : q.startsSection <;> simp [← List.length_eq_zero_iff, hptr, hs]

end Sys2Proof.Machine
end

section
/-! PROOFS. FEED at the level of the machine's statements. -/

namespace Sys2Proof.Machine

open Config

/-- A FEED whose work on its channel's record runs ends OK with that record and those events, and touches nothing else
(41_reassembler.md rule R150). -/
theorem feedGives_of_feedPacket {ch : Channel} {cc : Counter} {pusi scr : Bool} {pl : Bytes} {s : State} {r : ChanRec}
    {evs : List Event} (hpl : pl.length ≤ payloadMax)
    (h : feedPacket params ch (s.chanRec ch) cc pusi scr pl = .ok ⟨r, evs⟩) : FeedGives ch cc pusi scr pl s r evs := by
  rcases feedWith_cases params ch cc pusi scr pl s with ⟨hlong, -⟩ | ⟨-, ⟨e, he, -⟩ | ⟨x, hx, heq⟩⟩
  · omega
  · cases he.symm.trans h
  · obtain rfl := Except.ok.inj (hx.symm.trans h)
    exact ⟨_, heq, Dmx.chanAt_setChan_self _ _ _, fun c hc => Dmx.chanAt_setChan_of_ne _ hc _, rfl, rfl, rfl⟩

/-- A counter that continues is no duplicate (rule R155). -/
theorem Continues.not_duplicate {r : ChanRec} {cc : Counter} (h : Continues r cc) : r.lastCc ≠ some cc := by
  intro hdup
  have hnext : ∀ x : Counter, x ≠ x + 1 := by decide
  exact hnext cc (h cc hdup)

/-- A counter that continues is taken without a discontinuity (rule R158). -/
theorem Continues.takeCounter {r : ChanRec} {cc : Counter} (h : Continues r cc) (c : Channel) :
    takeCounter c r cc = ⟨{ r with lastCc := some cc }, []⟩ := by
  rcases takeCounter_cases c r cc with ⟨-, ht⟩ | ⟨prev, hprev, hne, -⟩
  · exact ht
  · exact absurd (h prev hprev) hne

/-- The work of a FEED of an accepted packet without the flag (rule R163). -/
theorem Continues.feedPacket_continue {r : ChanRec} {cc : Counter} (h : Continues r cc) (p : Params) (c : Channel)
    {pl : Bytes} (hpl : pl ≠ []) :
    feedPacket p c r cc false false pl = continuePacket p c ⟨{ r with lastCc := some cc }, []⟩ pl := by
  rw [← h.takeCounter c]
  simp [feedPacket, hpl, h.not_duplicate]

/-- Settles O29: with no partial section `continue_packet` reads none of the payload. -/
theorem feedUnlocatedBytesDiscarded : Obligations.FeedUnlocatedBytesDiscarded := by
  intro ch cc pl s hlen hpl hbuf hcc
  refine feedGives_of_feedPacket hlen ?_
  rw [hcc.feedPacket_continue params ch hpl, continuePacket, if_pos hbuf]

end Sys2Proof.Machine
end

section
/-! PROOFS. The invariant of the ENC unit (10_state.md rules R39 to R48) through its commands. It has three parts: what each table
holds, that EMITTED entries and the entries in flight are the same, and that a channel with an entry in flight has sections
queued. The second needs no bound on the parameters; the third fails between the building of an emission's last packet and
`finish_emission`. -/

namespace Sys2Proof.Machine

open Config

/-! ## The three parts -/

/-- What each table of the ENC unit holds. -/
structure GoodTables (p : Params) (e : Enc) : Prop where
  pk_rising : e.pk.Rising
  pk_entries : ∀ k q, (k, q) ∈ e.pk → k < channelCount ∧ q ≠ Packetizer.reset ∧ GoodPk p q
  time_rising : e.time.Rising
  time_entries : ∀ k t, (k, t) ∈ e.time → k < channelCount ∧ t ≠ 0
  inflight_rising : e.inflight.Rising
  inflight_keys : ∀ k i, (k, i) ∈ e.inflight → k < channelCount
  entries_rising : e.entries.Rising
  entries : ∀ i n, (i, n) ∈ e.entries → GoodEntry e.nextId i n
  entries_count : e.entries.length ≤ p.maxEntries
  nextId_le : e.nextId ≤ entryIdCount

/-- The EMITTED entries are those in flight on their channel (10_state.md rule R48 items 1 and 2), and only an entry of its channel is
in flight (rule R47). -/
structure EmissionsLinked (e : Enc) : Prop where
  emitted_iff : ∀ i n, e.entryAt i = some n → (n.state = .emitted ↔ e.inflightAt n.ch = some i)
  inflight_entry : ∀ c i, e.inflightAt c = some i → ∃ n, e.entryAt i = some n ∧ n.ch = c

/-- A channel with an entry in flight has sections queued (10_state.md rule R48 item 3). -/
def EmissionsQueued (e : Enc) : Prop := ∀ c i, e.inflightAt c = some i → (e.pkAt c).queue ≠ []

section
variable {p : Params} {e : Enc}

theorem GoodEnc.tables (h : GoodEnc p e) : GoodTables p e :=
  ⟨h.pk_rising, h.pk_entries, h.time_rising, h.time_entries, h.inflight_rising, h.inflight_keys, h.entries_rising, h.entries,
    h.entries_count, h.nextId_le⟩

theorem GoodEnc.linked (h : GoodEnc p e) : EmissionsLinked e := ⟨h.emitted_iff, fun c i hi => (h.inflight_live c i hi).1⟩

theorem GoodEnc.queued (h : GoodEnc p e) : EmissionsQueued e := fun c i hi => (h.inflight_live c i hi).2

theorem GoodEnc.of_parts (ht : GoodTables p e) (hl : EmissionsLinked e) (hq : EmissionsQueued e) : GoodEnc p e where
  pk_rising := ht.pk_rising
  pk_entries := ht.pk_entries
  time_rising := ht.time_rising
  time_entries := ht.time_entries
  inflight_rising := ht.inflight_rising
  inflight_keys := ht.inflight_keys
  entries_rising := ht.entries_rising
  entries := ht.entries
  entries_count := ht.entries_count
  nextId_le := ht.nextId_le
  emitted_iff := hl.emitted_iff
  inflight_live c i hi := ⟨hl.inflight_entry c i hi, hq c i hi⟩

end

theorem goodEnc_reset (p : Params) : GoodEnc p Enc.reset := by
  constructor <;> simp [Enc.reset, Enc.entryAt, Enc.inflightAt]

/-! ## Stamped sections and table operands -/

/-- A stamped section is as long as it was. -/
theorem stamp_length {s : Bytes} (h : 4 ≤ s.length) : (stamp s).length = s.length := by
  simp only [stamp, secBody, List.length_append, List.length_take, toBe32_length]
  omega

/-- Stamping leaves the bytes before the last four (40_checksum.md rule R136). -/
theorem byteAt_stamp {s : Bytes} {i : Nat} (h : i + 4 < s.length) : byteAt (stamp s) i = byteAt s i := by
  have hbody : i < (secBody s).length := by
    simp only [secBody, List.length_take]
    omega
  calc byteAt (stamp s) i = byteAt (secBody s) i := byteAt_append_left hbody
    _ = byteAt (secBody s ++ s.drop (s.length - 4)) i := (byteAt_append_left hbody).symm
    _ = byteAt s i := by rw [secBody, List.take_append_drop]

/-- A string that passes the output-section check is, once stamped, a section (10_state.md rule R48 item 5). -/
theorem goodSection_stamp {s : Bytes} (h : outputSectionOk s = true) : GoodSection (stamp s) := by
  obtain ⟨hmin, hmax, hdecl, hfirst⟩ := outputSectionOk_iff.mp h
  unfold minSectionSize at hmin
  have hlen : (stamp s).length = s.length := stamp_length (by omega)
  constructor
  case shape =>
    have hdecl' : declLen (stamp s) = declLen s := by
      rw [declLen, declLen, byteAt_stamp (by omega), byteAt_stamp (by omega)]
    rw [outputSectionOk_iff, hlen, hdecl', byteAt_stamp (by omega)]
    exact ⟨hmin, hmax, hdecl, hfirst⟩
  case valid =>
    have hbody : secBody (stamp s) = secBody s := by
      rw [secBody, hlen, stamp, List.take_left' (by simp [secBody])]
    rw [crcValid, hbody, stamp, secCode_append_toBe32, decide_eq_true_eq]

/-- The sections split off a table operand: as many as were asked for, each of the right shape (44_cycling.md rule R243). -/
theorem splitSections_sound {k : Nat} {b : Bytes} {t : List Bytes} (h : splitSections k b = some t) :
    t.length = k ∧ ∀ s ∈ t, outputSectionOk s = true := by
  induction k generalizing b t with
  | zero =>
    obtain rfl : [] = t := by
      by_cases hb : b = []
      · simpa [splitSections, hb] using h
      · simp [splitSections, hb] at h
    simp
  | succ k ih =>
    obtain ⟨-, -, hok, t', ht', rfl⟩ := splitSections_succ_eq_some.mp h
    obtain ⟨hlen, hall⟩ := ih ht'
    exact ⟨by simp [hlen], by simpa using ⟨hok, hall⟩⟩

/-- A table operand that parses holds 1 to 256 sections of the right shape (rule R243). -/
theorem parseTable_sound {b : Bytes} {t : List Bytes} (h : parseTable b = some t) :
    1 ≤ t.length ∧ t.length ≤ maxTableSections ∧ ∀ s ∈ t, outputSectionOk s = true := by
  unfold parseTable at h
  split at h
  · cases h
  · dsimp only at h
    split at h
    · cases h
    next hk =>
      obtain ⟨hlen, hall⟩ := splitSections_sound h
      exact ⟨by omega, by omega, hall⟩

/-! ## Packetizers and entries -/

theorem GoodPk.reset (p : Params) : GoodPk p Packetizer.reset := by
  constructor <;> simp [Packetizer.reset]

/-- Every channel's Packetizer is a good one, listed or not (rule R39). -/
theorem GoodTables.goodPk {p : Params} {e : Enc} (h : GoodTables p e) (c : Channel) : GoodPk p (e.pkAt c) := by
  rw [Enc.pkAt, Keyed.getD]
  cases hc : e.pk.find c.toNat with
  | none => exact .reset p
  | some q => exact (h.pk_entries c.toNat q (Keyed.mem_of_find hc)).2.2

/-- A queue that is not full takes one section more (43_packetizer.md rule R212). -/
theorem GoodPk.enqueue {p : Params} {q : Packetizer} (h : GoodPk p q) (hroom : q.queue.length ≠ p.pktQueueDepth) {x : Bytes}
    (hx : GoodSection x) : GoodPk p { q with queue := q.queue ++ [x] } where
  depth := by
    have := h.depth
    simp only [List.length_append, List.length_singleton]
    omega
  off_empty hq := by simp at hq
  off_head s rest hq := by
    cases hqq : q.queue with
    | nil =>
      obtain ⟨rfl, -⟩ : x = s ∧ [] = rest := by simpa [hqq] using hq
      rw [h.off_empty hqq]
      exact List.length_pos_iff.mpr hx.ne_nil
    | cons y ys =>
      obtain ⟨rfl, -⟩ : y = s ∧ ys ++ [x] = rest := by simpa [hqq] using hq
      exact h.off_head y ys hqq
  sections s hs := by
    rcases List.mem_append.mp hs with hs | hs
    · exact h.sections s hs
    · rw [List.mem_singleton.mp hs]
      exact hx

/-- The mode is free (rule R42). -/
theorem GoodPk.withMode {p : Params} {q : Packetizer} (h : GoodPk p q) (m : PktMode) : GoodPk p { q with mode := m } :=
  ⟨h.depth, h.off_empty, h.off_head, h.sections⟩

/-- An idle Packetizer takes the stamped table of an entry (44_cycling.md rule R249). -/
theorem GoodPk.load {p : Params} {q : Packetizer} (h : GoodPk p q) (hp : p.InBounds) (hq : q.queue = []) {k i : Nat}
    {n : Entry} (hn : GoodEntry k i n) : GoodPk p { q with queue := n.table.map stamp } := by
  have hgood : ∀ s ∈ n.table.map stamp, GoodSection s :=
    List.forall_mem_map.mpr fun s hs => goodSection_stamp (hn.sections s hs)
  have hoff : GoodOffset (n.table.map stamp) q.off := h.off_empty hq ▸ GoodOffset.zero fun s hs => (hgood s hs).ne_nil
  refine ⟨?depth, hoff.empty, hoff.head, hgood⟩
  case depth =>
    rw [List.length_map]
    exact hn.table_le.trans hp.pktQueueDepth_ge

/-- An entry's invariant is about its interval and its table alone. -/
theorem GoodEntry.congr {k i : Nat} {n n' : Entry} (h : GoodEntry k i n) (hi : n'.interval = n.interval)
    (ht : n'.table = n.table) : GoodEntry k i n' :=
  ⟨h.id_lt, hi ▸ h.interval_pos, ht ▸ h.table_pos, ht ▸ h.table_le, ht ▸ h.sections⟩

section
variable (c : Channel) (now : Nat) (n : Entry)

@[simp] theorem Entry.markDue_ch : (n.markDue c now).ch = n.ch := by
  unfold Entry.markDue
  split <;> rfl

@[simp] theorem Entry.markDue_interval : (n.markDue c now).interval = n.interval := by
  unfold Entry.markDue
  split <;> rfl

@[simp] theorem Entry.markDue_table : (n.markDue c now).table = n.table := by
  unfold Entry.markDue
  split <;> rfl

/-- No entry becomes EMITTED or ceases to be by becoming DUE (44_cycling.md rule R247). -/
@[simp] theorem Entry.markDue_state_emitted : (n.markDue c now).state = .emitted ↔ n.state = .emitted := by
  unfold Entry.markDue
  split
  next h => simp [h.2.1]
  next => rfl

theorem Entry.markDue_of_ch_ne {n : Entry} (h : n.ch ≠ c) : n.markDue c now = n := by
  simp [Entry.markDue, h]

end

/-! ## The tables through the writes -/

section
variable {p : Params} {e : Enc}

theorem GoodTables.setPk (h : GoodTables p e) (c : Channel) {q : Packetizer} (hq : GoodPk p q) :
    GoodTables p (e.setPk c q) :=
  { h with
    pk_rising := Keyed.put_rising h.pk_rising _ _ _
    pk_entries := fun k q' hk => by
      rcases Keyed.mem_put hk with ⟨rfl, rfl, hne⟩ | hk
      · exact ⟨c.isLt, hne, hq⟩
      · exact h.pk_entries k q' hk }

theorem GoodTables.setTime (h : GoodTables p e) (c : Channel) (t : Nat) : GoodTables p (e.setTime c t) :=
  { h with
    time_rising := Keyed.put_rising h.time_rising _ _ _
    time_entries := fun k t' hk => by
      rcases Keyed.mem_put hk with ⟨rfl, rfl, hne⟩ | hk
      · exact ⟨c.isLt, hne⟩
      · exact h.time_entries k t' hk }

theorem GoodTables.setInflight (h : GoodTables p e) (c : Channel) (o : Option Nat) : GoodTables p (e.setInflight c o) :=
  { h with
    inflight_rising := Keyed.putOption_rising h.inflight_rising _ _
    inflight_keys := fun k i hk => by
      rcases Keyed.mem_putOption hk with ⟨rfl, -⟩ | hk
      · exact c.isLt
      · exact h.inflight_keys k i hk }

/-- The entry table may be replaced by another one of good entries. -/
theorem GoodTables.withEntries (h : GoodTables p e) {m : Keyed Entry} (hrising : m.Rising)
    (hgood : ∀ i n, (i, n) ∈ m → GoodEntry e.nextId i n) (hcount : m.length ≤ p.maxEntries) :
    GoodTables p { e with entries := m } :=
  { h with entries_rising := hrising, entries := hgood, entries_count := hcount }

theorem GoodTables.removeEntry (h : GoodTables p e) (i : Nat) : GoodTables p (e.removeEntry i) :=
  h.withEntries (Keyed.erase_rising h.entries_rising i) (fun j n hj => h.entries j n (Keyed.mem_erase hj).1)
    ((Keyed.length_erase_le _ _).trans h.entries_count)

theorem GoodTables.modifyEntry (h : GoodTables p e) (i : Nat) {f : Entry → Entry}
    (hf : ∀ n, GoodEntry e.nextId i n → GoodEntry e.nextId i (f n)) : GoodTables p (e.modifyEntry i f) := by
  refine h.withEntries (Keyed.modify_rising h.entries_rising f i) (fun j n hj => ?_)
    ((Keyed.length_modify f _ i).le.trans h.entries_count)
  obtain ⟨m, hm, rfl⟩ := Keyed.mem_modify hj
  have hgood := h.entries j m hm
  split
  next hji =>
    subst hji
    exact hf m hgood
  next => exact hgood

theorem GoodTables.markDue (h : GoodTables p e) (c : Channel) (now : Nat) : GoodTables p (e.markDue c now) := by
  refine h.withEntries (Keyed.mapValues_rising h.entries_rising _) (fun j n hj => ?_)
    ((Keyed.length_mapValues _ _).le.trans h.entries_count)
  obtain ⟨m, hm, rfl⟩ := Keyed.mem_mapValues hj
  exact (h.entries j m hm).congr (Entry.markDue_interval c now m) (Entry.markDue_table c now m)

/-- A new entry under the next id (44_cycling.md rule R242). -/
theorem GoodTables.addEntry (h : GoodTables p e) {n : Entry} (hn : GoodEntry (e.nextId + 1) e.nextId n)
    (hroom : e.entries.length ≠ p.maxEntries) (hid : e.nextId ≠ entryIdCount) :
    GoodTables p { e.setEntry e.nextId n with nextId := e.nextId + 1 } :=
  { h with
    entries_rising := Keyed.insert_rising h.entries_rising _ _
    entries := fun i m hi => by
      rcases Keyed.mem_insert hi with hi | hi
      · cases hi
        exact hn
      · exact { h.entries i m hi with id_lt := Nat.lt_succ_of_lt (h.entries i m hi).id_lt }
    entries_count := by
      have hlen : (e.entries.insert e.nextId n).length ≤ e.entries.length + 1 := Keyed.length_insert_le _ _ _
      have := h.entries_count
      show (e.entries.insert e.nextId n).length ≤ p.maxEntries
      omega
    nextId_le := by
      have := h.nextId_le
      show e.nextId + 1 ≤ entryIdCount
      omega }

theorem GoodTables.finishEmission (h : GoodTables p e) (c : Channel) : GoodTables p (e.finishEmission c) := by
  unfold Enc.finishEmission
  split
  · split
    next i _ =>
      refine GoodTables.setInflight (GoodTables.modifyEntry h i ?_) c none
      exact fun _ hn => hn.congr rfl rfl
    next => exact h
  · exact h

theorem GoodTables.loadEntry (h : GoodTables p e) (hp : p.InBounds) {c : Channel} {i : Nat} {n : Entry} (now : Nat)
    (hidle : (e.pkAt c).queue = []) (hn : (i, n) ∈ e.entries) : GoodTables p (e.loadEntry c i n now) := by
  have hpk := h.setPk c ((h.goodPk c).load hp hidle (h.entries i n hn))
  refine GoodTables.setInflight (GoodTables.modifyEntry hpk i ?_) c (some i)
  exact fun _ hm => hm.congr rfl rfl

theorem GoodTables.emitPacket (h : GoodTables p e) (c : Channel) : GoodTables p (e.emitPacket c).2 := by
  by_cases hq : (e.pkAt c).queue = []
  · rw [Enc.emitPacket_of_empty hq]
    exact (h.setTime c _).finishEmission c
  · rw [Enc.emitPacket_of_queue hq]
    exact ((h.setPk c ((h.goodPk c).build hq c)).setTime c _).finishEmission c

end

/-! ## Entries in flight through the writes -/

section
variable {e : Enc} {c : Channel}

/-- With one and the same entries and entries in flight the link is one and the same. -/
theorem EmissionsLinked.congr {e' : Enc} (h : EmissionsLinked e) (hentry : ∀ i, e'.entryAt i = e.entryAt i)
    (hflight : ∀ c, e'.inflightAt c = e.inflightAt c) : EmissionsLinked e' where
  emitted_iff i n hn := by
    rw [hflight]
    exact h.emitted_iff i n (hentry i ▸ hn)
  inflight_entry c i hi := by
    obtain ⟨n, hn, hc⟩ := h.inflight_entry c i (hflight c ▸ hi)
    exact ⟨n, (hentry i).trans hn, hc⟩

/-- The entry in flight on a channel is no other channel's. -/
theorem EmissionsLinked.ch_of_inflight {i : Nat} {n : Entry} (h : EmissionsLinked e) (hi : e.inflightAt c = some i)
    (hn : e.entryAt i = some n) : n.ch = c := by
  obtain ⟨m, hm, hc⟩ := h.inflight_entry c i hi
  obtain rfl := Option.some.inj (hm.symm.trans hn)
  exact hc

/-- An idle channel has no entry in flight. -/
theorem EmissionsQueued.inflightAt_eq_none (h : EmissionsQueued e) (hidle : (e.pkAt c).queue = []) :
    e.inflightAt c = none := by
  cases hi : e.inflightAt c with
  | none => rfl
  | some i => exact absurd hidle (h c i hi)

/-- A write to the fields of entries that leaves their channels, and which of them are EMITTED, leaves the link. -/
theorem EmissionsLinked.map {e' : Enc} (h : EmissionsLinked e) (f : Nat → Entry → Entry)
    (hentry : ∀ i, e'.entryAt i = (e.entryAt i).map (f i)) (hflight : ∀ c, e'.inflightAt c = e.inflightAt c)
    (hch : ∀ i n, (f i n).ch = n.ch) (hstate : ∀ i n, (f i n).state = .emitted ↔ n.state = .emitted) :
    EmissionsLinked e' where
  emitted_iff i n' hn' := by
    rw [hentry, Option.map_eq_some_iff] at hn'
    obtain ⟨n, hn, rfl⟩ := hn'
    rw [hflight, hstate, hch]
    exact h.emitted_iff i n hn
  inflight_entry c i hi := by
    obtain ⟨n, hn, hc⟩ := h.inflight_entry c i (hflight c ▸ hi)
    exact ⟨f i n, by rw [hentry, hn, Option.map_some], (hch i n).trans hc⟩

theorem EmissionsLinked.markDue (h : EmissionsLinked e) (now : Nat) : EmissionsLinked (e.markDue c now) :=
  h.map (fun _ => Entry.markDue c now) (Enc.entryAt_markDue e c now) (fun _ => rfl) (fun _ => Entry.markDue_ch c now)
    fun _ => Entry.markDue_state_emitted c now

/-- An entry loaded onto a channel with none in flight is the one in flight there, and EMITTED (44_cycling.md rule R249). -/
theorem EmissionsLinked.loadEntry {i : Nat} {n : Entry} (h : EmissionsLinked e) (now : Nat) (hnone : e.inflightAt c = none)
    (hn : e.entryAt i = some n) (hc : n.ch = c) : EmissionsLinked (e.loadEntry c i n now) where
  emitted_iff j m hm := by
    rw [Enc.entryAt_loadEntry] at hm
    rw [Enc.inflightAt_loadEntry]
    split at hm
    next hij =>
      subst hij
      rw [hn, Option.map_some, Option.some.injEq] at hm
      subst hm
      simp [hc]
    next hij =>
      have hlink := h.emitted_iff j m hm
      split
      next hcm => simp [hlink, ← hcm, hnone, hij]
      next => exact hlink
  inflight_entry c' j hj := by
    rw [Enc.inflightAt_loadEntry] at hj
    rw [Enc.entryAt_loadEntry]
    split at hj
    next hcc =>
      obtain rfl := Option.some.inj hj
      rw [if_pos rfl, hn]
      exact ⟨_, rfl, hc.trans hcc⟩
    next hcc =>
      obtain ⟨m, hm, hmc⟩ := h.inflight_entry c' j hj
      have hij : i ≠ j := by
        rintro rfl
        exact hcc (hc.symm.trans (h.ch_of_inflight hj hn))
      exact ⟨m, by rw [if_neg hij, hm], hmc⟩

/-- When an emission ends, its entry is neither in flight nor EMITTED (44_cycling.md rule R251). -/
theorem EmissionsLinked.finishEmission (h : EmissionsLinked e) (c : Channel) : EmissionsLinked (e.finishEmission c) where
  emitted_iff j m hm := by
    rw [Enc.entryAt_finishEmission] at hm
    rw [Enc.inflightAt_finishEmission]
    split at hm
    next hend =>
      obtain ⟨n, hn, rfl⟩ := Option.map_eq_some_iff.mp hm
      simp [h.ch_of_inflight hend.2 hn, hend.1]
    next hend =>
      have hlink := h.emitted_iff j m hm
      split
      next hc =>
        rw [hlink, ← hc.1]
        simpa using fun hj => hend ⟨hc.2, hj⟩
      next => exact hlink
  inflight_entry c' j hj := by
    rw [Enc.inflightAt_finishEmission] at hj
    rw [Enc.entryAt_finishEmission]
    split at hj
    next => cases hj
    next hc =>
      obtain ⟨n, hn, hnc⟩ := h.inflight_entry c' j hj
      have hother : ¬((e.pkAt c).queue = [] ∧ e.inflightAt c = some j) := fun hend =>
        hc ⟨(h.ch_of_inflight hend.2 hn).symm.trans hnc, hend.1⟩
      exact ⟨n, by rw [if_neg hother, hn], hnc⟩

/-- A packet slot leaves the link, whether it ends an emission or not. -/
theorem EmissionsLinked.emitPacket (h : EmissionsLinked e) (c : Channel) : EmissionsLinked (e.emitPacket c).2 := by
  by_cases hq : (e.pkAt c).queue = []
  · rw [Enc.emitPacket_of_empty hq]
    exact (h.congr (fun _ => rfl) fun _ => rfl : EmissionsLinked (e.setTime c _)).finishEmission c
  · rw [Enc.emitPacket_of_queue hq]
    exact (h.congr (fun _ => rfl) fun _ => rfl : EmissionsLinked ((e.setPk c _).setTime c _)).finishEmission c

/-- The entries in flight after a packet slot: the channel's own one stays in flight while sections are queued. -/
theorem EmissionsQueued.emitPacket (h : EmissionsQueued e) (c : Channel) : EmissionsQueued (e.emitPacket c).2 := by
  have hfinish : ∀ e' : Enc, (∀ c', c ≠ c' → e'.pkAt c' = e.pkAt c') → (∀ c', e'.inflightAt c' = e.inflightAt c') →
      EmissionsQueued (e'.finishEmission c) := by
    intro e' hpk hflight c' i hi
    rw [Enc.inflightAt_finishEmission] at hi
    rw [Enc.pkAt_finishEmission]
    split at hi
    next => cases hi
    next hc =>
      by_cases hcc : c = c'
      · subst hcc
        exact fun hq => hc ⟨rfl, hq⟩
      · rw [hpk c' hcc]
        exact h c' i (hflight c' ▸ hi)
  by_cases hq : (e.pkAt c).queue = []
  · rw [Enc.emitPacket_of_empty hq]
    exact hfinish _ (fun _ _ => rfl) fun _ => rfl
  · rw [Enc.emitPacket_of_queue hq]
    exact hfinish _ (fun c' hc => by simp [Enc.pkAt_setPk, hc]) fun _ => rfl

/-- Loading an entry puts sections behind its emission. -/
theorem EmissionsQueued.loadEntry {i : Nat} {n : Entry} (h : EmissionsQueued e) (now : Nat) (hn : n.table ≠ []) :
    EmissionsQueued (e.loadEntry c i n now) := by
  intro c' j hj
  rw [Enc.inflightAt_loadEntry] at hj
  rw [Enc.pkAt_loadEntry]
  split at hj
  next hc => simpa [hc] using hn
  next hc =>
    rw [if_neg hc]
    exact h c' j hj

end

/-! ## The commands -/

section
variable {p : Params} {e : Enc}

/-- A write to a channel's Packetizer that empties no queue. -/
theorem GoodEnc.setPk (h : GoodEnc p e) (c : Channel) {q : Packetizer} (hq : GoodPk p q)
    (hne : (e.pkAt c).queue ≠ [] → q.queue ≠ []) : GoodEnc p (e.setPk c q) := by
  refine .of_parts (h.tables.setPk c hq) (h.linked.congr (fun _ => rfl) fun _ => rfl) fun c' i hi => ?_
  rw [Enc.pkAt_setPk]
  have hold := h.queued c' i hi
  split
  next hc =>
    subst hc
    exact hne hold
  next => exact hold

theorem GoodEnc.emitPacket (h : GoodEnc p e) (c : Channel) : GoodEnc p (e.emitPacket c).2 :=
  .of_parts (h.tables.emitPacket c) (h.linked.emitPacket c) (h.queued.emitPacket c)

theorem GoodEnc.markDue (h : GoodEnc p e) (c : Channel) (now : Nat) : GoodEnc p (e.markDue c now) :=
  .of_parts (h.tables.markDue c now) (h.linked.markDue now) h.queued

/-- The entry that a tick selects: it is listed, and of the tick's channel. -/
theorem entryAt_of_selectDue {c : Channel} {i : Nat} {n : Entry} (h : e.entries.Rising)
    (hs : selectDue c e.entries = some (i, n)) : (i, n) ∈ e.entries ∧ e.entryAt i = some n ∧ n.ch = c := by
  obtain ⟨hmem, hc, -⟩ := selectDue_eq_some hs
  exact ⟨hmem, Keyed.find_of_mem h hmem, hc⟩

theorem EmissionsLinked.selectAndLoad (h : EmissionsLinked e) (hrising : e.entries.Rising) (hq : EmissionsQueued e)
    (c : Channel) (now : Nat) : EmissionsLinked (e.selectAndLoad c now) := by
  rcases e.selectAndLoad_cases c now with ⟨-, heq⟩ | ⟨i, n, hidle, hsel, heq⟩
  · rw [heq]
    exact h
  · obtain ⟨-, hat, hc⟩ := entryAt_of_selectDue hrising hsel
    rw [heq]
    exact h.loadEntry now (hq.inflightAt_eq_none hidle) hat hc

theorem GoodEnc.selectAndLoad (h : GoodEnc p e) (hp : p.InBounds) (c : Channel) (now : Nat) :
    GoodEnc p (e.selectAndLoad c now) := by
  have hlinked := h.linked.selectAndLoad h.entries_rising h.queued c now
  rcases e.selectAndLoad_cases c now with ⟨-, heq⟩ | ⟨i, n, hidle, hsel, heq⟩
  · rw [heq]
    exact h
  · obtain ⟨hmem, -, -⟩ := entryAt_of_selectDue h.entries_rising hsel
    rw [heq] at hlinked ⊢
    exact .of_parts (h.tables.loadEntry hp now hidle hmem) hlinked
      (h.queued.loadEntry now (List.length_pos_iff.mp (h.entries i n hmem).table_pos))

theorem GoodEnc.tick (h : GoodEnc p e) (hp : p.InBounds) (c : Channel) : GoodEnc p (e.tick c).2 :=
  ((h.markDue c _).selectAndLoad hp c _).emitPacket c

/-- A new entry is SCHEDULED, and its id has been in no use (rules R46 and R242). -/
theorem GoodEnc.addEntry (h : GoodEnc p e) {n : Entry} (hn : GoodEntry (e.nextId + 1) e.nextId n)
    (hstate : n.state = .scheduled) (hroom : e.entries.length ≠ p.maxEntries) (hid : e.nextId ≠ entryIdCount) :
    GoodEnc p { e.setEntry e.nextId n with nextId := e.nextId + 1 } := by
  have hold : ∀ i m, e.entryAt i = some m → e.nextId ≠ i := fun i m hi =>
    (h.entries i m (Keyed.mem_of_find hi)).id_lt.ne'
  have hentry : ∀ i, Enc.entryAt { e.setEntry e.nextId n with nextId := e.nextId + 1 } i =
      if e.nextId = i then some n else e.entryAt i := fun i => Enc.entryAt_setEntry e e.nextId i n
  refine .of_parts (h.tables.addEntry hn hroom hid) ⟨fun i m hi => ?emitted, fun c i hi => ?inflight⟩ h.queued
  case emitted =>
    rw [hentry] at hi
    split at hi
    next hni =>
      cases hi
      have hfree : e.inflightAt n.ch ≠ some i := fun hf => by
        obtain ⟨m, hm, -⟩ := h.linked.inflight_entry n.ch i hf
        exact hold i m hm hni
      rw [hstate]
      exact iff_of_false (fun hs => nomatch hs) hfree
    next => exact h.emitted_iff i m hi
  case inflight =>
    obtain ⟨m, hm, hc⟩ := h.linked.inflight_entry c i hi
    exact ⟨m, by rw [hentry, if_neg (hold i m hm), hm], hc⟩

/-- Without one entry, in the table and in flight, the link holds of the others (44_cycling.md rule R244). -/
theorem EmissionsLinked.remove {e' : Enc} {i : Nat} (h : EmissionsLinked e)
    (hentry : ∀ j, e'.entryAt j = if i = j then none else e.entryAt j)
    (hflight : ∀ c, e'.inflightAt c = if e.inflightAt c = some i then none else e.inflightAt c) : EmissionsLinked e' where
  emitted_iff j m hj := by
    rw [hentry] at hj
    rw [hflight]
    split at hj
    next => cases hj
    next hij =>
      rw [h.emitted_iff j m hj]
      split
      next hi => simp [hi, hij]
      next => rfl
  inflight_entry c j hj := by
    rw [hflight] at hj
    rw [hentry]
    split at hj
    next => cases hj
    next hci =>
      have hij : i ≠ j := by
        rintro rfl
        exact hci hj
      rw [if_neg hij]
      exact h.inflight_entry c j hj

/-- CYC_REMOVE of an entry that is in flight, and of one that is not. -/
theorem GoodEnc.removeEntry (h : GoodEnc p e) {i : Nat} {n : Entry} (hn : e.entryAt i = some n) {e' : Enc}
    (he : (e.inflightAt n.ch = some i ∧ e' = (e.removeEntry i).setInflight n.ch none) ∨
      (e.inflightAt n.ch ≠ some i ∧ e' = e.removeEntry i)) : GoodEnc p e' := by
  have honly : ∀ c, e.inflightAt c = some i → n.ch = c := fun c hc => h.linked.ch_of_inflight hc hn
  rcases he with ⟨hi, rfl⟩ | ⟨hi, rfl⟩
  case inl =>
    have hflight : ∀ c, ((e.removeEntry i).setInflight n.ch none).inflightAt c =
        if e.inflightAt c = some i then none else e.inflightAt c := by
      intro c
      rw [Enc.inflightAt_setInflight, Enc.inflightAt_removeEntry]
      by_cases hc : n.ch = c
      · rw [if_pos hc, if_pos (hc ▸ hi)]
      · rw [if_neg hc, if_neg fun hf => hc (honly c hf)]
    refine .of_parts ((h.tables.removeEntry i).setInflight n.ch none)
      (h.linked.remove (Enc.entryAt_removeEntry e i) hflight) fun c j hj => ?_
    rw [hflight] at hj
    split at hj
    next => cases hj
    next => exact h.queued c j hj
  case inr =>
    refine .of_parts (h.tables.removeEntry i) (h.linked.remove (Enc.entryAt_removeEntry e i) fun c => ?_) h.queued
    have hfree : e.inflightAt c ≠ some i := fun hc => hi (honly c hc ▸ hc)
    rw [if_neg hfree, Enc.inflightAt_removeEntry]

/-- CYC_REPLACE: another table of the right shape (44_cycling.md rule R245). -/
theorem GoodEnc.replaceTable (h : GoodEnc p e) (i : Nat) {t : List Bytes} (ht : 1 ≤ t.length)
    (ht' : t.length ≤ maxTableSections) (hall : ∀ s ∈ t, outputSectionOk s = true) :
    GoodEnc p (e.modifyEntry i fun n => { n with table := t }) := by
  refine .of_parts (GoodTables.modifyEntry h.tables i fun n hn => ⟨hn.id_lt, hn.interval_pos, ht, ht', hall⟩)
    (h.linked.map (fun j n => if i = j then { n with table := t } else n) (fun j => ?entry) (fun _ => rfl)
      (fun j n => ?ch) (fun j n => ?state)) h.queued
  case entry =>
    rw [Enc.entryAt_modifyEntry]
    split
    next => rfl
    next => simp
  case ch => split <;> rfl
  case state => split <;> rfl

end

/-- PKT_LOAD keeps the ENC unit's invariant, at any value of the parameters. -/
theorem pktLoadWith_keeps_goodEnc {p : Params} {ch : Channel} {d : Bytes} {s t : State} (h : GoodEnc p s.enc)
    (hx : pktLoadWith p ch d s = .next t) : GoodEnc p t.enc := by
  rcases pktLoadWith_cases p ch d s with ⟨-, heq⟩ | ⟨-, -, heq⟩ | ⟨hok, hroom, heq⟩ <;>
    obtain rfl := Host.Outcome.next.inj (heq.symm.trans hx)
  · exact h
  · exact h
  · exact h.setPk ch ((h.tables.goodPk ch).enqueue hroom (goodSection_stamp hok)) (by simp)

theorem execPktNext_keeps_goodEnc {p : Params} {ch : Channel} {s t : State} (h : GoodEnc p s.enc)
    (hx : execPktNext ch s = .next t) : GoodEnc p t.enc := by
  rcases execPktNext_cases ch s with ⟨-, -, heq⟩ | ⟨-, heq⟩ <;>
    obtain rfl := Host.Outcome.next.inj (heq.symm.trans hx)
  · exact h
  · exact h.emitPacket ch

/-- CYC_ADD keeps the ENC unit's invariant, at any value of the parameters. -/
theorem cycAddWith_keeps_goodEnc {p : Params} {ch : Channel} {d : Bytes} {s t : State} (h : GoodEnc p s.enc)
    (hx : cycAddWith p ch d s = .next t) : GoodEnc p t.enc := by
  rcases cycAddWith_cases p ch d s with
    ⟨-, heq⟩ | ⟨tbl, -, htbl, ⟨-, heq⟩ | ⟨-, -, heq⟩ | ⟨hinterval, hroom, heq⟩⟩ <;>
    obtain rfl := Host.Outcome.next.inj (heq.symm.trans hx)
  · exact h
  · exact h
  · exact h
  · obtain ⟨hpos, hle, hall⟩ := parseTable_sound htbl
    exact h.addEntry ⟨Nat.lt_succ_self _, hinterval, hpos, hle, hall⟩ rfl (fun hf => hroom (.inl hf))
      fun hf => hroom (.inr hf)

theorem execCycRemove_keeps_goodEnc {p : Params} {id : EntryId} {s t : State} (h : GoodEnc p s.enc)
    (hx : execCycRemove id s = .next t) : GoodEnc p t.enc := by
  rcases execCycRemove_cases id s with ⟨-, heq⟩ | ⟨n, hn, e, heq, he⟩ <;>
    obtain rfl := Host.Outcome.next.inj (heq.symm.trans hx)
  · exact h
  · exact h.removeEntry hn he

theorem execCycReplace_keeps_goodEnc {p : Params} {id : EntryId} {d : Bytes} {s t : State} (h : GoodEnc p s.enc)
    (hx : execCycReplace id d s = .next t) : GoodEnc p t.enc := by
  rcases execCycReplace_cases id d s with ⟨-, heq⟩ | ⟨n, -, ⟨-, heq⟩ | ⟨tbl, htbl, heq⟩⟩ <;>
    obtain rfl := Host.Outcome.next.inj (heq.symm.trans hx)
  · exact h
  · exact h
  · obtain ⟨hpos, hle, hall⟩ := parseTable_sound htbl
    exact h.replaceTable _ hpos hle hall

/-- Every command keeps the ENC unit's invariant: those of the unit by what they write, the others because they write nothing of it
(00_scope.md rule R3). -/
theorem exec_keeps_goodEnc {i : Instr} {s t : State} (h : GoodEnc params s.enc) (hx : exec i s = .next t) :
    GoodEnc params t.enc := by
  have hframe := (unitsAreIsolated i s s t hx).2.1
  cases i with
  | pktLoad ch d => exact pktLoadWith_keeps_goodEnc h hx
  | pktNext ch => exact execPktNext_keeps_goodEnc h hx
  | pktConfig ch mode =>
    obtain rfl := Host.Outcome.next.inj hx
    exact h.setPk ch ((h.tables.goodPk ch).withMode mode) id
  | cycAdd ch d => exact cycAddWith_keeps_goodEnc h hx
  | cycRemove id => exact execCycRemove_keeps_goodEnc h hx
  | cycReplace id d => exact execCycReplace_keeps_goodEnc h hx
  | cycTick ch =>
    obtain rfl := Host.Outcome.next.inj hx
    exact h.tick params_inBounds ch
  | _ =>
    rw [hframe (by simp [Instr.unit])]
    exact h

end Sys2Proof.Machine
end

section
/-! PROOFS. The invariant of the machine: it holds after reset, and every step keeps it. -/

namespace Sys2Proof.Machine

open Config

/-- Settles O9: the tables are empty after reset. -/
theorem resetValues : Obligations.ResetValues := fun _ _ => ⟨rfl, rfl, rfl, rfl, rfl, rfl, rfl, rfl, rfl⟩

/-- Settles O12. -/
theorem resetMeetsUnitInvariants : Obligations.ResetMeetsUnitInvariants := ⟨goodDmx_reset params, goodEnc_reset params⟩

/-- The invariant is about the units: the port is free. -/
theorem State.Inv.congr {s t : State} (h : s.Inv) (hu : SameUnits s t) : t.Inv :=
  ⟨hu.1 ▸ h.dmx, hu.2 ▸ h.enc⟩

theorem exec_keeps_inv {i : Instr} {s t : State} (h : s.Inv) (hx : exec i s = .next t) : t.Inv :=
  ⟨exec_keeps_goodDmx h.dmx hx, exec_keeps_goodEnc h.enc hx⟩

/-- Settles O11: with no input nothing changes, the reset input gives the reset units, and a command, if it is one, keeps each
unit's invariant. -/
theorem stepKeepsUnitInvariants : Obligations.StepKeepsUnitInvariants := by
  intro s t h hstep
  unfold step at hstep
  cases hin : s.nextInput with
  | none =>
    simp only [hin] at hstep
    cases hstep
    exact h
  | some a =>
    obtain ⟨input, s'⟩ := a
    obtain ⟨rest, -, rfl⟩ := State.nextInput_eq_some hin
    rw [hin] at hstep
    cases input with
    | reset =>
      cases hstep
      exact resetMeetsUnitInvariants.congr ⟨rfl, rfl⟩
    | command c =>
      cases hd : decode c with
      | ok i =>
        simp only [hd] at hstep
        exact exec_keeps_inv (s := { s with port := { s.port with inputs := rest } }) (h.congr ⟨rfl, rfl⟩) hstep
      | error err =>
        simp only [hd] at hstep
        cases err with
        | illegal =>
          cases hstep
          exact h.congr ⟨rfl, rfl⟩
        | operandLength => cases hstep

end Sys2Proof.Machine
end

section
/-! PROOFS. What a command may do to a cycle entry (44_cycling.md rule R241, 10_state.md rules R44 and R46). -/

namespace Sys2Proof.Machine

open Config

/-! ## What is allowed -/

/-- The command `i` may make `n'` of the entry `n` at the id `j`: each field changes only by its command (rules R44 and R241). -/
structure AllowedChange (i : Instr) (j : Nat) (n n' : Entry) : Prop where
  ch : n'.ch = n.ch
  interval : n'.interval = n.interval
  table : n'.table ≠ n.table → ∃ (id : EntryId) (d : Bytes), i = .cycReplace id d ∧ id.toNat = j
  nextDue : n'.nextDue ≠ n.nextDue → i = .cycTick n.ch
  state : n'.state ≠ n.state → i = .cycTick n.ch ∨ (i = .pktNext n.ch ∧ n.state = .emitted ∧ n'.state = .scheduled)

/-- What the command `i` may do at the id `j`: the claim of O60 for a unit `e` and the unit `e'` after it. -/
structure AllowedAt (i : Instr) (e e' : Enc) (j : Nat) : Prop where
  nextId_ge : e.nextId ≤ e'.nextId
  nextId_le : e'.nextId ≤ e.nextId + 1
  appears : ∀ n', e.entryAt j = none → e'.entryAt j = some n' →
    (∃ d, i = .cycAdd n'.ch d) ∧ j = e.nextId ∧ e'.nextId = e.nextId + 1
  disappears : ∀ n, e.entryAt j = some n → e'.entryAt j = none → ∃ id : EntryId, i = .cycRemove id ∧ id.toNat = j
  changes : ∀ n n', e.entryAt j = some n → e'.entryAt j = some n' → AllowedChange i j n n'

/-- A weaker relation of the values is a weaker relation of the options. -/
theorem optionRel_imp {α β : Type} {R S : α → β → Prop} (hRS : ∀ a b, R a b → S a b) {o : Option α} {o' : Option β}
    (h : Option.Rel R o o') : Option.Rel S o o' := by
  cases h with
  | none => exact .none
  | some hab => exact .some (hRS _ _ hab)

section
variable {i : Instr} {e e' : Enc} {j : Nat}

theorem AllowedChange.refl (i : Instr) (j : Nat) (n : Entry) : AllowedChange i j n n where
  ch := rfl
  interval := rfl
  table h := absurd rfl h
  nextDue h := absurd rfl h
  state h := absurd rfl h

/-- A command that keeps the ids may change the entries they name. -/
theorem AllowedAt.of_rel (hid : e'.nextId = e.nextId)
    (h : Option.Rel (AllowedChange i j) (e.entryAt j) (e'.entryAt j)) : AllowedAt i e e' j := by
  refine ⟨hid.ge, hid.le.trans (Nat.le_succ _), fun n' hn hn' => ?appears, fun n hn hn' => ?disappears,
    fun n n' hn hn' => ?changes⟩
  case appears =>
    rw [hn, hn'] at h
    cases h
  case disappears =>
    rw [hn, hn'] at h
    cases h
  case changes =>
    rw [hn, hn'] at h
    cases h with
    | some hc => exact hc

/-- A command that touches neither the entry nor the next id. -/
theorem AllowedAt.of_same (hid : e'.nextId = e.nextId) (hentry : e'.entryAt j = e.entryAt j) : AllowedAt i e e' j := by
  refine .of_rel hid ?_
  rw [hentry]
  cases e.entryAt j with
  | none => exact .none
  | some n => exact .some (.refl i j n)

end

/-! ## What a packet slot and a tick do to the entries -/

/-- A packet slot leaves an entry as it is, or ends its emission (44_cycling.md rule R251). -/
theorem Enc.entryAt_emitPacket (e : Enc) (c : Channel) (j : Nat) :
    (e.emitPacket c).2.entryAt j = e.entryAt j ∨
      (e.inflightAt c = some j ∧
        (e.emitPacket c).2.entryAt j = (e.entryAt j).map fun n => { n with state := .scheduled }) := by
  have hfinish : ∀ e₁ : Enc, (e₁.finishEmission c).entryAt j = e₁.entryAt j ∨
      (e₁.inflightAt c = some j ∧
        (e₁.finishEmission c).entryAt j = (e₁.entryAt j).map fun n => { n with state := .scheduled }) := by
    intro e₁
    rw [Enc.entryAt_finishEmission]
    split
    next hend => exact .inr ⟨hend.2, rfl⟩
    next => exact .inl rfl
  by_cases hq : (e.pkAt c).queue = []
  · rw [Enc.emitPacket_of_empty hq]
    exact hfinish (e.setTime c _)
  · rw [Enc.emitPacket_of_queue hq]
    exact hfinish ((e.setPk c _).setTime c _)

/-- The entry has its channel, interval and table yet, and is as it was if its channel is not `c`. -/
structure Entry.Retimed (c : Channel) (n n' : Entry) : Prop where
  ch : n'.ch = n.ch
  interval : n'.interval = n.interval
  table : n'.table = n.table
  elsewhere : n.ch ≠ c → n' = n

theorem Entry.Retimed.refl (c : Channel) (n : Entry) : Entry.Retimed c n n := ⟨rfl, rfl, rfl, fun _ => rfl⟩

theorem Entry.Retimed.trans {c : Channel} {n m k : Entry} (h : Entry.Retimed c n m) (h' : Entry.Retimed c m k) :
    Entry.Retimed c n k where
  ch := h'.ch.trans h.ch
  interval := h'.interval.trans h.interval
  table := h'.table.trans h.table
  elsewhere hc := (h'.elsewhere (h.ch ▸ hc)).trans (h.elsewhere hc)

/-- The same ids have entries, and each entry is the same but for the due times and states of channel `c`. -/
def EntriesRetimed (c : Channel) (e e' : Enc) : Prop := ∀ j, Option.Rel (Entry.Retimed c) (e.entryAt j) (e'.entryAt j)

section
variable {c : Channel} {e e' e'' : Enc}

theorem EntriesRetimed.refl (c : Channel) (e : Enc) : EntriesRetimed c e e := fun j => by
  cases e.entryAt j with
  | none => exact .none
  | some n => exact .some (.refl c n)

theorem EntriesRetimed.trans (h : EntriesRetimed c e e') (h' : EntriesRetimed c e' e'') : EntriesRetimed c e e'' := by
  intro j
  have h₁ := h j
  have h₂ := h' j
  revert h₁ h₂
  generalize e.entryAt j = o, e'.entryAt j = o', e''.entryAt j = o''
  intro h₁ h₂
  cases h₁ with
  | none =>
    cases h₂
    exact .none
  | some hn =>
    cases h₂ with
    | some hn' => exact .some (hn.trans hn')

/-- A write to one entry of the channel, of its due time and state alone. -/
theorem EntriesRetimed.of_modify {i : Nat} {n : Entry} {f : Entry → Entry} (hn : e.entryAt i = some n) (hc : n.ch = c)
    (hf : (f n).ch = n.ch ∧ (f n).interval = n.interval ∧ (f n).table = n.table)
    (hentry : ∀ j, e'.entryAt j = if i = j then (e.entryAt j).map f else e.entryAt j) : EntriesRetimed c e e' := by
  intro j
  rw [hentry]
  split
  next hij =>
    subst hij
    rw [hn]
    exact .some ⟨hf.1, hf.2.1, hf.2.2, fun hne => absurd hc hne⟩
  next => exact EntriesRetimed.refl c e j

theorem EntriesRetimed.markDue (e : Enc) (c : Channel) (now : Nat) : EntriesRetimed c e (e.markDue c now) := by
  intro j
  rw [Enc.entryAt_markDue]
  cases e.entryAt j with
  | none => exact .none
  | some n =>
    exact .some ⟨Entry.markDue_ch c now n, Entry.markDue_interval c now n, Entry.markDue_table c now n,
      Entry.markDue_of_ch_ne c now⟩

/-- The selection of a tick re-arms an entry of its channel at most (rule R249). -/
theorem EntriesRetimed.selectAndLoad (h : e.entries.Rising) (c : Channel) (now : Nat) :
    EntriesRetimed c e (e.selectAndLoad c now) := by
  rcases e.selectAndLoad_cases c now with ⟨-, heq⟩ | ⟨i, n, -, hsel, heq⟩
  · rw [heq]
    exact .refl c e
  · obtain ⟨-, hat, hc⟩ := entryAt_of_selectDue h hsel
    rw [heq]
    exact .of_modify hat hc ⟨rfl, rfl, rfl⟩ fun j => Enc.entryAt_loadEntry e c i j n now

/-- A packet slot ends the emission of an entry of its channel at most (rule R251). -/
theorem EntriesRetimed.emitPacket (h : EmissionsLinked e) (c : Channel) : EntriesRetimed c e (e.emitPacket c).2 := by
  intro j
  rcases e.entryAt_emitPacket c j with heq | ⟨hi, heq⟩
  · rw [heq]
    exact EntriesRetimed.refl c e j
  · obtain ⟨n, hn, hc⟩ := h.inflight_entry c j hi
    rw [heq, hn]
    exact .some ⟨rfl, rfl, rfl, fun hne => absurd hc hne⟩

/-- A tick changes due times and states of its channel's entries alone (rule R246). -/
theorem EntriesRetimed.tick {p : Params} (h : GoodEnc p e) (c : Channel) : EntriesRetimed c e (e.tick c).2 := by
  have hdue := h.markDue c (e.timeAt c)
  have hlinked := hdue.linked.selectAndLoad hdue.entries_rising hdue.queued c (e.timeAt c)
  exact ((EntriesRetimed.markDue e c _).trans (.selectAndLoad hdue.entries_rising c _)).trans (.emitPacket hlinked c)

@[simp] theorem Enc.nextId_tick (e : Enc) (c : Channel) : (e.tick c).2.nextId = e.nextId := by
  rw [Enc.tick, Enc.nextId_emitPacket]
  rcases (e.markDue c (e.timeAt c)).selectAndLoad_cases c (e.timeAt c) with ⟨-, heq⟩ | ⟨i, n, -, -, heq⟩
  · rw [heq, Enc.markDue_nextId]
  · rw [heq, Enc.loadEntry, Enc.setInflight_nextId, Enc.modifyEntry_nextId, Enc.setPk_nextId, Enc.markDue_nextId]

end

/-! ## Each command of the ENC unit -/

section
variable {P p : Params} {s t : State} (j : Nat)

theorem pktLoadWith_allowedAt {ch : Channel} {d : Bytes} (hx : pktLoadWith p ch d s = .next t) :
    AllowedAt (.pktLoad ch d) s.enc t.enc j := by
  rcases pktLoadWith_cases p ch d s with ⟨-, heq⟩ | ⟨-, -, heq⟩ | ⟨-, -, heq⟩ <;>
    obtain rfl := Host.Outcome.next.inj (heq.symm.trans hx)
  · exact .of_same rfl rfl
  · exact .of_same rfl rfl
  · exact .of_same rfl rfl

/-- PKT_NEXT ends the emission of the entry in flight at most, which is EMITTED (10_state.md rule R48 item 1). -/
theorem execPktNext_allowedAt {ch : Channel} (h : EmissionsLinked s.enc) (hx : execPktNext ch s = .next t) :
    AllowedAt (.pktNext ch) s.enc t.enc j := by
  rcases execPktNext_cases ch s with ⟨-, -, heq⟩ | ⟨-, heq⟩ <;>
    obtain rfl := Host.Outcome.next.inj (heq.symm.trans hx)
  · exact .of_same rfl rfl
  · have hid : (s.enc.emitPacket ch).2.nextId = s.enc.nextId := Enc.nextId_emitPacket s.enc ch
    rcases s.enc.entryAt_emitPacket ch j with hsame | ⟨hi, hend⟩
    · exact .of_same hid hsame
    · obtain ⟨n, hn, hc⟩ := h.inflight_entry ch j hi
      have hemitted : n.state = .emitted := (h.emitted_iff j n hn).mpr (hc ▸ hi)
      refine .of_rel hid ?_
      rw [State.reply_enc, hend, hn]
      exact .some ⟨rfl, rfl, fun ht => absurd rfl ht, fun hd => absurd rfl hd,
        fun _ => .inr ⟨by rw [hc], hemitted, rfl⟩⟩

/-- CYC_ADD makes one entry, under the next id, which no entry has. -/
theorem cycAddWith_allowedAt {ch : Channel} {d : Bytes} (h : GoodEnc P s.enc) (hx : cycAddWith p ch d s = .next t) :
    AllowedAt (.cycAdd ch d) s.enc t.enc j := by
  rcases cycAddWith_cases p ch d s with ⟨-, heq⟩ | ⟨tbl, -, -, ⟨-, heq⟩ | ⟨-, -, heq⟩ | ⟨-, -, heq⟩⟩ <;>
    obtain rfl := Host.Outcome.next.inj (heq.symm.trans hx)
  · exact .of_same rfl rfl
  · exact .of_same rfl rfl
  · exact .of_same rfl rfl
  · have hold : ∀ n, s.enc.entryAt j = some n → s.enc.nextId ≠ j := fun n hn =>
      (h.entries j n (Keyed.mem_of_find hn)).id_lt.ne'
    have hnew := Enc.entryAt_setEntry s.enc s.enc.nextId j ⟨ch, be32 d 0, tbl, s.enc.timeAt ch, .scheduled⟩
    refine ⟨Nat.le_succ _, Nat.le_refl _, fun n' hn hn' => ?appears, fun n hn hn' => ?disappears,
      fun n n' hn hn' => ?changes⟩
    case appears =>
      replace hn' := hnew.symm.trans hn'
      split at hn'
      next hij =>
        obtain rfl := Option.some.inj hn'
        exact ⟨⟨d, rfl⟩, hij.symm, rfl⟩
      next => cases hn.symm.trans hn'
    case disappears =>
      rw [if_neg (hold n hn)] at hnew
      cases hn.symm.trans (hnew.symm.trans hn')
    case changes =>
      rw [if_neg (hold n hn)] at hnew
      obtain rfl := Option.some.inj (hn.symm.trans (hnew.symm.trans hn'))
      exact .refl _ j n

theorem execCycRemove_allowedAt {id : EntryId} (hx : execCycRemove id s = .next t) :
    AllowedAt (.cycRemove id) s.enc t.enc j := by
  rcases execCycRemove_cases id s with ⟨-, heq⟩ | ⟨n, hn, e, heq, he⟩ <;>
    obtain rfl := Host.Outcome.next.inj (heq.symm.trans hx)
  · exact .of_same rfl rfl
  · have hid : e.nextId = s.enc.nextId := by
      rcases he with ⟨-, rfl⟩ | ⟨-, rfl⟩ <;> rfl
    have hentry : e.entryAt j = if id.toNat = j then none else s.enc.entryAt j := by
      rcases he with ⟨-, rfl⟩ | ⟨-, rfl⟩
      · exact Enc.entryAt_removeEntry s.enc id.toNat j
      · exact Enc.entryAt_removeEntry s.enc id.toNat j
    by_cases hij : id.toNat = j
    · rw [if_pos hij] at hentry
      have hgone : ∀ n', e.entryAt j ≠ some n' := by simp [hentry]
      exact ⟨hid.ge, hid.le.trans (Nat.le_succ _), fun n' _ hn' => absurd hn' (hgone n'),
        fun _ _ _ => ⟨id, rfl, hij⟩, fun _ n' _ hn' => absurd hn' (hgone n')⟩
    · exact .of_same hid (by rw [State.reply_enc, hentry, if_neg hij])

theorem execCycReplace_allowedAt {id : EntryId} {d : Bytes} (hx : execCycReplace id d s = .next t) :
    AllowedAt (.cycReplace id d) s.enc t.enc j := by
  rcases execCycReplace_cases id d s with ⟨-, heq⟩ | ⟨n, hn, ⟨-, heq⟩ | ⟨tbl, -, heq⟩⟩ <;>
    obtain rfl := Host.Outcome.next.inj (heq.symm.trans hx)
  · exact .of_same rfl rfl
  · exact .of_same rfl rfl
  · have hentry := Enc.entryAt_modifyEntry s.enc id.toNat j fun n => { n with table := tbl }
    by_cases hij : id.toNat = j
    · subst hij
      refine .of_rel rfl ?_
      rw [State.reply_enc, hentry, if_pos rfl, hn]
      exact .some ⟨rfl, rfl, fun _ => ⟨id, d, rfl, rfl⟩, fun hd => absurd rfl hd, fun hst => absurd rfl hst⟩
    · rw [if_neg hij] at hentry
      exact .of_same rfl hentry

/-- CYC_TICK changes due times and states of its channel's entries alone. -/
theorem execCycTick_allowedAt {ch : Channel} (h : GoodEnc P s.enc) (hx : execCycTick ch s = .next t) :
    AllowedAt (.cycTick ch) s.enc t.enc j := by
  obtain rfl := Host.Outcome.next.inj hx
  refine .of_rel (Enc.nextId_tick s.enc ch) (optionRel_imp ?_ (EntriesRetimed.tick h ch j))
  intro n n' hr
  have hself : n' ≠ n → Instr.cycTick ch = .cycTick n.ch := fun hne => by
    rw [not_not.mp (mt hr.elsewhere hne)]
  exact ⟨hr.ch, hr.interval, fun ht => absurd hr.table ht, fun hd => hself fun hn => hd (hn ▸ rfl),
    fun hst => .inl (hself fun hn => hst (hn ▸ rfl))⟩

end

/-- Every command does what is allowed: those of the ENC unit by what they write, the others because they write nothing of it
(00_scope.md rule R3). -/
theorem exec_allowedAt {P : Params} {i : Instr} {s t : State} (h : GoodEnc P s.enc) (hx : exec i s = .next t) (j : Nat) :
    AllowedAt i s.enc t.enc j := by
  have hframe := (unitsAreIsolated i s s t hx).2.1
  cases i with
  | pktLoad ch d => exact pktLoadWith_allowedAt j hx
  | pktNext ch => exact execPktNext_allowedAt j h.linked hx
  | pktConfig ch mode =>
    obtain rfl := Host.Outcome.next.inj hx
    exact .of_same rfl rfl
  | cycAdd ch d => exact cycAddWith_allowedAt j h hx
  | cycRemove id => exact execCycRemove_allowedAt j hx
  | cycReplace id d => exact execCycReplace_allowedAt j hx
  | cycTick ch => exact execCycTick_allowedAt j h hx
  | _ =>
    rw [hframe (by simp [Instr.unit])]
    exact .of_same rfl rfl

/-- Settles O60: the claim is `AllowedAt`, written out. -/
theorem entriesChangeOnlyByTheirCommands : Obligations.EntriesChangeOnlyByTheirCommands := by
  intro P i s t j h hx
  obtain ⟨hge, hle, happears, hdisappears, hchanges⟩ := exec_allowedAt h hx j
  refine ⟨hge, hle, happears, hdisappears, fun n n' hn hn' => ?_⟩
  obtain ⟨hch, hinterval, htable, hnextDue, hstate⟩ := hchanges n n' hn hn'
  exact ⟨hch, hinterval, htable, hnextDue, hstate⟩

end Sys2Proof.Machine
end

section
/-! PROOFS. Commands to different units commute (20_memory.md rule R80), from the isolation of the units. -/

namespace Sys2Proof.Machine

/-- The outcomes of two commands to different units leave the same units in either order. -/
theorem State.sameUnits_withOutcomeOf_comm {u v : TseUnit} (h : u ≠ v) (s a b : State) :
    SameUnits ((s.withOutcomeOf u a).withOutcomeOf v b) ((s.withOutcomeOf v b).withOutcomeOf u a) := by
  cases u with
  | crc => cases v <;> exact ⟨rfl, rfl⟩
  | dmx =>
    cases v with
    | dmx => exact absurd rfl h
    | crc => exact ⟨rfl, rfl⟩
    | enc => exact ⟨rfl, rfl⟩
  | enc =>
    cases v with
    | enc => exact absurd rfl h
    | crc => exact ⟨rfl, rfl⟩
    | dmx => exact ⟨rfl, rfl⟩

/-- A command to another unit may run before or after: the one that ran in its next state runs in its first state, with the same
outcome. -/
theorem exec_next_before_otherUnit {i j : Instr} {s s₁ s₂ : State} (hu : i.unit ≠ j.unit) (hi : exec i s = .next s₁)
    (hj : exec j s₁ = .next s₂) : exec j s = .next (s.withOutcomeOf j.unit s₂) := by
  obtain ⟨hdmx, henc, -, -⟩ := unitsAreIsolated i s s s₁ hi
  exact exec_next_of_sameUnit hj (fun hjd => (hdmx (hjd ▸ hu)).symm) (fun hje => (henc (hje ▸ hu)).symm)

/-- A command that ran before one to another unit runs behind it, with the same outcome. -/
theorem exec_next_after_otherUnit {i j : Instr} {s s₁ t : State} (hu : i.unit ≠ j.unit) (hi : exec i s = .next s₁)
    (hj : exec j s = .next t) : exec i t = .next (t.withOutcomeOf i.unit s₁) := by
  obtain ⟨hdmx, henc, -, -⟩ := unitsAreIsolated j s s t hj
  exact exec_next_of_sameUnit hi (fun hid => hdmx (hid ▸ hu.symm)) (fun hie => henc (hie ▸ hu.symm))

/-- Settles O16: each command has in the other order the outcome it had, and outcomes in different units commute. -/
theorem commandsToDifferentUnitsCommute : Obligations.CommandsToDifferentUnitsCommute := by
  intro i j s s₁ s₂ hu hi hj
  have hj' := exec_next_before_otherUnit hu hi hj
  have hi' := exec_next_after_otherUnit hu hi hj'
  have hs₂ : s₂ = (s.withOutcomeOf i.unit s₁).withOutcomeOf j.unit s₂ :=
    (exec_next_eq_withOutcomeOf hj).trans (congrArg (·.withOutcomeOf j.unit s₂) (exec_next_eq_withOutcomeOf hi))
  obtain ⟨hdmx, henc⟩ := State.sameUnits_withOutcomeOf_comm hu s s₁ s₂
  have hsame : SameUnits s₂ _ := ⟨hdmx.trans (congrArg State.dmx hs₂.symm), henc.trans (congrArg State.enc hs₂.symm)⟩
  exact ⟨_, _, hj', hi', hsame, rfl, rfl⟩

end Sys2Proof.Machine
end

section
/-! PROOFS. A FEED repeated straight after itself (20_memory.md rule R76). Behind the counter check nothing writes `last_cc`, so
the packet that was accepted is a duplicate when it comes again (41_reassembler.md rules R156 and R158). -/

namespace Sys2Proof.Machine

open Config

/-! ## What follows the counter check leaves the counter -/

section
variable {p : Params} {c : Channel} {r r' : Rx}

theorem aggregate_lastCc {s : Bytes} (h : aggregate p c r s = .ok r') : r'.chan.lastCc = r.chan.lastCc := by
  rcases aggregate_cases h with ⟨-, rfl⟩ | ⟨_, -, -, ⟨-, rfl⟩ | ⟨-, rfl⟩⟩
  · rfl
  · rfl
  · rfl

theorem closeSection_lastCc {s : Bytes} (h : closeSection p c r s = .ok r') : r'.chan.lastCc = r.chan.lastCc := by
  rcases closeSection_cases h with ⟨-, rfl⟩ | ⟨-, ha⟩
  · rfl
  · simpa using aggregate_lastCc ha

theorem appendByte_lastCc {b : Byte} {o : AppendOutcome} (h : appendByte p c r b = .ok (r', o)) :
    r'.chan.lastCc = r.chan.lastCc := by
  rcases appendByte_cases h with ⟨-, -, -, rfl⟩ | ⟨-, -, -, rfl⟩ | ⟨-, -, ⟨-, -, -, hc⟩ | ⟨-, -, rfl⟩⟩
  · rfl
  · rfl
  · simpa using closeSection_lastCc hc
  · rfl

theorem append_lastCc {bs rest : Bytes} {o : AppendOutcome} (h : append p c r bs = .ok (r', rest, o)) :
    r'.chan.lastCc = r.chan.lastCc := by
  induction bs generalizing r with
  | nil =>
    cases h
    rfl
  | cons b bs ih =>
    rw [append] at h
    cases hb : appendByte p c r b with
    | error e => simp [hb] at h
    | ok x =>
      obtain ⟨r₁, o₁⟩ := x
      have h₁ : r₁.chan.lastCc = r.chan.lastCc := appendByte_lastCc hb
      rw [hb] at h
      cases o₁ with
      | unfinished => exact (ih h).trans h₁
      | closed | bad =>
        cases h
        exact h₁

theorem finishPartial_lastCc {pre : Bytes} (h : finishPartial p c r pre = .ok r') : r'.chan.lastCc = r.chan.lastCc := by
  unfold finishPartial at h
  split at h
  · cases h
    rfl
  · cases ha : append p c r pre with
    | error e => simp [ha] at h
    | ok x =>
      obtain ⟨r₁, rest, o⟩ := x
      have h₁ : r₁.chan.lastCc = r.chan.lastCc := append_lastCc ha
      rw [ha] at h
      cases o with
      | unfinished | closed | bad =>
        cases h
        exact h₁

theorem parseSections_lastCc {bs : Bytes} (h : parseSections p c r bs = .ok r') : r'.chan.lastCc = r.chan.lastCc := by
  induction bs generalizing r with
  | nil =>
    cases h
    rfl
  | cons b bs ih =>
    rw [parseSections] at h
    split at h
    · cases h
      rfl
    · cases hb : appendByte p c r b with
      | error e => simp [hb] at h
      | ok x =>
        obtain ⟨r₁, o⟩ := x
        have h₁ : r₁.chan.lastCc = r.chan.lastCc := appendByte_lastCc hb
        rw [hb] at h
        cases o with
        | unfinished | closed => exact (ih h).trans h₁
        | bad =>
          cases h
          exact h₁

theorem startPacket_lastCc {pl : Bytes} (h : startPacket p c r pl = .ok r') : r'.chan.lastCc = r.chan.lastCc := by
  cases pl with
  | nil =>
    cases h
    rfl
  | cons ptr data =>
    rw [startPacket] at h
    split at h
    · cases h
      rfl
    · cases hf : finishPartial p c r (data.take ptr.toNat) with
      | error e => simp [hf] at h
      | ok r₁ =>
        rw [hf] at h
        exact (parseSections_lastCc h).trans (finishPartial_lastCc hf)

theorem continuePacket_lastCc {pl : Bytes} (h : continuePacket p c r pl = .ok r') : r'.chan.lastCc = r.chan.lastCc := by
  unfold continuePacket at h
  split at h
  · cases h
    rfl
  · cases ha : append p c r pl with
    | error e => simp [ha] at h
    | ok x =>
      rw [ha] at h
      cases h
      exact append_lastCc ha

end

/-- The counter check takes the packet's counter, with a discontinuity or without (rule R158). -/
@[simp] theorem takeCounter_lastCc (c : Channel) (rec : ChanRec) (cc : Counter) :
    (takeCounter c rec cc).chan.lastCc = some cc := by
  rcases takeCounter_cases c rec cc with ⟨-, ht⟩ | ⟨_, -, -, ht⟩
  · rw [ht]
  · rw [ht]

/-! ## The packet that comes again -/

section
variable {p : Params} {c : Channel} {rec : ChanRec} {cc : Counter} {pusi : Bool} {pl : Bytes} {r : Rx}

/-- A packet that is not scrambled leaves its channel's counter at its own, or has no payload (rules R154 and R158). -/
theorem feedPacket_lastCc (h : feedPacket p c rec cc pusi false pl = .ok r) : pl = [] ∨ r.chan.lastCc = some cc := by
  rcases feedPacket_cases p c rec cc pusi false pl with
    ⟨hs, -⟩ | ⟨-, hdup, heq⟩ | ⟨-, -, -, -, heq⟩ | ⟨-, -, -, -, heq⟩
  · cases hs
  · cases heq.symm.trans h
    exact hdup
  · exact .inr ((startPacket_lastCc (heq.symm.trans h)).trans (takeCounter_lastCc c rec cc))
  · exact .inr ((continuePacket_lastCc (heq.symm.trans h)).trans (takeCounter_lastCc c rec cc))

/-- A packet without payload, or with its channel's own counter, does nothing (rules R154 and R156). -/
theorem feedPacket_ignored (h : pl = [] ∨ rec.lastCc = some cc) :
    feedPacket p c rec cc pusi false pl = .ok ⟨rec, []⟩ := by
  rcases h with rfl | hcc
  · simp [feedPacket]
  · simp [feedPacket, hcc]

/-- A scrambled packet that comes again finds the counter it has left, and is skipped again (rule R153). -/
theorem feedPacket_scrambled_again (h : feedPacket p c rec cc pusi true pl = .ok r) :
    feedPacket p c r.chan cc pusi true pl = .ok ⟨r.chan, [.scrambledSkipped c]⟩ := by
  cases h
  cases hup : p.scrambledUpdatesCc && !pl.isEmpty <;> simp [feedPacket, hup]

/-- The packet that comes again straight after itself leaves the channel's record as it is. -/
theorem feedPacket_again {scr : Bool} (h : feedPacket p c rec cc pusi scr pl = .ok r) :
    feedPacket p c r.chan cc pusi scr pl = .ok ⟨r.chan, if scr = true then [.scrambledSkipped c] else []⟩ := by
  cases scr with
  | true => exact feedPacket_scrambled_again h
  | false => exact feedPacket_ignored (feedPacket_lastCc h)

end

/-! ## The command that comes again -/

section
variable {s t : State} {st : Status} {v : Option Value} {evs : List Event}

theorem Returned.status_eq (h : Returned s t st v evs) : t.status = some st := by
  simp [State.status, h.2]

theorem Returned.events_eq (h : Returned s t st v evs) : t.events = evs := by
  simp [State.events, h.2]

end

/-- A FEED straight after itself finds the record it has left, and ends OK again with the unit's channels as they are. -/
theorem feedGives_again {ch : Channel} {cc : Counter} {pusi scr : Bool} {pl : Bytes} {t : State} {rec : ChanRec} {r : Rx}
    (hpl : pl.length ≤ payloadMax) (h : feedPacket params ch rec cc pusi scr pl = .ok r)
    (hchan : t.dmx.chanAt ch = some r.chan) :
    FeedGives ch cc pusi scr pl t r.chan (if scr = true then [.scrambledSkipped ch] else []) := by
  have hrec : t.chanRec ch = r.chan := by simp [State.chanRec, hchan]
  exact feedGives_of_feedPacket hpl (hrec ▸ feedPacket_again h)

/-- Settles O39: an over-long payload fails again, and any other packet finds the record that it has left. -/
theorem feedRepeatedIsIdempotent : Obligations.FeedRepeatedIsIdempotent := by
  intro ch cc pusi scr pl s t h
  rcases feedWith_cases params ch cc pusi scr pl s with ⟨hlong, heq⟩ | ⟨hlen, ⟨e, -, heq⟩ | ⟨r, hr, -⟩⟩
  case inl =>
    obtain rfl := Host.Outcome.next.inj (heq.symm.trans h)
    refine ⟨_, if_pos hlong, fun c => rfl, rfl, rfl, ?_⟩
    rw [if_neg fun hscr => absurd hscr.2 (Nat.not_le.mpr hlong)]
    rfl
  case inr.inl => cases heq.symm.trans h
  case inr.inr =>
    obtain ⟨t', ht', hchan, -, -, hres⟩ := feedGives_of_feedPacket hlen hr
    obtain rfl := Host.Outcome.next.inj (ht'.symm.trans h)
    obtain ⟨u, hu, huchan, huelse, huenc, hures⟩ := feedGives_again hlen hr hchan
    refine ⟨u, hu, fun c => ?_, huenc, hures.status_eq.trans hres.status_eq.symm, ?_⟩
    · by_cases hc : c = ch
      · rw [hc, huchan, hchan]
      · exact huelse c hc
    · rw [hures.events_eq]
      exact if_congr (iff_self_and.mpr fun _ => hlen) rfl rfl

end Sys2Proof.Machine
end

section
/-! PROOFS. The encoding of the commands (30_encoding.md rules R91 to R94, R107 and R108): the fields of a header word, which
row of rule R93's table a word fits, and what the decoder reads from a word that fits a row. -/

namespace Sys2Proof

/-! ## The fields of a header word (rule R91) -/

section
variable (op : BitVec 4) (ch : Channel) (arg : BitVec 15)

/-- ARG is the low bits of the word: what is read there is read in ARG. -/
theorem extractLsb'_headerWord {k n : Nat} (h : k + n ≤ 15) :
    (headerWord op ch arg).extractLsb' k n = arg.extractLsb' k n :=
  BitVec.extractLsb'_append_eq_of_add_le h

theorem getLsbD_headerWord {k : Nat} (h : k < 15) : (headerWord op ch arg).getLsbD k = arg.getLsbD k := by
  rw [headerWord, BitVec.getLsbD_append, if_pos h]

@[simp] theorem argField_headerWord : argField (headerWord op ch arg) = arg := BitVec.extractLsb'_append_eq_right

@[simp] theorem chField_headerWord : chField (headerWord op ch arg) = ch :=
  (BitVec.extractLsb'_append_eq_of_le (Nat.le_refl 15)).trans BitVec.extractLsb'_append_eq_right

@[simp] theorem opField_headerWord : opField (headerWord op ch arg) = op :=
  (BitVec.extractLsb'_append_eq_of_le (by decide)).trans BitVec.extractLsb'_append_eq_left

end

/-- A word is its three fields. -/
theorem headerWord_fields (w : Word) : headerWord (opField w) (chField w) (argField w) = w :=
  calc opField w ++ chField w ++ argField w = w.extractLsb' 15 17 ++ w.extractLsb' 0 15 :=
        congrArg (· ++ argField w) (BitVec.extractLsb'_append_extractLsb'_eq_extractLsb' rfl)
    _ = w := BitVec.extractLsb'_append_extractLsb'

theorem headerWord_eq_of_fields {w : Word} {op : BitVec 4} {ch : Channel} {arg : BitVec 15} (hop : opField w = op)
    (hch : chField w = ch) (harg : argField w = arg) : headerWord op ch arg = w := by
  rw [← hop, ← hch, ← harg, headerWord_fields]

theorem headerWord_inj {op op' : BitVec 4} {ch ch' : Channel} {arg arg' : BitVec 15} :
    headerWord op ch arg = headerWord op' ch' arg' ↔ op = op' ∧ ch = ch' ∧ arg = arg' := by
  constructor
  · intro h
    exact ⟨by simpa using congrArg opField h, by simpa using congrArg chField h, by simpa using congrArg argField h⟩
  · rintro ⟨rfl, rfl, rfl⟩
    rfl

theorem extractLsb'_argField (w : Word) {k n : Nat} (h : k + n ≤ 15) :
    (argField w).extractLsb' k n = w.extractLsb' k n := BitVec.extractLsb'_extractLsb'_of_le h

/-- A field of one bit is that bit. -/
theorem extractLsb'_one {v : Nat} (x : BitVec v) (k : Nat) : x.extractLsb' k 1 = BitVec.ofBool (x.getLsbD k) := by
  ext j hj
  obtain rfl : j = 0 := by omega
  simp

theorem extractLsb'_one_eq_zero_iff {v : Nat} (x : BitVec v) (k : Nat) : x.extractLsb' k 1 = 0#1 ↔ x.getLsbD k = false := by
  rw [extractLsb'_one]
  cases x.getLsbD k <;> decide

/-! ## The words that fit a row (rule R93) -/

/-- The mask of the bits `k .. k + n - 1` of ARG. -/
def argMask (k n : Nat) : BitVec 15 := (BitVec.allOnes n).setWidth 15 <<< k

theorem and_argMask_eq_zero_iff (x : BitVec 15) {k n : Nat} (h : k + n ≤ 15) :
    x &&& argMask k n = 0#15 ↔ x.extractLsb' k n = 0#n := by
  constructor
  · intro hx
    ext j hj
    have hbit := congrArg (·.getLsbD (k + j)) hx
    have hlt : k + j < 15 := by omega
    simpa [argMask, hj, hlt] using hbit
  · intro hx
    ext j hj
    by_cases hin : k ≤ j ∧ j < k + n
    · have hbit := congrArg (·.getLsbD (j - k)) hx
      have hlt : j - k < n := by omega
      have hpos : k + (j - k) = j := by omega
      have hx' : x.getLsbD j = false := by simpa [hlt, hpos] using hbit
      simp [BitVec.getLsbD_eq_getElem hj ▸ hx']
    · simp only [argMask, BitVec.getElem_and, BitVec.getElem_shiftLeft, BitVec.getElem_setWidth, BitVec.getLsbD_allOnes,
        BitVec.getElem_zero]
      have hout : j < k ∨ ¬j - k < n := by omega
      rcases hout with hout | hout <;> simp [hout]

/-- Rule R93's test of a row that fixes OP, all of CH or nothing of it, and the bits `k .. k + n - 1` of ARG. -/
theorem fits_iff_of_argMask {r : OpcodeRow} {op : BitVec 4} {mch : Channel} (k n : Nat) (hkn : k + n ≤ 15)
    (hmask : r.mask = headerWord (BitVec.allOnes 4) mch (argMask k n)) (hmatch : r.matchBits = headerWord op 0#13 0#15)
    (w : Word) : r.fits w = true ↔ opField w = op ∧ chField w &&& mch = 0#13 ∧ w.extractLsb' k n = 0#n := by
  have hw : w &&& r.mask =
      headerWord (opField w &&& BitVec.allOnes 4) (chField w &&& mch) (argField w &&& argMask k n) := by
    rw [hmask, ← Laws.headerWord_and, headerWord_fields]
  rw [OpcodeRow.fits, decide_eq_true_eq, hw, hmatch, headerWord_inj, BitVec.and_allOnes,
    and_argMask_eq_zero_iff _ hkn, extractLsb'_argField w hkn]

theorem fits_channel_iff {r : OpcodeRow} {op : BitVec 4} (k n : Nat) (hkn : k + n ≤ 15)
    (hmask : r.mask = headerWord (BitVec.allOnes 4) 0#13 (argMask k n)) (hmatch : r.matchBits = headerWord op 0#13 0#15)
    (w : Word) : r.fits w = true ↔ opField w = op ∧ w.extractLsb' k n = 0#n := by
  rw [fits_iff_of_argMask k n hkn hmask hmatch, BitVec.and_zero, eq_self, true_and]

theorem fits_noChannel_iff {r : OpcodeRow} {op : BitVec 4} (k n : Nat) (hkn : k + n ≤ 15)
    (hmask : r.mask = headerWord (BitVec.allOnes 4) (BitVec.allOnes 13) (argMask k n))
    (hmatch : r.matchBits = headerWord op 0#13 0#15) (w : Word) :
    r.fits w = true ↔ opField w = op ∧ chField w = 0#13 ∧ w.extractLsb' k n = 0#n := by
  rw [fits_iff_of_argMask k n hkn hmask hmatch, BitVec.and_allOnes]

theorem fits_entryId_iff {r : OpcodeRow} {op : BitVec 4}
    (hmask : r.mask = headerWord (BitVec.allOnes 4) (BitVec.allOnes 13) (argMask 0 0))
    (hmatch : r.matchBits = headerWord op 0#13 0#15) (w : Word) :
    r.fits w = true ↔ opField w = op ∧ chField w = 0#13 := by
  rw [fits_noChannel_iff 0 0 (by decide) hmask hmatch, BitVec.extractLsb'_eq_zero, eq_self, and_true]

/-- The fixed bits of an instruction's row, field by field (rules R92 to R94): OP, a CH of 0 where the command names no channel,
and the bits of ARG it does not use. -/
def Instr.FixedBits (i : Instr) (w : Word) : Prop :=
  match i with
  | .feed _ _ _ _ _ => opField w = 0x1#4 ∧ w.getLsbD 14 = false
  | .dmxReset _ => opField w = 0x2#4 ∧ argField w = 0#15
  | .dmxResetAll => opField w = 0x3#4 ∧ chField w = 0#13 ∧ argField w = 0#15
  | .crcCompute _ => opField w = 0x4#4 ∧ chField w = 0#13 ∧ w.extractLsb' 13 2 = 0#2
  | .crcVerify _ => opField w = 0x5#4 ∧ chField w = 0#13 ∧ w.extractLsb' 13 2 = 0#2
  | .pktLoad _ _ => opField w = 0x6#4 ∧ w.extractLsb' 13 2 = 0#2
  | .pktNext _ => opField w = 0x7#4 ∧ argField w = 0#15
  | .pktConfig _ _ => opField w = 0x8#4 ∧ w.extractLsb' 1 14 = 0#14
  | .cycAdd _ _ => opField w = 0x9#4 ∧ argField w = 0#15
  | .cycRemove _ => opField w = 0xA#4 ∧ chField w = 0#13
  | .cycReplace _ _ => opField w = 0xB#4 ∧ chField w = 0#13
  | .cycTick _ => opField w = 0xC#4 ∧ argField w = 0#15

/-- Rule R93's table is the fixed bits of rule R94. -/
theorem row_fits_iff (i : Instr) (w : Word) : i.row.fits w = true ↔ i.FixedBits w := by
  cases i with
  | feed =>
    exact (fits_channel_iff (op := 0x1#4) 14 1 (by decide) rfl rfl w).trans
      (and_congr_right' (extractLsb'_one_eq_zero_iff w 14))
  | dmxReset | pktNext | cycAdd | cycTick => exact fits_channel_iff 0 15 (by decide) rfl rfl w
  | dmxResetAll => exact fits_noChannel_iff 0 15 (by decide) rfl rfl w
  | crcCompute | crcVerify => exact fits_noChannel_iff 13 2 (by decide) rfl rfl w
  | pktLoad => exact fits_channel_iff 13 2 (by decide) rfl rfl w
  | pktConfig => exact fits_channel_iff 1 14 (by decide) rfl rfl w
  | cycRemove | cycReplace => exact fits_entryId_iff rfl rfl w

/-- The header word of an instruction's command has its row's fixed bits. -/
theorem fixedBits_encode (i : Instr) : i.FixedBits (encode i).header := by
  rw [← row_fits_iff]
  cases i with
  | feed ch cc pusi scr payload => exact Laws.HeaderFitsRow.feed ch cc pusi scr payload
  | dmxReset ch => exact Laws.HeaderFitsRow.dmxReset ch
  | dmxResetAll => exact Laws.HeaderFitsRow.dmxResetAll
  | crcCompute data => exact Laws.HeaderFitsRow.crcCompute data
  | crcVerify data => exact Laws.HeaderFitsRow.crcVerify data
  | pktLoad ch data => exact Laws.HeaderFitsRow.pktLoad ch data
  | pktNext ch => exact Laws.HeaderFitsRow.pktNext ch
  | pktConfig ch mode => exact Laws.HeaderFitsRow.pktConfig ch mode
  | cycAdd ch data => exact Laws.HeaderFitsRow.cycAdd ch data
  | cycRemove id => exact Laws.HeaderFitsRow.cycRemove id
  | cycReplace id data => exact Laws.HeaderFitsRow.cycReplace id data
  | cycTick ch => exact Laws.HeaderFitsRow.cycTick ch

/-! ## What the decoder reads (rules R94 and R108) -/

/-- The length that the header fixes for the data operand of an instruction's command (rule R108); CYC_ADD and CYC_REPLACE take
any. -/
def Instr.operandLength (i : Instr) (w : Word) : Option Nat :=
  match i with
  | .feed _ _ _ _ _ => some (feedLength w)
  | .crcCompute _ | .crcVerify _ | .pktLoad _ _ => some (sectionLength w)
  | .cycAdd _ _ | .cycReplace _ _ => none
  | .dmxReset _ | .dmxResetAll | .pktNext _ | .pktConfig _ _ | .cycRemove _ | .cycTick _ => some 0

/-- The data operand has the length that the header fixes, if it fixes one. -/
def Instr.OperandFits (i : Instr) (c : Command) : Prop := ∀ n ∈ i.operandLength c.header, c.data.length = n

/-- The instruction of `i`'s row with the operands that a command carries (rule R94). -/
def Instr.withOperandsOf (i : Instr) (c : Command) : Instr :=
  match i with
  | .feed _ _ _ _ _ =>
    .feed (chField c.header) (c.header.extractLsb' 0 4) (c.header.getLsbD 4) (c.header.getLsbD 5) c.data
  | .dmxReset _ => .dmxReset (chField c.header)
  | .dmxResetAll => .dmxResetAll
  | .crcCompute _ => .crcCompute c.data
  | .crcVerify _ => .crcVerify c.data
  | .pktLoad _ _ => .pktLoad (chField c.header) c.data
  | .pktNext _ => .pktNext (chField c.header)
  | .pktConfig _ _ => .pktConfig (chField c.header) (modeOfBit (c.header.getLsbD 0))
  | .cycAdd _ _ => .cycAdd (chField c.header) c.data
  | .cycRemove _ => .cycRemove (argField c.header)
  | .cycReplace _ _ => .cycReplace (argField c.header) c.data
  | .cycTick _ => .cycTick (chField c.header)

/-- The instruction is FEED. -/
def Instr.IsFeed (i : Instr) : Prop := ∃ ch cc pusi scr payload, i = .feed ch cc pusi scr payload

/-- The instruction read from a command is FEED only on FEED's row. -/
theorem isFeed_withOperandsOf_iff {i : Instr} {c : Command} : (i.withOperandsOf c).IsFeed ↔ i.IsFeed := by
  cases i <;> simp [Instr.IsFeed, Instr.withOperandsOf]

/-- The decoder on a word that fits a row: that row's instruction, unless the header fixes another operand length. -/
theorem decode_of_fixedBits {i : Instr} {c : Command} (h : i.FixedBits c.header) :
    decode c = withOperand ((i.operandLength c.header).getD c.data.length) c.data (i.withOperandsOf c) := by
  cases i with
  | feed =>
    obtain ⟨hop, hbit⟩ := h
    simp only [decode, hop, hbit, Instr.operandLength, Instr.withOperandsOf]
    rfl
  | dmxReset | pktNext | cycTick | pktConfig | pktLoad | cycRemove =>
    obtain ⟨hop, hfixed⟩ := h
    simp [decode, hop, hfixed, Instr.operandLength, Instr.withOperandsOf]
  | dmxResetAll | crcCompute | crcVerify =>
    obtain ⟨hop, hch, harg⟩ := h
    simp [decode, hop, hch, harg, Instr.operandLength, Instr.withOperandsOf]
  | cycAdd | cycReplace =>
    obtain ⟨hop, hfixed⟩ := h
    simp [decode, hop, hfixed, Instr.operandLength, Instr.withOperandsOf, withOperand]

theorem operandFits_of_none {i : Instr} {c : Command} (h : i.operandLength c.header = none) : i.OperandFits c := by
  simp [Instr.OperandFits, h]

theorem operandFits_iff_of_some {i : Instr} {c : Command} {n : Nat} (h : i.operandLength c.header = some n) :
    i.OperandFits c ↔ c.data.length = n := by
  simp [Instr.OperandFits, h]

theorem decode_of_operandFits {i : Instr} {c : Command} (h : i.FixedBits c.header) (hn : i.OperandFits c) :
    decode c = .ok (i.withOperandsOf c) := by
  rw [decode_of_fixedBits h, withOperand, if_pos]
  cases hlen : i.operandLength c.header with
  | none => rfl
  | some n => exact hn n hlen

theorem decode_of_not_operandFits {i : Instr} {c : Command} (h : i.FixedBits c.header)
    (hn : ¬i.OperandFits c) : decode c = .error .operandLength := by
  rw [decode_of_fixedBits h, withOperand, if_neg]
  intro hlen
  exact hn fun n hsome => hlen.trans (congrArg (Option.getD · _) hsome)

/-- A command that is not ILLEGAL has the fixed bits of a row: the one whose OP it has. -/
theorem exists_fixedBits_of_decode {c : Command} (h : decode c ≠ .error .illegal) : ∃ i : Instr, i.FixedBits c.header := by
  unfold decode at h
  dsimp only at h
  split at h
  next hop =>
    have hbit := Bool.eq_false_of_not_eq_true (ite_ne_left_iff.mp h).1
    exact ⟨.feed 0 0 false false [], BitVec.eq_of_toNat_eq hop, hbit⟩
  next hop => exact ⟨.dmxReset 0, BitVec.eq_of_toNat_eq hop, (ite_ne_right_iff.mp h).1⟩
  next hop => exact ⟨.dmxResetAll, BitVec.eq_of_toNat_eq hop, (ite_ne_right_iff.mp h).1⟩
  next hop => exact ⟨.crcCompute [], BitVec.eq_of_toNat_eq hop, (ite_ne_right_iff.mp h).1⟩
  next hop => exact ⟨.crcVerify [], BitVec.eq_of_toNat_eq hop, (ite_ne_right_iff.mp h).1⟩
  next hop => exact ⟨.pktLoad 0 [], BitVec.eq_of_toNat_eq hop, (ite_ne_right_iff.mp h).1⟩
  next hop => exact ⟨.pktNext 0, BitVec.eq_of_toNat_eq hop, (ite_ne_right_iff.mp h).1⟩
  next hop => exact ⟨.pktConfig 0 .stuff, BitVec.eq_of_toNat_eq hop, (ite_ne_right_iff.mp h).1⟩
  next hop => exact ⟨.cycAdd 0 [], BitVec.eq_of_toNat_eq hop, (ite_ne_right_iff.mp h).1⟩
  next hop => exact ⟨.cycRemove 0, BitVec.eq_of_toNat_eq hop, (ite_ne_right_iff.mp h).1⟩
  next hop => exact ⟨.cycReplace 0 [], BitVec.eq_of_toNat_eq hop, (ite_ne_right_iff.mp h).1⟩
  next hop => exact ⟨.cycTick 0, BitVec.eq_of_toNat_eq hop, (ite_ne_right_iff.mp h).1⟩
  next => exact absurd rfl h

/-- What the decoder can do: an ILLEGAL word fits no row; else the word fits a row, and the operand has the length that the header
fixes, or not. -/
theorem decode_cases (c : Command) :
    (decode c = .error .illegal ∧ ∀ i : Instr, ¬i.FixedBits c.header) ∨
      ∃ i : Instr, i.FixedBits c.header ∧ ((i.OperandFits c ∧ decode c = .ok (i.withOperandsOf c)) ∨
        (¬i.OperandFits c ∧ decode c = .error .operandLength)) := by
  by_cases hill : decode c = .error .illegal
  · refine .inl ⟨hill, fun i hi => ?_⟩
    by_cases hn : i.OperandFits c
    · cases hill.symm.trans (decode_of_operandFits hi hn)
    · cases hill.symm.trans (decode_of_not_operandFits hi hn)
  · obtain ⟨i, hi⟩ := exists_fixedBits_of_decode hill
    refine .inr ⟨i, hi, ?_⟩
    by_cases hn : i.OperandFits c
    · exact .inl ⟨hn, decode_of_operandFits hi hn⟩
    · exact .inr ⟨hn, decode_of_not_operandFits hi hn⟩

/-! ## What the encoder writes -/

section
variable (n : Nat) (scr pusi : Bool) (cc : Counter)

theorem feedArg_payloadLength : (feedArg n scr pusi cc).extractLsb' 6 8 = BitVec.ofNat 8 n := by
  rw [feedArg, BitVec.extractLsb'_append_eq_of_le (by decide), BitVec.extractLsb'_append_eq_of_le (by decide),
    BitVec.extractLsb'_append_eq_of_le (by decide)]
  exact BitVec.extractLsb'_append_eq_right

theorem feedArg_scr : (feedArg n scr pusi cc).getLsbD 5 = scr := by
  rw [feedArg, BitVec.getLsbD_append, if_neg (by decide), BitVec.getLsbD_append, if_neg (by decide), BitVec.getLsbD_append,
    if_pos (by decide)]
  simp

theorem feedArg_pusi : (feedArg n scr pusi cc).getLsbD 4 = pusi := by
  rw [feedArg, BitVec.getLsbD_append, if_neg (by decide), BitVec.getLsbD_append, if_pos (by decide)]
  simp

theorem feedArg_cc : (feedArg n scr pusi cc).extractLsb' 0 4 = cc := BitVec.extractLsb'_append_eq_right

end

theorem feedLength_headerWord (op : BitVec 4) (ch : Channel) {n : Nat} (hn : n < 256) (scr pusi : Bool) (cc : Counter) :
    feedLength (headerWord op ch (feedArg n scr pusi cc)) = n := by
  rw [feedLength, extractLsb'_headerWord _ _ _ (by decide), feedArg_payloadLength, BitVec.toNat_ofNat]
  exact Nat.mod_eq_of_lt hn

theorem sectionLength_headerWord (op : BitVec 4) (ch : Channel) {n : Nat} (hn : n < 8192) :
    sectionLength (headerWord op ch (lengthArg n)) = n := by
  rw [sectionLength, extractLsb'_headerWord _ _ _ (by decide), lengthArg, BitVec.extractLsb'_append_eq_right,
    BitVec.toNat_ofNat]
  exact Nat.mod_eq_of_lt hn

@[simp] theorem modeOfBit_bitOfMode (m : PktMode) : modeOfBit (bitOfMode m) = m := by cases m <;> rfl
@[simp] theorem bitOfMode_modeOfBit (b : Bool) : bitOfMode (modeOfBit b) = b := by cases b <;> rfl

/-- Every operand is read back from where it is written. -/
theorem withOperandsOf_encode (i : Instr) : i.withOperandsOf (encode i) = i := by
  cases i with
  | feed ch cc pusi scr payload =>
    simp only [Instr.withOperandsOf, encode, chField_headerWord]
    rw [extractLsb'_headerWord _ _ _ (by decide), getLsbD_headerWord _ _ _ (by decide),
      getLsbD_headerWord _ _ _ (by decide), feedArg_cc, feedArg_pusi, feedArg_scr]
  | pktConfig ch m =>
    simp only [Instr.withOperandsOf, encode, chField_headerWord]
    rw [getLsbD_headerWord _ _ _ (by decide), BitVec.getLsbD_append, if_pos (by decide)]
    simp
  | dmxReset ch | pktNext ch | cycTick ch => simp only [Instr.withOperandsOf, encode, chField_headerWord]
  | cycAdd ch data | pktLoad ch data => simp only [Instr.withOperandsOf, encode, chField_headerWord]
  | cycRemove id => simp only [Instr.withOperandsOf, encode, argField_headerWord]
  | cycReplace id data => simp only [Instr.withOperandsOf, encode, argField_headerWord]
  | dmxResetAll | crcCompute | crcVerify => rfl

/-- The length field of a well-formed instruction's command holds the length of its data operand (rule R94). -/
theorem operandFits_encode {i : Instr} (h : i.wellFormed = true) : i.OperandFits (encode i) := by
  intro n hn
  cases i with
  | feed ch cc pusi scr payload =>
    obtain rfl := Option.some.inj hn
    exact (feedLength_headerWord _ _ (of_decide_eq_true h) _ _ _).symm
  | crcCompute data | crcVerify data | pktLoad ch data =>
    obtain rfl := Option.some.inj hn
    exact (sectionLength_headerWord _ _ (of_decide_eq_true h)).symm
  | dmxReset | dmxResetAll | pktNext | pktConfig | cycRemove | cycTick => exact Option.some.inj hn
  | cycAdd | cycReplace => cases hn

/-- Settles O1: the word has its row's fixed bits, and every field is read back. -/
theorem decodeOfEncode : Obligations.DecodeOfEncode := by
  intro i h
  rw [decode_of_operandFits (fixedBits_encode i) (operandFits_encode h), withOperandsOf_encode]

/-! ## The command of what was read -/


section
variable {w : Word}

theorem feedArg_of_bit (h : w.getLsbD 14 = false) :
    feedArg (feedLength w) (w.getLsbD 5) (w.getLsbD 4) (w.extractLsb' 0 4) = argField w := by
  rw [feedArg, feedLength, BitVec.ofNat_toNat, BitVec.setWidth_eq, ← extractLsb'_one, ← extractLsb'_one,
    ← (extractLsb'_one_eq_zero_iff w 14).mpr h]
  iterate 4 rw [BitVec.extractLsb'_append_extractLsb'_eq_extractLsb' (by rfl)]
  rfl

theorem lengthArg_of_bits (h : w.extractLsb' 13 2 = 0#2) : lengthArg (sectionLength w) = argField w := by
  rw [lengthArg, sectionLength, BitVec.ofNat_toNat, BitVec.setWidth_eq, ← h,
    BitVec.extractLsb'_append_extractLsb'_eq_extractLsb' (by rfl)]
  rfl

theorem modeArg_of_bits (h : w.extractLsb' 1 14 = 0#14) : 0#14 ++ BitVec.ofBool (w.getLsbD 0) = argField w := by
  rw [← h, ← extractLsb'_one, BitVec.extractLsb'_append_extractLsb'_eq_extractLsb' (by rfl)]
  rfl

end

/-- No bit of a header word is ignored: the fixed bits are the row's, and every other one is a bit of an operand. -/
theorem encode_withOperandsOf {i : Instr} {c : Command} (h : i.FixedBits c.header) (hn : i.OperandFits c) :
    encode (i.withOperandsOf c) = c := by
  obtain ⟨w, d⟩ := c
  cases i with
  | feed =>
    obtain ⟨hop, hbit⟩ := h
    have hlen : d.length = feedLength w := hn _ rfl
    exact congrArg (Command.mk · d) (headerWord_eq_of_fields hop rfl (hlen ▸ (feedArg_of_bit hbit).symm))
  | pktLoad =>
    obtain ⟨hop, hbits⟩ := h
    have hlen : d.length = sectionLength w := hn _ rfl
    exact congrArg (Command.mk · d) (headerWord_eq_of_fields hop rfl (hlen ▸ (lengthArg_of_bits hbits).symm))
  | crcCompute | crcVerify =>
    obtain ⟨hop, hch, hbits⟩ := h
    have hlen : d.length = sectionLength w := hn _ rfl
    exact congrArg (Command.mk · d) (headerWord_eq_of_fields hop hch (hlen ▸ (lengthArg_of_bits hbits).symm))
  | pktConfig =>
    obtain ⟨hop, hbits⟩ := h
    obtain rfl : d = [] := List.length_eq_zero_iff.mp (hn _ rfl)
    refine congrArg (Command.mk · []) (headerWord_eq_of_fields hop rfl ?_)
    rw [bitOfMode_modeOfBit, modeArg_of_bits hbits]
  | dmxReset | pktNext | cycTick =>
    obtain ⟨hop, harg⟩ := h
    obtain rfl : d = [] := List.length_eq_zero_iff.mp (hn _ rfl)
    exact congrArg (Command.mk · []) (headerWord_eq_of_fields hop rfl harg)
  | dmxResetAll =>
    obtain ⟨hop, hch, harg⟩ := h
    obtain rfl : d = [] := List.length_eq_zero_iff.mp (hn _ rfl)
    exact congrArg (Command.mk · []) (headerWord_eq_of_fields hop hch harg)
  | cycRemove =>
    obtain ⟨hop, hch⟩ := h
    obtain rfl : d = [] := List.length_eq_zero_iff.mp (hn _ rfl)
    exact congrArg (Command.mk · []) (headerWord_eq_of_fields hop hch rfl)
  | cycAdd =>
    obtain ⟨hop, harg⟩ := h
    exact congrArg (Command.mk · d) (headerWord_eq_of_fields hop rfl harg)
  | cycReplace =>
    obtain ⟨hop, hch⟩ := h
    exact congrArg (Command.mk · d) (headerWord_eq_of_fields hop hch rfl)

/-- A length that stands in the header's field is within the field (rule R94). -/
theorem wellFormed_withOperandsOf {i : Instr} {c : Command} (hn : i.OperandFits c) : (i.withOperandsOf c).wellFormed = true := by
  cases i with
  | feed =>
    have hlen : c.data.length = feedLength c.header := hn _ rfl
    exact decide_eq_true (hlen ▸ BitVec.isLt _)
  | crcCompute | crcVerify | pktLoad =>
    have hlen : c.data.length = sectionLength c.header := hn _ rfl
    exact decide_eq_true (hlen ▸ BitVec.isLt _)
  | dmxReset | dmxResetAll | pktNext | pktConfig | cycAdd | cycRemove | cycReplace | cycTick => rfl

/-- A command that decodes fits a row, and its instruction is read from it. -/
theorem eq_withOperandsOf_of_decode {c : Command} {i : Instr} (h : decode c = .ok i) :
    ∃ j : Instr, j.FixedBits c.header ∧ j.OperandFits c ∧ i = j.withOperandsOf c := by
  rcases decode_cases c with ⟨hill, -⟩ | ⟨j, hj, ⟨hn, hok⟩ | ⟨-, hlen⟩⟩
  · cases hill.symm.trans h
  · exact ⟨j, hj, hn, Except.ok.inj (h.symm.trans hok)⟩
  · cases hlen.symm.trans h

/-- Settles O2: the instruction is read from all of the command, so that encoding it gives the command back. -/
theorem encodeOfDecode : Obligations.EncodeOfDecode := by
  intro c i h
  obtain ⟨j, hj, hn, rfl⟩ := eq_withOperandsOf_of_decode h
  exact ⟨wellFormed_withOperandsOf hn, encode_withOperandsOf hj hn⟩

/-! ## The opcode table (rule R93) -/

/-- The table holds the row of every instruction, and no other. -/
theorem mem_opcodeTable_iff {r : OpcodeRow} : r ∈ opcodeTable ↔ ∃ i : Instr, i.row = r := by
  constructor
  · intro h
    simp only [opcodeTable, List.mem_cons, List.not_mem_nil, or_false] at h
    rcases h with rfl | rfl | rfl | rfl | rfl | rfl | rfl | rfl | rfl | rfl | rfl | rfl <;> exact ⟨_, rfl⟩
  · rintro ⟨i, rfl⟩
    cases i <;> simp [opcodeTable, Instr.row]

theorem forall_opcodeTable_iff {w : Word} : (∀ r ∈ opcodeTable, r.fits w = false) ↔ ∀ i : Instr, ¬i.FixedBits w := by
  simp only [mem_opcodeTable_iff, forall_exists_index, forall_apply_eq_imp_iff, ← row_fits_iff, Bool.not_eq_true]

/-- The ILLEGAL words are those that fit no row (rules R93 and R107). -/
theorem decode_illegal_iff {c : Command} : decode c = .error .illegal ↔ ∀ r ∈ opcodeTable, r.fits c.header = false := by
  rw [forall_opcodeTable_iff]
  rcases decode_cases c with ⟨hill, hnone⟩ | ⟨j, hj, ⟨-, hok⟩ | ⟨-, hlen⟩⟩
  · exact iff_of_true hill hnone
  · exact iff_of_false (by simp [hok]) fun h => h j hj
  · exact iff_of_false (by simp [hlen]) fun h => h j hj

/-- Every row fixes the whole of OP. -/
theorem opField_mask : ∀ r ∈ opcodeTable, opField r.mask = BitVec.allOnes 4 := by decide

theorem opField_eq_of_fits {r : OpcodeRow} (hr : r ∈ opcodeTable) {w : Word} (h : r.fits w = true) :
    opField w = opField r.matchBits :=
  calc opField w = opField w &&& opField r.mask := by rw [opField_mask r hr, BitVec.and_allOnes]
    _ = opField (w &&& r.mask) := BitVec.extractLsb'_and.symm
    _ = opField r.matchBits := congrArg opField (of_decide_eq_true h)

/-- The rows have different OPs (rule R93). -/
theorem row_eq_of_opField_eq : ∀ r₁ ∈ opcodeTable, ∀ r₂ ∈ opcodeTable,
    opField r₁.matchBits = opField r₂.matchBits → r₁ = r₂ := by decide

theorem row_of_decode {c : Command} {i : Instr} (h : decode c = .ok i) : i.row.fits c.header = true := by
  obtain ⟨-, rfl⟩ := encodeOfDecode c i h
  exact (row_fits_iff i _).mpr (fixedBits_encode i)

/-- Settles O3: a command that decodes is the encoding of its instruction, whose word fits its row; the ILLEGAL words are read off
from the decoder's cases; and the rows differ in OP. -/
theorem wordIsOpcodeExactlyByMask : Obligations.WordIsOpcodeExactlyByMask := by
  refine ⟨fun c i h => ⟨row_of_decode h, mem_opcodeTable_iff.mpr ⟨i, rfl⟩⟩, fun c => decode_illegal_iff, ?_⟩
  intro w r₁ r₂ hr₁ hr₂ h₁ h₂
  exact row_eq_of_opField_eq r₁ hr₁ r₂ hr₂ ((opField_eq_of_fits hr₁ h₁).symm.trans (opField_eq_of_fits hr₂ h₂))

/-- Settles O4. -/
theorem handWrittenWordsDecode : Obligations.HandWrittenWordsDecode := ⟨rfl, rfl, rfl, rfl, rfl, rfl⟩

end Sys2Proof
end

section
/-! PROOFS. How a command ends (30_encoding.md rule R95, 60_exceptions.md rules R270 and R271): the results that a meaning can
give, and the one refusal. -/

namespace Sys2Proof.Machine

open Config

/-! ## FEED's one refusal (42_demux.md rule R197) -/

/-- The work is refused, if at all, for AGG_CAPACITY. -/
def RefusedForCapacity {α : Type} (o : Except Refusal α) : Prop := ∀ e, o = .error e → e = .aggregationCapacity

theorem RefusedForCapacity.ok {α : Type} (a : α) : RefusedForCapacity (.ok a) := fun _ h => nomatch h

/-- The refusal of a part is the refusal of the whole. -/
theorem RefusedForCapacity.error {α β : Type} {o : Except Refusal α} (h : RefusedForCapacity o) {e : Refusal}
    (he : o = .error e) : RefusedForCapacity (.error e : Except Refusal β) := fun _ h' => by
  cases h'
  exact h e he

section
variable (p : Params) (c : Channel)

theorem aggregate_refusedForCapacity (r : Rx) (s : Bytes) : RefusedForCapacity (aggregate p c r s) := by
  unfold aggregate
  split
  · exact .ok _
  · rcases aggFor_cases (p := p) (m := r.chan.aggs) (k := aggKey (secTableId s) (secExt s)) (v := secVersion s)
      (l := secLastSn s) with ⟨_, -, -, -, h⟩ | ⟨_, -, -, h⟩ | ⟨-, -, h⟩ | ⟨-, -, h⟩
    all_goals simp only [h]
    case inr.inr.inr => exact fun _ h' => (Except.error.inj h').symm
    all_goals split <;> exact .ok _

theorem closeSection_refusedForCapacity (r : Rx) (s : Bytes) : RefusedForCapacity (closeSection p c r s) := by
  unfold closeSection
  split
  · exact aggregate_refusedForCapacity p c _ s
  · exact .ok _

theorem appendByte_refusedForCapacity (r : Rx) (b : Byte) : RefusedForCapacity (appendByte p c r b) := by
  unfold appendByte
  dsimp only
  split
  · exact .ok _
  split
  · exact .ok _
  split
  · split
    next he => exact (closeSection_refusedForCapacity p c _ _).error he
    next => exact .ok _
  · exact .ok _

theorem append_refusedForCapacity (r : Rx) (bs : Bytes) : RefusedForCapacity (append p c r bs) := by
  induction bs generalizing r with
  | nil => exact .ok _
  | cons b bs ih =>
    rw [append]
    split
    next he => exact (appendByte_refusedForCapacity p c r b).error he
    next => exact ih _
    next => exact .ok _
    next => exact .ok _

theorem finishPartial_refusedForCapacity (r : Rx) (pre : Bytes) : RefusedForCapacity (finishPartial p c r pre) := by
  unfold finishPartial
  split
  · exact .ok _
  · split
    next he => exact (append_refusedForCapacity p c r pre).error he
    next => exact .ok _
    next => exact .ok _

theorem parseSections_refusedForCapacity (r : Rx) (bs : Bytes) : RefusedForCapacity (parseSections p c r bs) := by
  induction bs generalizing r with
  | nil => exact .ok _
  | cons b bs ih =>
    rw [parseSections]
    split
    · exact .ok _
    · split
      next he => exact (appendByte_refusedForCapacity p c r b).error he
      next => exact .ok _
      next => exact ih _
      next => exact ih _

theorem startPacket_refusedForCapacity (r : Rx) (payload : Bytes) : RefusedForCapacity (startPacket p c r payload) := by
  cases payload with
  | nil => exact .ok _
  | cons ptr data =>
    rw [startPacket]
    split
    · exact .ok _
    · split
      next he => exact (finishPartial_refusedForCapacity p c r _).error he
      next => exact parseSections_refusedForCapacity p c _ _

theorem continuePacket_refusedForCapacity (r : Rx) (payload : Bytes) :
    RefusedForCapacity (continuePacket p c r payload) := by
  unfold continuePacket
  split
  · exact .ok _
  · split
    next he => exact (append_refusedForCapacity p c r payload).error he
    next => exact .ok _

theorem feedPacket_refusedForCapacity (rec : ChanRec) (cc : Counter) (pusi scr : Bool) (payload : Bytes) :
    RefusedForCapacity (feedPacket p c rec cc pusi scr payload) := by
  rcases feedPacket_cases p c rec cc pusi scr payload with ⟨-, h⟩ | ⟨-, -, h⟩ | ⟨-, -, -, -, h⟩ | ⟨-, -, -, -, h⟩
  · exact h ▸ .ok _
  · exact h ▸ .ok _
  · exact h ▸ startPacket_refusedForCapacity p c _ payload
  · exact h ▸ continuePacket_refusedForCapacity p c _ payload

end

/-! ## The results of each command (rule R95) -/

/-- The value that a command returns with status OK (rule R95 item 2). -/
def ReturnsValue (i : Instr) (v : Option Value) : Prop :=
  match i with
  | .crcCompute _ => ∃ code, v = some (.crc code)
  | .crcVerify _ => ∃ valid, v = some (.verdict valid)
  | .pktNext _ | .cycTick _ => ∃ p, v = some (.packet p)
  | .cycAdd _ _ => ∃ id, v = some (.entryId id)
  | .feed _ _ _ _ _ | .dmxReset _ | .dmxResetAll | .pktLoad _ _ | .pktConfig _ _ | .cycRemove _ | .cycReplace _ _ => v = none

/-- The results that a command can end with (rule R95). -/
inductive MayResult (i : Instr) : Result → Prop where
  | notOk {st : Status} : st ≠ .ok → MayResult i ⟨st, none, []⟩
  | ok {v : Option Value} : ReturnsValue i v → MayResult i ⟨.ok, v, []⟩
  | okEvents (evs : List Event) : i.IsFeed → MayResult i ⟨.ok, none, evs⟩

/-- The command goes on, and leaves a result of its kind. -/
def Ends (i : Instr) (o : Host.Outcome State Fault Refusal) : Prop := ∃ s r, o = .next (State.reply s r) ∧ MayResult i r

theorem Ends.fail {i : Instr} (s : State) {st : Status} (h : st ≠ .ok) : Ends i (s.fail st) := ⟨s, _, rfl, .notOk h⟩

theorem Ends.done {i : Instr} (s : State) {v : Option Value} (h : ReturnsValue i v) : Ends i (s.done v []) :=
  ⟨s, _, rfl, .ok h⟩

section
variable (s : State)

theorem execCrcCompute_ends (data : Bytes) : Ends (.crcCompute data) (execCrcCompute data s) := by
  unfold execCrcCompute
  split
  · exact .fail s (by decide)
  · exact .done s ⟨_, rfl⟩

theorem execCrcVerify_ends (data : Bytes) : Ends (.crcVerify data) (execCrcVerify data s) := by
  unfold execCrcVerify
  split
  · exact .fail s (by decide)
  · exact .done s ⟨_, rfl⟩

theorem pktLoadWith_ends (p : Params) (ch : Channel) (data : Bytes) : Ends (.pktLoad ch data) (pktLoadWith p ch data s) := by
  rcases pktLoadWith_cases p ch data s with ⟨-, h⟩ | ⟨-, -, h⟩ | ⟨-, -, h⟩
  · exact h ▸ .fail s (by decide)
  · exact h ▸ .fail s (by decide)
  · exact ⟨_, _, h, .ok rfl⟩

theorem execPktNext_ends (ch : Channel) : Ends (.pktNext ch) (execPktNext ch s) := by
  rcases execPktNext_cases ch s with ⟨-, -, h⟩ | ⟨-, h⟩
  · exact ⟨_, _, h, .notOk (by decide)⟩
  · exact ⟨_, _, h, .ok ⟨_, rfl⟩⟩

theorem cycAddWith_ends (p : Params) (ch : Channel) (data : Bytes) : Ends (.cycAdd ch data) (cycAddWith p ch data s) := by
  rcases cycAddWith_cases p ch data s with ⟨-, h⟩ | ⟨_, -, -, ⟨-, h⟩ | ⟨-, -, h⟩ | ⟨-, -, h⟩⟩
  · exact h ▸ .fail s (by decide)
  · exact h ▸ .fail s (by decide)
  · exact h ▸ .fail s (by decide)
  · exact ⟨_, _, h, .ok ⟨_, rfl⟩⟩

theorem execCycRemove_ends (id : EntryId) : Ends (.cycRemove id) (execCycRemove id s) := by
  rcases execCycRemove_cases id s with ⟨-, h⟩ | ⟨_, -, _, h, -⟩
  · exact h ▸ .fail s (by decide)
  · exact ⟨_, _, h, .ok rfl⟩

theorem execCycReplace_ends (id : EntryId) (data : Bytes) : Ends (.cycReplace id data) (execCycReplace id data s) := by
  rcases execCycReplace_cases id data s with ⟨-, h⟩ | ⟨_, -, ⟨-, h⟩ | ⟨_, -, h⟩⟩
  · exact h ▸ .fail s (by decide)
  · exact h ▸ .fail s (by decide)
  · exact ⟨_, _, h, .ok rfl⟩

/-- FEED ends, or is refused for AGG_CAPACITY. -/
theorem feedWith_ends_or_refused (p : Params) (ch : Channel) (cc : Counter) (pusi scr : Bool) (payload : Bytes) :
    Ends (.feed ch cc pusi scr payload) (feedWith p ch cc pusi scr payload s) ∨
      feedWith p ch cc pusi scr payload s = .refused .aggregationCapacity := by
  rcases feedWith_cases p ch cc pusi scr payload s with ⟨-, h⟩ | ⟨-, ⟨e, he, h⟩ | ⟨r, -, h⟩⟩
  · exact .inl (h ▸ .fail s (by decide))
  · obtain rfl := feedPacket_refusedForCapacity p ch _ cc pusi scr payload e he
    exact .inr h
  · exact .inl ⟨_, _, h, .okEvents _ ⟨ch, cc, pusi, scr, payload, rfl⟩⟩

end

/-- How a command ends: with a result of its kind, or, FEED only, refused for AGG_CAPACITY. -/
theorem exec_ends_or_refused (i : Instr) (s : State) :
    Ends i (exec i s) ∨ (i.IsFeed ∧ exec i s = .refused .aggregationCapacity) := by
  cases i with
  | feed ch cc pusi scr payload =>
    exact (feedWith_ends_or_refused s params ch cc pusi scr payload).imp_right fun h =>
      ⟨⟨ch, cc, pusi, scr, payload, rfl⟩, h⟩
  | dmxReset ch => exact .inl (.done _ rfl)
  | dmxResetAll => exact .inl (.done _ rfl)
  | crcCompute data => exact .inl (execCrcCompute_ends s data)
  | crcVerify data => exact .inl (execCrcVerify_ends s data)
  | pktLoad ch data => exact .inl (pktLoadWith_ends s params ch data)
  | pktNext ch => exact .inl (execPktNext_ends s ch)
  | pktConfig ch mode => exact .inl (.done _ rfl)
  | cycAdd ch data => exact .inl (cycAddWith_ends s params ch data)
  | cycRemove id => exact .inl (execCycRemove_ends s id)
  | cycReplace id data => exact .inl (execCycReplace_ends s id data)
  | cycTick ch => exact .inl (.done _ ⟨_, rfl⟩)

theorem exec_next_of_not_isFeed {i : Instr} (h : ¬i.IsFeed) (s : State) : ∃ t, exec i s = .next t := by
  rcases exec_ends_or_refused i s with ⟨s', r, he, -⟩ | ⟨hf, -⟩
  · exact ⟨_, he⟩
  · exact absurd hf h

theorem exec_not_refused_operandLength (i : Instr) (s : State) : exec i s ≠ .refused .operandLength := by
  intro h
  rcases exec_ends_or_refused i s with ⟨_, _, he, -⟩ | ⟨-, he⟩
  · cases he.symm.trans h
  · cases he.symm.trans h

theorem result_of_exec_next {i : Instr} {s t : State} (h : exec i s = .next t) :
    ∃ r, t.port.result = some r ∧ MayResult i r := by
  rcases exec_ends_or_refused i s with ⟨s', r, he, hr⟩ | ⟨-, he⟩
  · obtain rfl := Host.Outcome.next.inj (he.symm.trans h)
    exact ⟨r, rfl, hr⟩
  · cases he.symm.trans h

/-- Settles O14: a command that goes on leaves a result of its kind, and each kind has the items of rule R95. -/
theorem resultsHaveTheirKinds : Obligations.ResultsHaveTheirKinds := by
  intro i s t h
  obtain ⟨r, hres, hr⟩ := result_of_exec_next h
  refine ⟨r, hres, ?_⟩
  cases hr with
  | notOk hst => exact ⟨.inl rfl, fun _ => ⟨rfl, rfl⟩, fun hok => absurd hok hst⟩
  | ok hv =>
    refine ⟨.inl rfl, fun hne => absurd rfl hne, fun _ => ?_⟩
    cases i <;> exact hv
  | okEvents evs hf =>
    refine ⟨.inr hf, fun hne => absurd rfl hne, fun _ => ?_⟩
    obtain ⟨ch, cc, pusi, scr, payload, rfl⟩ := hf
    rfl

end Sys2Proof.Machine
end

section
/-! PROOFS. The step of a command that fits no row, and of one with an operand of the wrong length (30_encoding.md rules R107 and
R108). -/

namespace Sys2Proof.Machine

section
variable {s : State} {c : Command} {rest : List HostInput} (h : s.port.inputs = .command c :: rest)
include h

theorem step_of_decode_illegal (hd : decode c = .error .illegal) :
    step s = .next { s with port := { inputs := rest, result := some ⟨.illegal, none, []⟩ } } := by
  simp only [step, State.nextInput_of_cons h, hd]
  rfl

theorem step_of_decode_operandLength (hd : decode c = .error .operandLength) : step s = .refused .operandLength := by
  simp only [step, State.nextInput_of_cons h, hd]

/-- A step refuses a command that fits a row for its operand length exactly when the operand does not have the length that the
header fixes: no meaning refuses for that. -/
theorem step_refused_operandLength_iff {i : Instr} (hi : i.FixedBits c.header) :
    step s = .refused .operandLength ↔ ¬i.OperandFits c := by
  by_cases hn : i.OperandFits c
  · rw [step_of_decode_ok h (decode_of_operandFits hi hn)]
    exact iff_of_false (exec_not_refused_operandLength _ _) (not_not_intro hn)
  · exact iff_of_true (step_of_decode_operandLength h (decode_of_not_operandFits hi hn)) hn

/-- A command with a length field is refused for another length than the field's. -/
theorem step_refused_iff_length_ne {i : Instr} (hi : i.FixedBits c.header) {n : Nat} (hn : i.operandLength c.header = some n) :
    step s = .refused .operandLength ↔ c.data.length ≠ n := by
  rw [step_refused_operandLength_iff h hi, operandFits_iff_of_some hn]

/-- Every command but FEED runs when its operand fits. -/
theorem step_next_of_operandFits {i : Instr} (hi : i.FixedBits c.header) (hn : i.OperandFits c)
    (hfeed : ¬(i.withOperandsOf c).IsFeed) : ∃ t, step s = .next t := by
  rw [step_of_decode_ok h (decode_of_operandFits hi hn)]
  exact exec_next_of_not_isFeed hfeed _

end

/-- Settles O8: a word that fits no row is ILLEGAL to the decoder, whatever the operand, and the step answers it. -/
theorem illegalWordFails : Obligations.IllegalWordFails := fun _ _ _ h hnone =>
  step_of_decode_illegal h (decode_illegal_iff.mpr hnone)

/-- Settles O5: the step refuses a length that the header does not fix; which one it fixes depends on the row alone. -/
theorem operandLengthDecides : Obligations.OperandLengthDecides := by
  intro s c rest h
  refine ⟨fun hfits => ?feed, fun i hi hfits => ?lengthField, fun i hi hfits => ?anyLength, fun i hi hfits => ?noOperand⟩
  all_goals have hbits := (row_fits_iff _ _).mp hfits
  case feed => exact step_refused_iff_length_ne h hbits rfl
  case lengthField =>
    have hlen : i.operandLength c.header = some (sectionLength c.header) := by
      simp only [List.mem_cons, List.not_mem_nil, or_false] at hi
      rcases hi with rfl | rfl | rfl <;> rfl
    exact step_refused_iff_length_ne h hbits hlen
  case anyLength =>
    have hi' : i.operandLength c.header = none ∧ ¬i.IsFeed := by
      simp only [List.mem_cons, List.not_mem_nil, or_false] at hi
      rcases hi with rfl | rfl <;> exact ⟨rfl, by simp [Instr.IsFeed]⟩
    obtain ⟨hlen, hfeed⟩ := hi'
    exact step_next_of_operandFits h hbits (operandFits_of_none hlen) (mt isFeed_withOperandsOf_iff.mp hfeed)
  case noOperand =>
    have hi' : i.operandLength c.header = some 0 ∧ ¬i.IsFeed := by
      simp only [List.mem_cons, List.not_mem_nil, or_false] at hi
      rcases hi with rfl | rfl | rfl | rfl | rfl | rfl <;> exact ⟨rfl, by simp [Instr.IsFeed]⟩
    obtain ⟨hlen, hfeed⟩ := hi'
    refine ⟨fun hne => ?_, fun hnil => ?_⟩
    · exact (step_refused_iff_length_ne h hbits hlen).mpr (mt List.length_eq_zero_iff.mp hne)
    · have hn : i.OperandFits c := (operandFits_iff_of_some hlen).mpr (List.length_eq_zero_iff.mpr hnil)
      exact step_next_of_operandFits h hbits hn (mt isFeed_withOperandsOf_iff.mp hfeed)

end Sys2Proof.Machine
end

section
/-! PROOFS. Table operands (30_encoding.md rule R99, 44_cycling.md rule R243): what `parse_table` accepts is what the operand of a
list of sections is. -/

namespace Sys2Proof.Machine

open Config

/-! ## Big-endian 16-bit counts -/

@[simp] theorem toBe16_length (v : BitVec 16) : (toBe16 v).length = 2 := rfl

theorem be16_toBe16_append (v : BitVec 16) (b : Bytes) : be16 (toBe16 v ++ b) 0 = v := by
  simp only [be16, toBe16, byteAt, List.cons_append, List.getD_cons_zero, List.getD_cons_succ]
  exact BitVec.extractLsb'_append_extractLsb'

theorem toBe16_be16_append_drop {b : Bytes} (h : 2 ≤ b.length) : toBe16 (be16 b 0) ++ b.drop 2 = b := by
  obtain ⟨x, y, rest, rfl⟩ : ∃ x y rest, b = x :: y :: rest := by
    match b, h with
    | x :: y :: rest, _ => exact ⟨x, y, rest, rfl⟩
  have hx : (x ++ y).extractLsb' 8 8 = x := BitVec.extractLsb'_append_eq_left
  have hy : (x ++ y).extractLsb' 0 8 = y := BitVec.extractLsb'_append_eq_right
  simp [be16, toBe16, byteAt, hx, hy]

/-! ## Sections back to back -/

theorem splitSections_zero_eq_some {b : Bytes} {t : List Bytes} : splitSections 0 b = some t ↔ b = [] ∧ t = [] := by
  rw [splitSections, Option.ite_none_right_eq_some, Option.some.injEq, eq_comm (a := [])]

/-- The splitting of `k` sections undoes their concatenation: each section's declared length says where it ends. -/
theorem splitSections_eq_some_iff {k : Nat} {b : Bytes} {t : List Bytes} :
    splitSections k b = some t ↔ t.length = k ∧ (∀ s ∈ t, outputSectionOk s = true) ∧ b = t.flatten := by
  refine ⟨fun h => ⟨(splitSections_sound h).1, (splitSections_sound h).2, ?split⟩, ?join⟩
  case split =>
    induction k generalizing b t with
    | zero =>
      obtain ⟨rfl, rfl⟩ := splitSections_zero_eq_some.mp h
      rfl
    | succ k ih =>
      obtain ⟨-, -, -, t', ht', rfl⟩ := splitSections_succ_eq_some.mp h
      rw [List.flatten_cons, ← ih ht', List.take_append_drop]
  case join =>
    rintro ⟨rfl, hok, rfl⟩
    induction t with
    | nil => rfl
    | cons s t ih =>
      obtain ⟨hs, ht⟩ := List.forall_mem_cons.mp hok
      obtain ⟨hmin, -, hdecl, -⟩ := outputSectionOk_iff.mp hs
      unfold minSectionSize at hmin
      have hlen : declLen (s :: t).flatten = s.length := by
        rw [List.flatten_cons, declLen_append (by omega), hdecl]
      have htake : (s :: t).flatten.take s.length = s := by simp
      have hdrop : (s :: t).flatten.drop s.length = t.flatten := by simp
      have hle : s.length ≤ (s :: t).flatten.length := by simp
      rw [List.length_cons, splitSections_succ_eq_some, hlen, htake, hdrop]
      exact ⟨by omega, hle, hs, t, ih ht, rfl⟩

theorem parseTable_eq_some_iff {b : Bytes} {t : List Bytes} : parseTable b = some t ↔
    2 ≤ b.length ∧ 1 ≤ (be16 b 0).toNat ∧ (be16 b 0).toNat ≤ maxTableSections ∧
      splitSections (be16 b 0).toNat (b.drop 2) = some t := by
  unfold parseTable
  by_cases hlen : b.length < 2
  · rw [if_pos hlen]
    exact iff_of_false (by simp) fun h => absurd h.1 (by omega)
  · by_cases hk : (be16 b 0).toNat = 0 ∨ maxTableSections < (be16 b 0).toNat
    · simp only [if_neg hlen, if_pos hk]
      exact iff_of_false (by simp) fun h => by omega
    · simp only [if_neg hlen, if_neg hk]
      exact ⟨fun h => ⟨by omega, by omega, by omega, h⟩, fun h => h.2.2.2⟩

/-- Settles O6: the count is the number of sections, which fits its 16 bits, and the sections are split where they were joined. -/
theorem tableOperandParsesExactly : Obligations.TableOperandParsesExactly := by
  intro b t
  rw [parseTable_eq_some_iff]
  constructor
  · rintro ⟨hb, hpos, hle, hsplit⟩
    obtain ⟨hlen, hok, hflat⟩ := splitSections_eq_some_iff.mp hsplit
    refine ⟨hlen ▸ hpos, hlen ▸ hle, hok, ?_⟩
    rw [tableOperand, hlen, BitVec.ofNat_toNat, BitVec.setWidth_eq, ← hflat, toBe16_be16_append_drop hb]
  · rintro ⟨hpos, hle, hok, rfl⟩
    unfold maxTableSections at hle
    have hcount : (be16 (tableOperand t) 0).toNat = t.length := by
      rw [tableOperand, be16_toBe16_append, BitVec.toNat_ofNat]
      exact Nat.mod_eq_of_lt (by omega)
    have hdrop : (tableOperand t).drop 2 = t.flatten := List.drop_left' (toBe16_length _)
    rw [hcount, hdrop, splitSections_eq_some_iff]
    refine ⟨?_, hpos, hle, rfl, hok, rfl⟩
    simp [tableOperand]

end Sys2Proof.Machine
end

section
/-! PROOFS. The checksum and the CRC unit (40_checksum.md). A turn of the division loses no bit of the word, so that a run of the
checksum over given bytes is injective in where it starts, and in each of the bytes. -/

namespace Sys2Proof.Machine

open Config

/-! ## One turn of the division (rule R131) -/

/-- The generator is odd: the lowest bit a turn leaves is the bit it has shifted out. -/
theorem getLsbD_crcBit_zero (c : Word) : (crcBit c).getLsbD 0 = c.getLsbD 31 := by
  unfold crcBit
  cases h : c.getLsbD 31 <;> simp

theorem crcBit_of_top_zero {c : Word} (h : c.getLsbD 31 = false) : crcBit c = c <<< 1 := by
  rw [crcBit, h, if_neg Bool.false_ne_true]

theorem crcBit_injective : Function.Injective crcBit := by
  intro c c' h
  have htop : c.getLsbD 31 = c'.getLsbD 31 := by
    rw [← getLsbD_crcBit_zero, h, getLsbD_crcBit_zero]
  have hshift : c <<< 1 = c' <<< 1 := by
    unfold crcBit at h
    rw [htop] at h
    split at h
    · exact (BitVec.xor_left_inj _).mp h
    · exact h
  ext i hi
  by_cases hi31 : i = 31
  · subst hi31
    exact htop
  · have hbit := congrArg (·.getLsbD (i + 1)) hshift
    have hlt : i + 1 < 32 := by omega
    simpa [hlt, hi] using hbit

/-- Turns that shift out zeros only are a shift. -/
theorem crcBit_iterate_of_zeros {c : Word} {n : Nat} (h : ∀ i, 32 ≤ i + n → c.getLsbD i = false) :
    crcBit^[n] c = c <<< n := by
  induction n generalizing c with
  | zero => simp
  | succ n ih =>
    have hzeros : ∀ i, 32 ≤ i + n → (c <<< 1).getLsbD i = false := by
      intro i hi
      rw [BitVec.getLsbD_shiftLeft, h (i - 1) (by omega), Bool.and_false]
    rw [Function.iterate_succ_apply, crcBit_of_top_zero (h 31 (by omega)), ih hzeros, ← BitVec.shiftLeft_add,
      Nat.add_comm]

/-! ## One byte -/

theorem crcByte_eq_iterate (c : Word) (b : Byte) : crcByte c b = crcBit^[8] (c ^^^ (b ++ 0#24)) := rfl

theorem crcByte_eq_iff {c c' : Word} {b b' : Byte} :
    crcByte c b = crcByte c' b' ↔ c ^^^ (b ++ 0#24) = c' ^^^ (b' ++ 0#24) :=
  (crcBit_injective.iterate 8).eq_iff

/-- A byte that is where the checksum's top byte stands cancels it. -/
theorem getLsbD_xor_topByte (c : Word) {k i : Nat} (hk : k ≤ 24) (hi : 24 ≤ i) :
    (c <<< k ^^^ (c.extractLsb' (24 - k) 8 ++ 0#24)).getLsbD i = false := by
  by_cases h : i < 32
  · have hlow : ¬i < 24 := by omega
    have hk' : ¬i < k := by omega
    have hbyte : i - 24 < 8 := by omega
    have hpos : 24 - k + (i - 24) = i - k := by omega
    rw [BitVec.getLsbD_xor, BitVec.getLsbD_append, if_neg hlow, BitVec.getLsbD_shiftLeft, BitVec.getLsbD_extractLsb', hpos]
    simp [h, hk', hbyte]
  · exact BitVec.getLsbD_of_ge _ _ (by omega)

/-- The byte a checksum takes in stands in its top byte only. -/
theorem xor_topByte_shiftLeft (c : Word) (b : Byte) : (c ^^^ (b ++ 0#24)) <<< 8 = c <<< 8 := by
  have hout : (b ++ 0#24) <<< 8 = 0#32 := by
    ext i hi
    have hlow : i - 8 < 24 := by omega
    rw [BitVec.getElem_shiftLeft, BitVec.getElem_append, dif_pos hlow]
    simp
  rw [BitVec.shiftLeft_xor_distrib, hout, BitVec.xor_zero]

/-- A checksum that takes in its own top byte is shifted by that byte. -/
theorem crcByte_shiftLeft (c : Word) {k : Nat} (hk : k ≤ 24) :
    crcByte (c <<< k) (c.extractLsb' (24 - k) 8) = c <<< (k + 8) := by
  rw [crcByte_eq_iterate, crcBit_iterate_of_zeros fun i hi => getLsbD_xor_topByte c hk (by omega), xor_topByte_shiftLeft,
    ← BitVec.shiftLeft_add]

/-! ## A byte string -/

theorem foldl_crcByte_injective (bs : Bytes) : Function.Injective fun c => bs.foldl crcByte c := by
  induction bs with
  | nil => exact Function.injective_id
  | cons b bs ih =>
    intro c c' h
    exact (BitVec.xor_left_inj _).mp (crcByte_eq_iff.mp (ih h))

/-- A checksum that takes in its own four bytes ends at 0. -/
theorem foldl_crcByte_toBe32_self (c : Word) : (toBe32 c).foldl crcByte c = 0#32 :=
  calc (toBe32 c).foldl crcByte c
    _ = crcByte (crcByte (crcByte (crcByte (c <<< 0) (c.extractLsb' 24 8)) (c.extractLsb' 16 8)) (c.extractLsb' 8 8))
        (c.extractLsb' 0 8) := by rw [BitVec.shiftLeft_zero]; rfl
    _ = c <<< 32 := by
      rw [crcByte_shiftLeft c (k := 0) (by decide), crcByte_shiftLeft c (k := 8) (by decide),
        crcByte_shiftLeft c (k := 16) (by decide), crcByte_shiftLeft c (k := 24) (by decide)]
    _ = 0#32 := BitVec.shiftLeft_eq_zero (Nat.le_refl 32)

/-- The residue of a string that ends in four bytes is 0 for one value of them only: the checksum of what stands before. -/
theorem crc32_append_toBe32_eq_zero_iff {b : Bytes} {v : Word} : crc32 (b ++ toBe32 v) = 0#32 ↔ crc32 b = v := by
  rw [crc32_append, ← foldl_crcByte_toBe32_self v]
  exact (foldl_crcByte_injective (toBe32 v)).eq_iff

/-- Two strings that differ in one byte only have different checksums. -/
theorem crc32_set_injective {s : Bytes} {j : Nat} (hj : j < s.length) : Function.Injective fun x => crc32 (s.set j x) := by
  intro x y h
  dsimp only at h
  rw [List.set_eq_take_append_cons_drop, List.set_eq_take_append_cons_drop, if_pos hj, if_pos hj, crc32_append, crc32_append,
    List.foldl_cons, List.foldl_cons] at h
  have hbyte := (BitVec.xor_right_inj _).mp (crcByte_eq_iff.mp (foldl_crcByte_injective _ h))
  exact (BitVec.append_left_inj _).mp hbyte

/-- Settles O18: three values are computed, and a checksum takes in its own bytes to 0. -/
theorem checksumProperties : Obligations.ChecksumProperties :=
  ⟨crc32_nil, by decide +kernel, fun _ => crc32_append_toBe32_eq_zero_iff.mpr rfl, by decide +kernel⟩

/-! ## The body and the code of a section (rules R98 and R135) -/

theorem toBe32_append (a b c d : Byte) : toBe32 (a ++ b ++ c ++ d) = [a, b, c, d] := by
  have h8 : (a ++ b ++ c ++ d).extractLsb' 8 8 = c :=
    (BitVec.extractLsb'_append_eq_of_le (Nat.le_refl 8)).trans BitVec.extractLsb'_append_eq_right
  have h16 : (a ++ b ++ c ++ d).extractLsb' 16 8 = b :=
    (BitVec.extractLsb'_append_eq_of_le (by decide)).trans
      ((BitVec.extractLsb'_append_eq_of_le (Nat.le_refl 8)).trans BitVec.extractLsb'_append_eq_right)
  have h24 : (a ++ b ++ c ++ d).extractLsb' 24 8 = a :=
    (BitVec.extractLsb'_append_eq_of_le (by decide)).trans
      ((BitVec.extractLsb'_append_eq_of_le (by decide)).trans BitVec.extractLsb'_append_eq_left)
  rw [toBe32, h8, h16, h24, BitVec.extractLsb'_append_eq_right]

/-- The last four bytes of a string are a 32-bit code. -/
theorem exists_eq_append_toBe32 {s : Bytes} (h : 4 ≤ s.length) : ∃ b v, s = b ++ toBe32 v := by
  have hlen : (s.drop (s.length - 4)).length = 4 := by
    rw [List.length_drop]
    omega
  obtain ⟨w, x, y, z, htail⟩ : ∃ w x y z, s.drop (s.length - 4) = [w, x, y, z] := by
    match s.drop (s.length - 4), hlen with
    | [w, x, y, z], _ => exact ⟨w, x, y, z, rfl⟩
  exact ⟨s.take (s.length - 4), w ++ x ++ y ++ z, by rw [toBe32_append, ← htail, List.take_append_drop]⟩

@[simp] theorem secBody_append_toBe32 (b : Bytes) (v : Word) : secBody (b ++ toBe32 v) = b := by
  rw [secBody, List.take_left' (by simp)]

theorem crcValid_append_toBe32 {b : Bytes} {v : Word} : crcValid (b ++ toBe32 v) = true ↔ crc32 b = v := by
  rw [crcValid, secBody_append_toBe32, secCode_append_toBe32, decide_eq_true_eq]

/-- A section is CRC-valid exactly when its whole checksum is 0 (rules R132 and R134). -/
theorem crcValid_iff_crc32_eq_zero {s : Bytes} (h : 4 ≤ s.length) : crcValid s = true ↔ crc32 s = 0#32 := by
  obtain ⟨b, v, rfl⟩ := exists_eq_append_toBe32 h
  rw [crcValid_append_toBe32, crc32_append_toBe32_eq_zero_iff]

/-- Settles O21: the stamp is the body and its checksum. -/
theorem stampIsCrcValid : Obligations.StampIsCrcValid := fun _ h =>
  ⟨crcValid_append_toBe32.mpr rfl, stamp_length (by omega), fun _ hj => byteAt_stamp hj, secCode_append_toBe32 _ _⟩

theorem flipBit_ne (x : Byte) {b : Nat} (hb : b < 8) : x ^^^ (1#8 <<< b) ≠ x := by
  intro h
  have hbit := congrArg (·.getLsbD b) h
  simp [hb] at hbit

theorem set_byteAt_self {s : Bytes} {j : Nat} (hj : j < s.length) : s.set j (byteAt s j) = s := by
  rw [byteAt, List.getD_eq_getElem _ _ hj, List.set_getElem_self]

/-- Settles O22: of the values of one byte only one gives a checksum of 0. -/
theorem singleBitFlipIsCaught : Obligations.SingleBitFlipIsCaught := by
  intro s j b hlen hvalid hj hb
  refine Bool.eq_false_of_not_eq_true fun hflip => flipBit_ne (byteAt s j) hb ?_
  have hj' : j < s.length := by omega
  have hzero : crc32 (s.set j (byteAt s j)) = 0#32 := by
    rw [set_byteAt_self hj', ← crcValid_iff_crc32_eq_zero (by omega)]
    exact hvalid
  have hzero' : crc32 (s.set j (byteAt s j ^^^ (1#8 <<< b))) = 0#32 :=
    (crcValid_iff_crc32_eq_zero (by rw [List.length_set]; omega)).mp hflip
  exact crc32_set_injective hj' (hzero'.trans hzero.symm)

/-! ## The commands (rules R133 and R134) -/

/-- A command whose outcome is a result alone changes no unit. -/
theorem exists_next_reply {s : State} {o : Host.Outcome State Fault Refusal} {r : Result} (h : o = .next (s.reply r)) :
    ∃ t, o = .next t ∧ SameUnits s t ∧ Returned s t r.status r.value r.events :=
  ⟨_, h, ⟨rfl, rfl⟩, rfl, rfl⟩

/-- Settles O19. -/
theorem crcComputeReturnsChecksum : Obligations.CrcComputeReturnsChecksum := fun _ _ =>
  ⟨fun hle => exists_next_reply (if_neg (Nat.not_lt.mpr hle)), fun hlt => exists_next_reply (if_pos hlt)⟩

theorem crcVerdict_of_short {d : Bytes} (h : d.length < 4) : crcVerdict d = false := if_pos h

/-- CRC_VERIFY's comparison is that of a section with its code (rules R134 and R135). -/
theorem crcVerdict_eq_crcValid {d : Bytes} (h : 4 ≤ d.length) : crcVerdict d = crcValid d := if_neg (Nat.not_lt.mpr h)

theorem crcVerdict_eq_residue {d : Bytes} (h : 4 ≤ d.length) : crcVerdict d = decide (crc32 d = 0#32) := by
  rw [crcVerdict_eq_crcValid h, Bool.eq_iff_iff, crcValid_iff_crc32_eq_zero h, decide_eq_true_eq]

/-- What CRC_VERIFY of an operand of admitted length ends as. -/
theorem execCrcVerify_of_le {d : Bytes} (h : d.length ≤ 4093) (s : State) :
    exec (.crcVerify d) s = .next (s.reply ⟨.ok, some (.verdict (crcVerdict d)), []⟩) := if_neg (Nat.not_lt.mpr h)

/-- Settles O20: the comparison of the last four bytes with the checksum of the rest is that of the residue with 0. -/
theorem crcVerifyChecksResidue : Obligations.CrcVerifyChecksResidue := by
  intro d s
  refine ⟨fun hmin hmax => ?verdict, fun hshort => ?short, fun hlong => exists_next_reply (if_pos hlong)⟩
  case verdict =>
    rw [← crcVerdict_eq_residue hmin]
    exact exists_next_reply (execCrcVerify_of_le hmax s)
  case short =>
    rw [← crcVerdict_of_short hshort]
    exact exists_next_reply (execCrcVerify_of_le (by omega) s)

end Sys2Proof.Machine
end

section
/-! PROOFS. What FEED reports (41_reassembler.md rules R165 and R166, 42_demux.md rules R195 and R198): its events through the parts
of its work, beside the invariant of the channel record, which says what the aggregations hold. -/

namespace Sys2Proof.Machine

open Config

/-! ## What the loops of FEED keep -/

/-- A predicate on FEED's working record that each of its steps keeps: a byte that is no stuffing byte where a section would begin
(rules R162 and R164), and the dropping of a partial section
with its event, which is none of the aggregator's (rules R159 and R160). -/
structure KeptByFeed (p : Params) (c : Channel) (Q : Rx → Prop) : Prop where
  appendByte : ∀ {r r' b o}, Q r → (r.chan.buf = [] → b ≠ stuffByte) → appendByte p c r b = .ok (r', o) → Q r'
  dropPartial : ∀ {r reason}, reason ≠ .badSectionNumber → Q r → Q ((r.emit (.validationFailure c reason)).withBuf [])

namespace KeptByFeed

variable {p : Params} {c : Channel} {Q : Rx → Prop} {r r' : Rx}

/-- Bytes that join a partial section (rule R164): after the byte that ends it no more are read. -/
theorem append (hQ : KeptByFeed p c Q) {bs rest : Bytes} {o : AppendOutcome} (h : Q r) (hbuf : r.chan.buf ≠ [])
    (ha : append p c r bs = .ok (r', rest, o)) : Q r' := by
  induction bs generalizing r with
  | nil =>
    cases ha
    exact h
  | cons b bs ih =>
    rw [Machine.append] at ha
    cases hb : Machine.appendByte p c r b with
    | error e => simp [hb] at ha
    | ok x =>
      obtain ⟨r₁, o₁⟩ := x
      have h₁ : Q r₁ := hQ.appendByte h (fun hn => absurd hn hbuf) hb
      rw [hb] at ha
      cases o₁ with
      | unfinished => exact ih h₁ (buf_ne_nil_of_appendByte hb) ha
      | closed | bad =>
        cases ha
        exact h₁

/-- The bytes before the pointer (rule R160). -/
theorem finishPartial (hQ : KeptByFeed p c Q) {pre : Bytes} (h : Q r) (hf : finishPartial p c r pre = .ok r') : Q r' := by
  unfold Machine.finishPartial at hf
  by_cases hbuf : r.chan.buf = []
  · rw [if_pos hbuf] at hf
    cases hf
    exact h
  · rw [if_neg hbuf] at hf
    cases ha : Machine.append p c r pre with
    | error e => simp [ha] at hf
    | ok x =>
      obtain ⟨r₁, rest, o⟩ := x
      have h₁ : Q r₁ := hQ.append h hbuf ha
      rw [ha] at hf
      cases o with
      | unfinished =>
        cases hf
        exact hQ.dropPartial (by decide) h₁
      | closed | bad =>
        cases hf
        exact h₁

/-- The bytes from the pointer on (rules R161 and R162). -/
theorem parseSections (hQ : KeptByFeed p c Q) {bs : Bytes} (h : Q r) (hp : parseSections p c r bs = .ok r') : Q r' := by
  induction bs generalizing r with
  | nil =>
    cases hp
    exact h
  | cons b bs ih =>
    rw [Machine.parseSections] at hp
    by_cases hs : r.chan.buf = [] ∧ b = stuffByte
    · rw [if_pos hs] at hp
      cases hp
      exact h
    · rw [if_neg hs] at hp
      cases hb : Machine.appendByte p c r b with
      | error e => simp [hb] at hp
      | ok x =>
        obtain ⟨r₁, o⟩ := x
        have h₁ : Q r₁ := hQ.appendByte h (fun hn hbs => hs ⟨hn, hbs⟩) hb
        rw [hb] at hp
        cases o with
        | unfinished | closed => exact ih h₁ hp
        | bad =>
          cases hp
          exact h₁

/-- A packet with the flag (rule R159). -/
theorem startPacket (hQ : KeptByFeed p c Q) {pl : Bytes} (h : Q r) (hp : startPacket p c r pl = .ok r') : Q r' := by
  cases pl with
  | nil =>
    cases hp
    exact h
  | cons ptr data =>
    rw [Machine.startPacket] at hp
    by_cases hptr : data.length ≤ ptr.toNat
    · rw [if_pos hptr] at hp
      cases hp
      exact hQ.dropPartial (by decide) h
    · rw [if_neg hptr] at hp
      cases hf : Machine.finishPartial p c r (data.take ptr.toNat) with
      | error e => simp [hf] at hp
      | ok r₁ =>
        rw [hf] at hp
        exact hQ.parseSections (hQ.finishPartial h hf) hp

/-- A packet without the flag (rule R163). -/
theorem continuePacket (hQ : KeptByFeed p c Q) {pl : Bytes} (h : Q r) (hp : continuePacket p c r pl = .ok r') : Q r' := by
  unfold Machine.continuePacket at hp
  by_cases hbuf : r.chan.buf = []
  · rw [if_pos hbuf] at hp
    cases hp
    exact h
  · rw [if_neg hbuf] at hp
    cases ha : Machine.append p c r pl with
    | error e => simp [ha] at hp
    | ok x =>
      rw [ha] at hp
      cases hp
      exact hQ.append h hbuf ha

/-- A whole packet (rule R150): the predicate holds at the end, if it holds of the record as it stands, of a scrambled packet that is
skipped, and behind the counter check. -/
theorem feedPacket (hQ : KeptByFeed p c Q) {rec : ChanRec} {cc : Counter} {pusi scr : Bool} {pl : Bytes}
    (hf : feedPacket p c rec cc pusi scr pl = .ok r) (hsame : Q ⟨rec, []⟩)
    (hskip : ∀ o, Q ⟨{ rec with lastCc := o }, [.scrambledSkipped c]⟩) (htake : Q (takeCounter c rec cc)) : Q r := by
  rcases feedPacket_cases p c rec cc pusi scr pl with
    ⟨-, heq⟩ | ⟨-, -, heq⟩ | ⟨-, -, -, -, heq⟩ | ⟨-, -, -, -, heq⟩
  · cases heq.symm.trans hf
    exact hskip _
  · cases heq.symm.trans hf
    exact hsame
  · exact hQ.startPacket htake (heq.symm.trans hf)
  · exact hQ.continuePacket htake (heq.symm.trans hf)

end KeptByFeed

/-! ## The table of a complete aggregation -/

/-- A reported table (rule R198): the sections 0 to last_section_number in order, each a section of the table. -/
structure GoodTable (T : TableRecord) : Prop where
  count : T.sections.length = T.lastSectionNumber.toNat + 1
  sections : ∀ n x, T.sections[n]? = some x → GoodSection x ∧ secTableId x = T.tableId ∧ secExt x = T.tableIdExtension ∧
    secVersion x = T.version ∧ secLastSn x = T.lastSectionNumber ∧ (secSn x).toNat = n

/-- Recording a section of its own keeps an aggregation fit, whether that completes it or not (rule R194). -/
theorem GoodAggBefore.record_self {s : Bytes} {a : Agg}
    (h : GoodAggBefore (aggKey (secTableId s) (secExt s)) (secVersion s) (secLastSn s) a) (hs : GoodSection s) :
    GoodAggBefore (aggKey (secTableId s) (secExt s)) (secVersion s) (secLastSn s) (a.record (secSn s) s) where
  version := h.version
  lastSn := h.lastSn
  slot_count := by simp [h.slot_count]
  recorded n x hx := by
    rw [Agg.record_slots, List.getElem?_set] at hx
    by_cases hn : (secSn s).toNat = n
    · rw [if_pos hn] at hx
      obtain ⟨-, hx⟩ := Option.ite_none_right_eq_some.mp hx
      obtain rfl : s = x := Option.some.inj (Option.some.inj hx)
      exact ⟨hs, rfl, h.version.symm, h.lastSn.symm, hn⟩
    · rw [if_neg hn] at hx
      exact h.recorded n x hx

/-- A list of options that are all there is the list of what they hold. -/
theorem map_some_reduceOption {α : Type} {l : List (Option α)} (h : l.all Option.isSome = true) :
    l.reduceOption.map some = l := by
  induction l with
  | nil => rfl
  | cons o l ih =>
    obtain ⟨ho, hl⟩ := Bool.and_eq_true_iff.mp h
    obtain ⟨x, rfl⟩ := Option.isSome_iff_exists.mp ho
    rw [List.reduceOption_cons_of_some, List.map_cons, ih hl]

/-- The table of a complete aggregation holds its sections, slot by slot (rules R195 and R198). -/
theorem GoodAggBefore.goodTable {t : BitVec 8} {x : BitVec 16} {v : BitVec 5} {l : BitVec 8} {a : Agg}
    (h : GoodAggBefore (aggKey t x) v l a) (hfull : a.complete = true) : GoodTable (a.table t x) := by
  have hslots : a.slots.reduceOption.map some = a.slots := map_some_reduceOption hfull
  constructor
  case count =>
    calc a.slots.reduceOption.length = (a.slots.reduceOption.map some).length := (List.length_map some).symm
      _ = a.lastSn.toNat + 1 := by rw [hslots, h.slot_count]
  case sections =>
    intro n y hy
    have hslot : a.slots[n]? = some (some y) := by
      rw [← hslots, List.getElem?_map]
      exact congrArg (Option.map some) hy
    obtain ⟨hgood, hkey, hversion, hlast, hsn⟩ := h.recorded n y hslot
    obtain ⟨htable, hext⟩ := aggKey_injective hkey
    exact ⟨hgood, htable, hext, hversion, hlast, hsn⟩

/-! ## The events -/

/-- The events that FEED may emit on `ch`: the sections and tables they carry are valid. -/
inductive GoodEvent (ch : Channel) : Event → Prop where
  | sectionCompleted {s : Bytes} : GoodSection s → GoodEvent ch (.sectionCompleted ch s)
  | tableCompleted {T : TableRecord} : GoodTable T → GoodEvent ch (.tableCompleted ch T)
  | validationFailure (reason : Reason) : GoodEvent ch (.validationFailure ch reason)
  | discontinuity (expected actual : Counter) : GoodEvent ch (.discontinuity ch expected actual)
  | scrambledSkipped : GoodEvent ch (.scrambledSkipped ch)

/-- The working record of a FEED on `c`: what of the channel's invariant does not depend on the parameters, and events that are
good. -/
structure GoodRx (c : Channel) (r : Rx) : Prop where
  buf : GoodBuf r.chan.buf
  aggs : ∀ k a, (k, a) ∈ r.chan.aggs → GoodAgg k a
  events : ∀ e ∈ r.events, GoodEvent c e

/-- A good channel record, with whatever counter, at the start of a FEED. -/
theorem GoodChan.goodRx {P : Params} {rec : ChanRec} (h : GoodChan P rec) (c : Channel) (o : Option Counter) :
    GoodRx c ⟨{ rec with lastCc := o }, []⟩ := ⟨h.buf, h.aggs, by simp⟩

section
variable {p : Params} {c : Channel} {r r' : Rx}

theorem GoodRx.emit (h : GoodRx c r) {e : Event} (he : GoodEvent c e) : GoodRx c (r.emit e) where
  buf := h.buf
  aggs := h.aggs
  events e' he' := by
    rcases List.mem_append.mp he' with he' | he'
    · exact h.events e' he'
    · exact List.mem_singleton.mp he' ▸ he

theorem GoodRx.withBuf (h : GoodRx c r) {b : Bytes} (hb : GoodBuf b) : GoodRx c (r.withBuf b) := ⟨hb, h.aggs, h.events⟩

theorem GoodRx.withAggs (h : GoodRx c r) {m : Keyed Agg} (hm : ∀ k a, (k, a) ∈ m → GoodAgg k a) : GoodRx c (r.withAggs m) :=
  ⟨h.buf, hm, h.events⟩

/-- The aggregator reports a table only when the aggregation of its section is complete (rule R195). -/
theorem GoodRx.aggregate {s : Bytes} (h : GoodRx c r) (hs : GoodSection s) (ha : aggregate p c r s = .ok r') :
    GoodRx c r' := by
  rcases aggregate_cases ha with ⟨-, rfl⟩ | ⟨old, -, hfor, hold⟩
  · exact h.emit (.validationFailure _)
  · have hfit := goodAggBefore_of_aggFor h.aggs hfor
    rcases hold with ⟨hfull, rfl⟩ | ⟨hopen, rfl⟩
    · exact (h.emit (.tableCompleted ((hfit.record_self hs).goodTable hfull))).withAggs fun k a hk =>
        h.aggs k a (Keyed.mem_erase hk).1
    · refine h.withAggs fun k a hk => ?_
      rcases Keyed.mem_insert hk with hk | hk
      · cases hk
        exact hfit.record hs rfl hopen
      · exact h.aggs k a hk

/-- A section is reported only when its checksum is right (rules R165 and R166). -/
theorem GoodRx.closeSection {s : Bytes} (h : GoodRx c r) (hs : outputSectionOk s = true)
    (hc : closeSection p c r s = .ok r') : GoodRx c r' := by
  rcases closeSection_cases hc with ⟨-, rfl⟩ | ⟨hv, ha⟩
  · exact h.emit (.validationFailure _)
  · have hgood : GoodSection s := ⟨hs, hv⟩
    exact (h.emit (.sectionCompleted hgood)).aggregate hgood ha

/-- A partial section that is dropped with its event leaves none (rules R159, R160 and R164). -/
theorem GoodRx.dropPartial (h : GoodRx c r) (reason : Reason) :
    GoodRx c ((r.emit (.validationFailure c reason)).withBuf []) := (h.emit (.validationFailure reason)).withBuf .nil

theorem GoodRx.appendByte {b : Byte} {o : AppendOutcome} (h : GoodRx c r) (hb : r.chan.buf = [] → b ≠ stuffByte)
    (ha : appendByte p c r b = .ok (r', o)) : GoodRx c r' := by
  rcases appendByte_cases ha with
    ⟨-, -, -, rfl⟩ | ⟨-, -, -, rfl⟩ | ⟨hlong, hshort, ⟨-, h3, hlen, hc⟩ | ⟨-, hopen, rfl⟩⟩
  · exact h.dropPartial _
  · exact h.dropPartial _
  · exact (h.withBuf .nil).closeSection (h.buf.snoc_outputSectionOk hb hlong hshort h3 hlen) hc
  · exact h.withBuf (h.buf.snoc hb hlong hshort hopen)

end

theorem goodRx_keptByFeed (p : Params) (c : Channel) : KeptByFeed p c (GoodRx c) where
  appendByte := GoodRx.appendByte
  dropPartial _ h := h.dropPartial _

section
variable {P : Params} {rec : ChanRec}

/-- The counter check reports no section (rule R157). -/
theorem GoodChan.goodRx_takeCounter (h : GoodChan P rec) (c : Channel) (cc : Counter) :
    GoodRx c (Machine.takeCounter c rec cc) := by
  rcases takeCounter_cases c rec cc with ⟨-, ht⟩ | ⟨prev, -, -, ht⟩
  · exact ht ▸ h.goodRx c (some cc)
  · exact ht ▸ ((h.goodRx c (some cc)).emit (.discontinuity (prev + 1) cc)).withBuf .nil

/-- From a good channel record FEED reports valid sections and tables only, at any value of the parameters. -/
theorem GoodChan.goodRx_feedPacket {p : Params} {c : Channel} {cc : Counter} {pusi scr : Bool} {pl : Bytes} {r : Rx}
    (h : GoodChan P rec) (hf : Machine.feedPacket p c rec cc pusi scr pl = .ok r) : GoodRx c r :=
  (goodRx_keptByFeed p c).feedPacket hf (h.goodRx c rec.lastCc) (fun o => (h.goodRx c o).emit .scrambledSkipped)
    (h.goodRx_takeCounter c cc)

end

/-- Every event of a FEED from a unit that meets its invariant is a good one; a FEED that fails has none. -/
theorem feedWith_goodEvents {p P : Params} {ch : Channel} {cc : Counter} {pusi scr : Bool} {pl : Bytes} {s t : State}
    (h : GoodDmx P s.dmx) (hf : feedWith p ch cc pusi scr pl s = .next t) : ∀ e ∈ t.events, GoodEvent ch e := by
  rcases feedWith_cases p ch cc pusi scr pl s with ⟨-, heq⟩ | ⟨-, ⟨e, -, heq⟩ | ⟨r, hr, heq⟩⟩
  · obtain rfl := Host.Outcome.next.inj (heq.symm.trans hf)
    intro e he
    cases he
  · cases heq.symm.trans hf
  · obtain rfl := Host.Outcome.next.inj (heq.symm.trans hf)
    exact ((h.chanAt_getD ch).goodRx_feedPacket hr).events

/-- Settles O38: every event is a good one, through all the parts of a FEED. -/
theorem feedReportsOnlyValidSections : Obligations.FeedReportsOnlyValidSections := by
  intro ch cc pusi scr pl P s t h hx
  have hevents : ∀ e ∈ t.events, GoodEvent ch e := feedWith_goodEvents h hx
  constructor
  case left =>
    intro c x he
    cases hevents _ he with
    | sectionCompleted hx => exact ⟨rfl, hx⟩
  case right =>
    intro c T he
    cases hevents _ he with
    | tableCompleted hT => exact ⟨rfl, hT.count, hT.sections⟩

end Sys2Proof.Machine
end

section
/-! PROOFS. FEED and its channel's record (41_reassembler.md rules R150 to R156 and R171): a FEED of an admitted payload is the work on
the record of its channel alone, so that what it ends with is read off that work. -/

namespace Sys2Proof.Machine

open Config

/-! ## The work on the record, and the end of the FEED -/

/-- A write of a channel's record is what the next FEED works on (rule R33). -/
theorem State.chanRec_of_chanAt {s : State} {ch : Channel} {r : ChanRec} (h : s.dmx.chanAt ch = some r) : s.chanRec ch = r := by
  rw [State.chanRec, h, Option.getD_some]

theorem State.chanRec_setChan_self (s : State) (ch : Channel) (r : ChanRec) :
    ({ s with dmx := s.dmx.setChan ch (some r) } : State).chanRec ch = r :=
  State.chanRec_of_chanAt (Dmx.chanAt_setChan_self s.dmx ch (some r))

section
variable {ch : Channel} {cc : Counter} {pusi scr : Bool} {pl : Bytes} {s t : State}

/-- What a FEED of an admitted payload that runs has done, at any value of the parameters: the converse of
`feedGives_of_feedPacket`. -/
theorem feedPacket_of_feedWith {p : Params} (hpl : pl.length ≤ payloadMax) (h : feedWith p ch cc pusi scr pl s = .next t) :
    ∃ r, feedPacket p ch (s.chanRec ch) cc pusi scr pl = .ok r ∧ t.dmx = s.dmx.setChan ch (some r.chan) ∧
      Returned s t .ok none r.events := by
  rcases feedWith_cases p ch cc pusi scr pl s with ⟨hlong, -⟩ | ⟨-, ⟨e, -, heq⟩ | ⟨r, hr, heq⟩⟩
  · omega
  · cases heq.symm.trans h
  · obtain rfl := Host.Outcome.next.inj (heq.symm.trans h)
    exact ⟨r, hr, rfl, rfl, rfl⟩

/-- The FEED of a packet that is not scrambled ends as the work on its channel's record does. -/
theorem feedEnds_of_feedPacket {o : Except Refusal Rx} (hpl : pl.length ≤ payloadMax)
    (h : feedPacket params ch (s.chanRec ch) cc pusi false pl = o) : FeedEnds ch cc pusi pl s o := by
  cases o with
  | ok r => exact feedGives_of_feedPacket hpl h
  | error e =>
    rcases feedWith_cases params ch cc pusi false pl s with ⟨hlong, -⟩ | ⟨-, ⟨e', he, heq⟩ | ⟨r, hr, -⟩⟩
    · omega
    · obtain rfl := Except.error.inj (he.symm.trans h)
      exact heq
    · cases hr.symm.trans h

/-- A FEED that runs gives the same from every state with the same record to work on (rule R171). -/
theorem exec_feed_of_chanRec_eq {s' : State} (hpl : pl.length ≤ payloadMax) (hrec : s'.chanRec ch = s.chanRec ch)
    (h : exec (.feed ch cc pusi scr pl) s = .next t) :
    ∃ t', exec (.feed ch cc pusi scr pl) s' = .next t' ∧ t'.port.result = t.port.result ∧
      t'.dmx.chanAt ch = t.dmx.chanAt ch ∧ DmxElsewhere s' t' ch := by
  obtain ⟨r, hr, hdmx, -, hres⟩ := feedPacket_of_feedWith hpl h
  obtain ⟨t', ht', hchan, helse, -, -, hres'⟩ := feedGives_of_feedPacket hpl (hrec ▸ hr)
  refine ⟨t', ht', hres'.trans hres.symm, ?_, helse⟩
  rw [hchan, hdmx, Dmx.chanAt_setChan_self]

/-- A FEED writes no record but its own channel's (rule R168). -/
theorem feedWith_dmxElsewhere {p : Params} (h : feedWith p ch cc pusi scr pl s = .next t) : DmxElsewhere s t ch := by
  intro c hc
  rcases feedWith_cases p ch cc pusi scr pl s with ⟨-, heq⟩ | ⟨-, ⟨e, -, heq⟩ | ⟨r, -, heq⟩⟩
  · obtain rfl := Host.Outcome.next.inj (heq.symm.trans h)
    rfl
  · cases heq.symm.trans h
  · obtain rfl := Host.Outcome.next.inj (heq.symm.trans h)
    exact Dmx.chanAt_setChan_of_ne _ hc _

/-- An over-long payload fails (rule R151). -/
theorem exec_feed_of_long (hpl : payloadMax < pl.length) (s : State) :
    exec (.feed ch cc pusi scr pl) s = s.fail .errPacket := if_pos hpl

end

/-! ## The statements -/

/-- Settles O23: the size is tested first, and no other end of a FEED has another status than OK. -/
theorem feedSizeError : Obligations.FeedSizeError := by
  intro ch cc pusi scr pl s
  constructor
  case left =>
    intro hlong
    exact ⟨_, exec_feed_of_long hlong s, ⟨rfl, rfl⟩, rfl, rfl⟩
  case right =>
    intro hlen t ht
    obtain ⟨r, -, -, hret⟩ := feedPacket_of_feedWith hlen ht
    exact hret.status_eq

/-- Settles O24: without a record a FEED works on the fresh one, which is what it finds where that one stands. -/
theorem feedCreatesRecord : Obligations.FeedCreatesRecord := by
  intro ch cc pusi scr pl s t hlen ht
  obtain ⟨r, -, hdmx, -⟩ := feedPacket_of_feedWith hlen ht
  constructor
  case left =>
    rw [hdmx, Dmx.chanAt_setChan_self]
    exact Option.some_ne_none r.chan
  case right =>
    intro hnone
    have hfresh : s.chanRec ch = ⟨none, [], []⟩ := by rw [State.chanRec, hnone]; rfl
    obtain ⟨t', ht', hres, hchan, helse⟩ :=
      exec_feed_of_chanRec_eq hlen ((s.chanRec_setChan_self ch ⟨none, [], []⟩).trans hfresh.symm) ht
    refine ⟨t', ht', hres, fun c => ?_⟩
    by_cases hc : c = ch
    · rw [hc, hchan]
    · calc t'.dmx.chanAt c = (s.dmx.setChan ch (some ⟨none, [], []⟩)).chanAt c := helse c hc
        _ = s.dmx.chanAt c := Dmx.chanAt_setChan_of_ne _ hc _
        _ = t.dmx.chanAt c := (feedWith_dmxElsewhere ht c hc).symm

/-- Settles O25: the payload of a scrambled packet is not read, and its counter only where the parameter says so. -/
theorem feedScrambledSkips : Obligations.FeedScrambledSkips := by
  intro ch cc pusi pl s hlen
  refine feedGives_of_feedPacket hlen ?_
  simp only [feedPacket, if_true, Bool.and_eq_true, Bool.not_eq_true', List.isEmpty_eq_false_iff]

/-- Settles O26: without payload the counter check is not reached. -/
theorem feedWithoutPayload : Obligations.FeedWithoutPayload := fun _ _ _ _ =>
  feedGives_of_feedPacket (Nat.zero_le _) (feedPacket_ignored (.inl rfl))

/-- Settles O27: the counter check alone ends the FEED. -/
theorem feedDuplicateIgnored : Obligations.FeedDuplicateIgnored := fun _ _ _ _ _ hlen _ hdup =>
  feedGives_of_feedPacket hlen (feedPacket_ignored (.inr hdup))

/-- Settles O40: the work on the record reads nothing but the record and the packet; an over-long payload fails from both
states. -/
theorem feedChannelsAreIndependent : Obligations.FeedChannelsAreIndependent := by
  intro ch cc pusi scr pl s s' t hchan ht
  refine ⟨feedWith_dmxElsewhere ht, ?_⟩
  by_cases hlen : pl.length ≤ payloadMax
  · have hrec : s'.chanRec ch = s.chanRec ch := congrArg (·.getD ChanRec.fresh) hchan
    obtain ⟨t', ht', hres, hchan', -⟩ := exec_feed_of_chanRec_eq hlen hrec ht
    exact ⟨t', ht', hres, hchan'⟩
  · have hlong := Nat.not_le.mp hlen
    obtain rfl := Host.Outcome.next.inj ((exec_feed_of_long hlong s).symm.trans ht)
    exact ⟨_, exec_feed_of_long hlong s', rfl, hchan⟩

end Sys2Proof.Machine
end

section
/-! PROOFS. The partial section through the bytes of a packet (41_reassembler.md rules R160 to R164): whole strings of bytes that leave
it open, that close it, or that complete a header with a bad length. -/

namespace Sys2Proof.Machine

open Config

/-! ## Bytes that join the partial section -/

/-- A string of bytes that `append` keeps as the partial section (rule R164): its length is not yet the declared one, which is in
bounds as soon as it is known. The first byte may be any: outside a start packet nothing looks for stuffing. -/
def StillOpen (b : Bytes) : Prop :=
  3 ≤ b.length → minSectionSize ≤ declLen b ∧ declLen b ≤ maxSectionSize ∧ b.length < declLen b

theorem GoodBuf.stillOpen {b : Bytes} (h : GoodBuf b) : StillOpen b := h.declared

theorem stillOpen_of_length_lt {b : Bytes} (h : b.length < 3) : StillOpen b := fun h3 => absurd h3 (Nat.not_le.mpr h)

/-- What an open section began with was open. -/
theorem StillOpen.of_append {b z : Bytes} (h : StillOpen (b ++ z)) : StillOpen b := by
  intro hb
  have := h (by simp only [List.length_append]; omega)
  rw [declLen_append hb, List.length_append] at this
  omega

/-- A whole section is open no more. -/
theorem StillOpen.not_outputSectionOk {b : Bytes} (h : StillOpen b) : ¬outputSectionOk b = true := by
  intro hok
  obtain ⟨hmin, -, hdecl, -⟩ := outputSectionOk_iff.mp hok
  unfold minSectionSize at hmin
  have := h (by omega)
  omega

section
variable {p : Params} {c : Channel} {r : Rx}

/-- A byte that leaves the section open joins it (rule R164). -/
theorem appendByte_of_stillOpen {b : Byte} (h : StillOpen (r.chan.buf ++ [b])) :
    appendByte p c r b = .ok (r.withBuf (r.chan.buf ++ [b]), .unfinished) := by
  unfold StillOpen at h
  simp only [appendByte]
  rw [if_neg (by omega), if_neg (by omega), if_neg (by omega)]

/-- The third byte of a header with a bad length drops the section (rule R164). -/
theorem appendByte_of_badLength {b : Byte} {reason : Reason} (h : BadLength (r.chan.buf ++ [b]) reason) :
    appendByte p c r b = .ok ((r.emit (.validationFailure c reason)).withBuf [], .bad) := by
  obtain ⟨hlen, ⟨rfl, hlong⟩ | ⟨rfl, hshort⟩⟩ := h
  · simp only [appendByte]
    rw [if_pos ⟨hlen, hlong⟩]
  · have hbounds : minSectionSize ≤ maxSectionSize := by decide
    simp only [appendByte]
    rw [if_neg (by omega), if_pos ⟨hlen, hshort⟩]

/-- Bytes that leave the section open join it, and `append` goes on behind them. -/
theorem append_of_stillOpen {z : Bytes} (rest : Bytes) (h : StillOpen (r.chan.buf ++ z)) :
    append p c r (z ++ rest) = append p c (r.withBuf (r.chan.buf ++ z)) rest := by
  induction z generalizing r with
  | nil => simp [Rx.withBuf]
  | cons b z ih =>
    have hz : StillOpen (r.chan.buf ++ [b] ++ z) := by simpa using h
    rw [List.cons_append, append, appendByte_of_stillOpen hz.of_append]
    simpa using ih (r := r.withBuf (r.chan.buf ++ [b])) hz

/-- The bytes that complete a section close it, and the others are not read (rules R164 and R165). -/
theorem append_of_section {z : Bytes} (rest : Bytes) (hz : z ≠ []) (h : outputSectionOk (r.chan.buf ++ z) = true) :
    append p c r (z ++ rest) =
      (closeSection p c (r.withBuf []) (r.chan.buf ++ z)).map fun r' => (r', rest, .closed) := by
  obtain ⟨y, b, rfl⟩ := List.eq_nil_or_concat z |>.resolve_left hz
  rw [List.concat_eq_append] at h ⊢
  rw [← List.append_assoc] at h ⊢
  rw [List.append_assoc, append_of_stillOpen _ (GoodBuf.of_section h).stillOpen, List.singleton_append, append,
    appendByte_closed p c (by simpa using h), Rx.withBuf_buf, Rx.withBuf_withBuf]
  cases closeSection p c (r.withBuf []) (r.chan.buf ++ y ++ [b]) <;> rfl

/-- The bytes that complete a header with a bad length drop the section, and the others are not read (rule R164). -/
theorem append_of_badLength {z : Bytes} {reason : Reason} (rest : Bytes) (hz : z ≠ [])
    (h : BadLength (r.chan.buf ++ z) reason) :
    append p c r (z ++ rest) = .ok ((r.emit (.validationFailure c reason)).withBuf [], rest, .bad) := by
  obtain ⟨y, b, rfl⟩ := List.eq_nil_or_concat z |>.resolve_left hz
  rw [List.concat_eq_append] at h ⊢
  rw [← List.append_assoc] at h
  have hopen : StillOpen (r.chan.buf ++ y) := stillOpen_of_length_lt (by
    have hlen := h.1
    simp only [List.length_append, List.length_singleton] at hlen ⊢
    omega)
  rw [List.append_assoc, append_of_stillOpen _ hopen, List.singleton_append, append,
    appendByte_of_badLength (by simpa using h), Rx.withBuf_emit, Rx.withBuf_withBuf]

/-! ## The partial section through one packet -/

section
variable {bs : Bytes} {k : Nat}

theorem append_take_of_section (hbuf : StillOpen r.chan.buf) (h : outputSectionOk (r.chan.buf ++ bs.take k) = true) :
    append p c r bs =
      (closeSection p c (r.withBuf []) (r.chan.buf ++ bs.take k)).map fun r' => (r', bs.drop k, .closed) := by
  have hk : bs.take k ≠ [] := fun hnil => hbuf.not_outputSectionOk (by simpa [hnil] using h)
  rw [← append_of_section (bs.drop k) hk h, List.take_append_drop]

theorem append_take_of_badLength {reason : Reason} (hpos : 1 ≤ k) (hk : k ≤ bs.length)
    (h : BadLength (r.chan.buf ++ bs.take k) reason) :
    append p c r bs = .ok ((r.emit (.validationFailure c reason)).withBuf [], bs.drop k, .bad) := by
  have hne : bs.take k ≠ [] := List.ne_nil_of_length_pos (by rw [List.length_take_of_le hk]; omega)
  rw [← append_of_badLength (bs.drop k) hne h, List.take_append_drop]

theorem append_all_of_stillOpen (h : StillOpen (r.chan.buf ++ bs)) :
    append p c r bs = .ok (r.withBuf (r.chan.buf ++ bs), [], .unfinished) := by
  simpa [append] using append_of_stillOpen (p := p) (c := c) [] h

/-- Without a partial section the bytes before the pointer are not read (rule R160). -/
theorem finishPartial_of_nil (hbuf : r.chan.buf = []) : finishPartial p c r bs = .ok r := if_pos hbuf

/-- The bytes before the pointer close the partial section (rule R160). -/
theorem finishPartial_of_section (hne : r.chan.buf ≠ []) (hbuf : StillOpen r.chan.buf)
    (h : outputSectionOk (r.chan.buf ++ bs.take k) = true) :
    finishPartial p c r bs = closeSection p c (r.withBuf []) (r.chan.buf ++ bs.take k) := by
  rw [finishPartial, if_neg hne, append_take_of_section hbuf h]
  cases closeSection p c (r.withBuf []) (r.chan.buf ++ bs.take k) <;> rfl

/-- The bytes before the pointer leave the partial section short of its length: it is abandoned (rule R160). -/
theorem finishPartial_of_stillOpen (hne : r.chan.buf ≠ []) (h : StillOpen (r.chan.buf ++ bs)) :
    finishPartial p c r bs = .ok ((r.emit (.validationFailure c .lengthInconsistent)).withBuf []) := by
  rw [finishPartial, if_neg hne, append_all_of_stillOpen h]
  rfl

/-- The bytes before the pointer complete a header with a bad length (rules R160 and R164). -/
theorem finishPartial_of_badLength {reason : Reason} (hne : r.chan.buf ≠ []) (hpos : 1 ≤ k) (hk : k ≤ bs.length)
    (h : BadLength (r.chan.buf ++ bs.take k) reason) :
    finishPartial p c r bs = .ok ((r.emit (.validationFailure c reason)).withBuf []) := by
  rw [finishPartial, if_neg hne, append_take_of_badLength hpos hk h]

/-- A packet without the flag that closes the partial section (rule R163). -/
theorem continuePacket_of_section (hne : r.chan.buf ≠ []) (hbuf : StillOpen r.chan.buf)
    (h : outputSectionOk (r.chan.buf ++ bs.take k) = true) :
    continuePacket p c r bs = closeSection p c (r.withBuf []) (r.chan.buf ++ bs.take k) := by
  rw [continuePacket, if_neg hne, append_take_of_section hbuf h]
  cases closeSection p c (r.withBuf []) (r.chan.buf ++ bs.take k) <;> rfl

/-- A packet without the flag that leaves the partial section open (rule R163). -/
theorem continuePacket_of_stillOpen (hne : r.chan.buf ≠ []) (h : StillOpen (r.chan.buf ++ bs)) :
    continuePacket p c r bs = .ok (r.withBuf (r.chan.buf ++ bs)) := by
  rw [continuePacket, if_neg hne, append_all_of_stillOpen h]

/-- A packet without the flag that completes a header with a bad length (rules R163 and R164). -/
theorem continuePacket_of_badLength {reason : Reason} (hne : r.chan.buf ≠ []) (hpos : 1 ≤ k) (hk : k ≤ bs.length)
    (h : BadLength (r.chan.buf ++ bs.take k) reason) :
    continuePacket p c r bs = .ok ((r.emit (.validationFailure c reason)).withBuf []) := by
  rw [continuePacket, if_neg hne, append_take_of_badLength hpos hk h]

end

/-! ## A packet with the flag -/

/-- A pointer at or past the end of the data (rule R159). -/
theorem startPacket_of_badPointer {ptr : Byte} {data : Bytes} (h : data.length ≤ ptr.toNat) :
    startPacket p c r (ptr :: data) = .ok ((r.emit (.validationFailure c .badPointer)).withBuf []) := if_pos h

/-- A pointer within the data (rule R159): the bytes before it, then the sections from it on. -/
theorem startPacket_of_pointer {ptr : Byte} {data : Bytes} (h : ptr.toNat < data.length) :
    startPacket p c r (ptr :: data) =
      (finishPartial p c r (data.take ptr.toNat)).bind fun r' => parseSections p c r' (data.drop ptr.toNat) := by
  rw [startPacket, if_neg (Nat.not_le.mpr h)]
  cases finishPartial p c r (data.take ptr.toNat) <;> rfl

/-- A packet with the flag, by its parts before and from the pointer. -/
theorem startPacket_of_parts {pre post : Bytes} (hpre : pre.length < 256) (hpost : 1 ≤ post.length) :
    startPacket p c r (BitVec.ofNat 8 pre.length :: (pre ++ post)) =
      (finishPartial p c r pre).bind fun r' => parseSections p c r' post := by
  have hptr : (BitVec.ofNat 8 pre.length).toNat = pre.length := by
    rw [BitVec.toNat_ofNat]
    exact Nat.mod_eq_of_lt hpre
  rw [startPacket_of_pointer (by rw [hptr, List.length_append]; omega), hptr, List.take_left, List.drop_left]

/-- The first section is closed, and then the others, and the packet ends behind them. -/
theorem closeThenEnd_cons (x : Bytes) (xs : List Bytes) (y : Bytes) (evs : List Event) :
    closeThenEnd p c (x :: xs) y evs r = (closeSection p c r x).bind (closeThenEnd p c xs y evs) := by
  rw [closeThenEnd, closeAll_cons]
  cases closeSection p c r x <;> rfl

end

end Sys2Proof.Machine
end

section
/-! PROOFS. What FEED does with a packet (41_reassembler.md rules R157 to R165): an accepted packet by the way it meets the partial
section, and a packet behind a discontinuity. -/

namespace Sys2Proof.Machine

open Config

/-! ## An accepted packet -/

/-- The channel of an accepted packet before its bytes: the packet's counter beside the partial section and the aggregations as they
stand (rule R158). Without the partial section it is `State.accepted`. -/
def State.counted (s : State) (ch : Channel) (cc : Counter) : Rx := ⟨{ s.chanRec ch with lastCc := some cc }, []⟩

section
variable {s : State} {ch : Channel} {cc : Counter}

@[simp] theorem State.counted_withBuf_nil : (s.counted ch cc).withBuf [] = s.accepted ch cc := rfl
@[simp] theorem State.accepted_buf : (s.accepted ch cc).chan.buf = [] := rfl

theorem State.counted_of_buf_nil (h : (s.chanRec ch).buf = []) : s.counted ch cc = s.accepted ch cc := by
  rw [← State.counted_withBuf_nil, ← h]
  rfl

/-- A counter that continues gives the channel of an accepted packet (rules R155 and R158). -/
theorem Continues.takeCounter_eq_counted (h : Continues (s.chanRec ch) cc) :
    Machine.takeCounter ch (s.chanRec ch) cc = s.counted ch cc := h.takeCounter ch

/-- The FEED of an accepted packet with the flag ends as `start_packet` does (rule R159). -/
theorem feedEnds_of_startPacket {ptr : Byte} {data : Bytes} {o : Except Refusal Rx} (hcc : Continues (s.chanRec ch) cc)
    (hlen : data.length ≤ 183) (h : startPacket params ch (s.counted ch cc) (ptr :: data) = o) :
    FeedEnds ch cc true (ptr :: data) s o := by
  refine feedEnds_of_feedPacket (Nat.succ_le_succ hlen) ?_
  rw [← h, ← hcc.takeCounter_eq_counted]
  simp [feedPacket, hcc.not_duplicate]

/-- The FEED of an accepted packet without the flag ends as `continue_packet` does (rule R163). -/
theorem feedEnds_of_continuePacket {pl : Bytes} {o : Except Refusal Rx} (hcc : Continues (s.chanRec ch) cc)
    (hlen : pl.length ≤ payloadMax) (hpl : pl ≠ []) (h : continuePacket params ch (s.counted ch cc) pl = o) :
    FeedEnds ch cc false pl s o :=
  feedEnds_of_feedPacket hlen ((hcc.feedPacket_continue params ch hpl).trans h)

section
variable {pre rest y : Bytes} {xs : List Bytes} {evs : List Event} (hcc : Continues (s.chanRec ch) cc)
  (hlen : pre.length + xs.flatten.length + rest.length ≤ 183) (hpost : 1 ≤ xs.flatten.length + rest.length)
  (hxs : ∀ x ∈ xs, outputSectionOk x = true) (htail : PacketTail ch rest y evs)
include hcc hlen hpost hxs htail

/-- The FEED of an accepted packet with the flag, once the bytes before the pointer are dealt with and leave no partial section: the
sections from the pointer on are closed in order, and the packet ends behind them (rules R160 and R161). -/
theorem feedEnds_closeThenEnd {o : Except Refusal Rx}
    (hpre : finishPartial params ch (s.counted ch cc) pre = o) (hbuf : ∀ r, o = .ok r → r.chan.buf = []) :
    FeedEnds ch cc true (BitVec.ofNat 8 pre.length :: (pre ++ xs.flatten ++ rest)) s
      (o.bind (closeThenEnd params ch xs y evs)) := by
  refine feedEnds_of_startPacket hcc (by rwa [List.length_append, List.length_append]) ?_
  rw [List.append_assoc, startPacket_of_parts (by omega) (by rwa [List.length_append]), hpre]
  cases o with
  | error e => rfl
  | ok r => exact parseSections_eq_closeThenEnd (hbuf r rfl) hxs htail

/-- The FEED of an accepted packet with the flag on a channel with no partial section (rules R160 and R161). -/
theorem feedEnds_start (hbuf : (s.chanRec ch).buf = []) :
    FeedEnds ch cc true (BitVec.ofNat 8 pre.length :: (pre ++ xs.flatten ++ rest)) s
      (closeThenEnd params ch xs y evs (s.accepted ch cc)) := by
  have hpre : finishPartial params ch (s.counted ch cc) pre = .ok (s.accepted ch cc) := by
    rw [State.counted_of_buf_nil hbuf]
    exact finishPartial_of_nil rfl
  refine feedEnds_closeThenEnd hcc hlen hpost hxs htail hpre fun r hr => ?_
  cases hr
  rfl

/-- The FEED of an accepted packet with the flag that drops the partial section before the pointer with an event (rule R160). -/
theorem feedEnds_start_of_dropped {e : Event}
    (hpre : finishPartial params ch (s.counted ch cc) pre = .ok (((s.counted ch cc).emit e).withBuf [])) :
    FeedEnds ch cc true (BitVec.ofNat 8 pre.length :: (pre ++ xs.flatten ++ rest)) s
      (closeThenEnd params ch xs y evs ((s.accepted ch cc).emit e)) := by
  refine feedEnds_closeThenEnd hcc hlen hpost hxs htail hpre fun r hr => ?_
  cases hr
  rfl

/-- The FEED of an accepted packet with the flag that closes the partial section before the pointer (rules R160 and R161). -/
theorem feedEnds_start_of_section {k : Nat} (hne : (s.chanRec ch).buf ≠ []) (hbuf : GoodBuf (s.chanRec ch).buf)
    (hok : outputSectionOk ((s.chanRec ch).buf ++ pre.take k) = true) :
    FeedEnds ch cc true (BitVec.ofNat 8 pre.length :: (pre ++ xs.flatten ++ rest)) s
      (closeThenEnd params ch (((s.chanRec ch).buf ++ pre.take k) :: xs) y evs (s.accepted ch cc)) := by
  rw [closeThenEnd_cons]
  exact feedEnds_closeThenEnd hcc hlen hpost hxs htail (finishPartial_of_section hne hbuf.stillOpen hok)
    fun r hr => closeSection_buf hr

end

/-- The FEED of an accepted packet without the flag that closes the partial section (rules R163 and R165). -/
theorem feedEnds_continue_of_section {pl : Bytes} {k : Nat} (hcc : Continues (s.chanRec ch) cc) (hlen : pl.length ≤ payloadMax)
    (hne : (s.chanRec ch).buf ≠ []) (hbuf : GoodBuf (s.chanRec ch).buf)
    (hok : outputSectionOk ((s.chanRec ch).buf ++ pl.take k) = true) :
    FeedEnds ch cc false pl s (closeSection params ch (s.accepted ch cc) ((s.chanRec ch).buf ++ pl.take k)) := by
  have hpl : pl ≠ [] := by
    rintro rfl
    exact hbuf.stillOpen.not_outputSectionOk (by simpa using hok)
  exact feedEnds_of_continuePacket hcc hlen hpl (continuePacket_of_section hne hbuf.stillOpen hok)

end

/-! ## Sections that are closed -/

section
variable {p : Params} {c : Channel} {r : Rx} {x : Bytes}

/-- A section whose checksum fails is discarded (rule R165). -/
theorem closeSection_of_invalid (h : crcValid x = false) :
    closeSection p c r x = .ok (r.emit (.validationFailure c .crcMismatch)) := by
  simp [closeSection, h]

/-- Closing one valid section is handing it to the aggregator (rule R165). -/
theorem closeSection_of_valid (h : crcValid x = true) : closeSection p c r x = aggregateAll p c [x] r := by
  rw [aggregateAll_cons, closeSection, if_pos h]
  cases aggregate p c (r.emit (.sectionCompleted c x)) x <;> rfl

/-- Valid sections behind which the packet leaves `y` without an event are handed to the aggregator (rule R161). -/
theorem closeThenEnd_of_good {xs : List Bytes} (y : Bytes) (h : ∀ x ∈ xs, GoodSection x) :
    closeThenEnd p c xs y [] r = (aggregateAll p c xs r).map fun r' => r'.withBuf y := by
  rw [closeThenEnd, closeAll_good p c xs r h]
  cases aggregateAll p c xs r <;> simp [Except.map, Rx.withBuf]

/-- Behind closed sections a header with a bad length adds its event only (rules R161 and R164). -/
theorem closeThenEnd_of_badLength {xs : List Bytes} (e : Event) (hr : r.chan.buf = []) :
    closeThenEnd p c xs [] [e] r = (closeAll p c xs r).map fun r' => r'.emit e := by
  rw [closeThenEnd]
  cases hc : closeAll p c xs r with
  | error e => rfl
  | ok r' =>
    have hbuf : r'.chan.buf = [] := (closeAll_buf hc).trans hr
    simp [Except.map, Rx.emit, ← hbuf]

/-- A section left open, or stuffing behind a whole one, ends a packet without an event (rules R161 and R162). -/
theorem packetTail_stuffing {y : Bytes} (n : Nat) (hy : GoodBuf y) (hn : y ≠ [] → n = 0) :
    PacketTail c (y ++ stuffing n) y [] := by
  cases n with
  | zero => simpa [stuffing] using PacketTail.unfinished (c := c) y hy
  | succ n =>
    obtain rfl : y = [] := by_contra fun hne => nomatch hn hne
    exact .stuffing (stuffing n)

end

/-! ## Events before -/

/-- The same working record with events before its own. -/
def Rx.after (r : Rx) (evs : List Event) : Rx := ⟨r.chan, evs ++ r.events⟩

section
variable {p : Params} {c : Channel} (r : Rx) (evs : List Event)

@[simp] theorem Rx.after_chan : (r.after evs).chan = r.chan := rfl
@[simp] theorem Rx.after_withBuf (b : Bytes) : (r.after evs).withBuf b = (r.withBuf b).after evs := rfl

@[simp] theorem Rx.after_emit (e : Event) : (r.after evs).emit e = (r.emit e).after evs := by
  simp [Rx.after, Rx.emit]

theorem aggregate_after (s : Bytes) : aggregate p c (r.after evs) s = (aggregate p c r s).map fun r' => r'.after evs := by
  obtain ⟨ch, evs'⟩ := r
  rw [Rx.after, aggregate_events, aggregate_events p c ch evs']
  cases aggregate p c ⟨ch, []⟩ s <;> simp [Except.map, Rx.after]

theorem closeSection_after (s : Bytes) :
    closeSection p c (r.after evs) s = (closeSection p c r s).map fun r' => r'.after evs := by
  cases hv : crcValid s
  · rw [closeSection_of_invalid hv, closeSection_of_invalid hv, Rx.after_emit]
    rfl
  · simp only [closeSection, hv, if_true, Rx.after_emit, aggregate_after]

theorem appendByte_after (b : Byte) :
    appendByte p c (r.after evs) b = (appendByte p c r b).map fun x => (x.1.after evs, x.2) := by
  simp only [appendByte, Rx.after_chan, Rx.after_emit, Rx.after_withBuf, closeSection_after]
  split
  · rfl
  · split
    · rfl
    · split
      · cases closeSection p c (r.withBuf []) (r.chan.buf ++ [b]) <;> rfl
      · rfl

/-- The sections of a packet do not depend on the events before them (00_scope.md rule R12). -/
theorem parseSections_after (bs : Bytes) :
    parseSections p c (r.after evs) bs = (parseSections p c r bs).map fun r' => r'.after evs := by
  induction bs generalizing r with
  | nil => rfl
  | cons b bs ih =>
    simp only [parseSections, Rx.after_chan, appendByte_after]
    split
    · rfl
    · cases appendByte p c r b with
      | error e => rfl
      | ok x =>
        obtain ⟨r', o⟩ := x
        cases o with
        | closed | unfinished => exact ih r'
        | bad => rfl

variable {r}

theorem startPacket_after (hbuf : r.chan.buf = []) (pl : Bytes) :
    startPacket p c (r.after evs) pl = (startPacket p c r pl).map fun r' => r'.after evs := by
  cases pl with
  | nil => rfl
  | cons ptr data =>
    by_cases hptr : data.length ≤ ptr.toNat
    · rw [startPacket_of_badPointer hptr, startPacket_of_badPointer hptr, Rx.after_emit, Rx.after_withBuf]
      rfl
    · have hptr := Nat.not_le.mp hptr
      rw [startPacket_of_pointer hptr, startPacket_of_pointer hptr, finishPartial_of_nil hbuf,
        finishPartial_of_nil (r := r.after evs) hbuf]
      exact parseSections_after r evs (data.drop ptr.toNat)

end

/-! ## A packet behind a discontinuity -/

/-- A discontinuity is reported, and the packet is then processed as on the channel with no counter and no partial section
(rules R157 and R158). -/
theorem feedPacket_of_discontinuity {p : Params} {c : Channel} {rec : ChanRec} {cc prev : Counter} {pusi : Bool} {pl : Bytes}
    (hlast : rec.lastCc = some prev) (hdup : cc ≠ prev) (hnext : cc ≠ prev + 1) (hpl : pl ≠ []) :
    feedPacket p c rec cc pusi false pl =
      (feedPacket p c { rec with lastCc := none, buf := [] } cc pusi false pl).map fun r =>
        r.after [.discontinuity c (prev + 1) cc] := by
  have hcounter : takeCounter c rec cc =
      (takeCounter c { rec with lastCc := none, buf := [] } cc).after [.discontinuity c (prev + 1) cc] := by
    simp only [takeCounter, hlast, if_neg hnext]
    rfl
  simp only [feedPacket, hpl, hlast, hdup.symm, hcounter, if_false, Option.some.injEq, reduceCtorEq, Bool.false_eq_true]
  cases pusi with
  | true => exact startPacket_after _ rfl pl
  | false => rfl

end Sys2Proof.Machine
end

section
/-! PROOFS. The statements about what FEED does with a packet (41_reassembler.md rules R157 to R165). -/

namespace Sys2Proof.Machine

open Config

/-- Settles O28: behind the counter check the two FEEDs differ by the event before the others. -/
theorem feedDiscontinuityResynchronises : Obligations.FeedDiscontinuityResynchronises := by
  intro ch cc prev pusi pl s t hlen hpl hlast hdup hnext ht
  obtain ⟨r, hr, hdmx, hret⟩ := feedPacket_of_feedWith hlen ht
  rw [State.chanRec_setChan_self] at hr
  refine ⟨r.chan, by rw [hdmx, Dmx.chanAt_setChan_self], ?_⟩
  rw [hret.events_eq]
  refine feedGives_of_feedPacket hlen ?_
  rw [feedPacket_of_discontinuity hlast hdup hnext hpl, hr]
  rfl

/-- Settles O30: every byte of the payload leaves the section open. -/
theorem feedExtendsPartialSection : Obligations.FeedExtendsPartialSection := by
  intro ch cc pl s hlen hpl hne hcc hgood
  exact feedEnds_of_continuePacket hcc hlen hpl (continuePacket_of_stillOpen hne hgood.stillOpen)

/-- Settles O31: without the flag the failed section ends the packet; with it the bytes before the pointer close at most one section,
and those from it on the others. -/
theorem feedRejectsBadChecksum : Obligations.FeedRejectsBadChecksum := by
  intro ch cc s hcc
  constructor
  case left =>
    intro pl k hlen _ hbuf hne hok hinvalid
    have hends := feedEnds_continue_of_section hcc hlen hne hbuf hok
    rwa [closeSection_of_invalid hinvalid] at hends
  case right =>
    intro pre rest y xs evs hlen hpost hxs htail
    exact ⟨fun k _ hbuf hne hok => feedEnds_start_of_section hcc hlen hpost hxs htail hne hbuf hok,
      feedEnds_start hcc hlen hpost hxs htail⟩

/-- Settles O33: neither the bytes before the pointer nor those behind it are read. -/
theorem feedBadPointer : Obligations.FeedBadPointer := by
  intro ch cc ptr data s hlen hptr hcc
  exact feedEnds_of_startPacket hcc hlen (startPacket_of_badPointer hptr)

/-- Settles O34: the bytes before the pointer leave the section open, and the parsing goes on at the pointer. -/
theorem feedLengthInconsistent : Obligations.FeedLengthInconsistent := by
  intro ch cc pre rest y xs evs s hlen hpost hne hcc hgood hxs htail
  exact feedEnds_start_of_dropped hcc hlen hpost hxs htail (finishPartial_of_stillOpen hne hgood.stillOpen)

/-- Settles O35: what stands from the pointer on is one of the ways a packet ends. -/
theorem feedStuffingAtPointer : Obligations.FeedStuffingAtPointer := by
  intro ch cc ptr data s hlen hptr hstuff hbuf hcc
  have hpost : data.drop ptr.toNat = stuffByte :: data.drop (ptr.toNat + 1) := by
    rw [List.drop_eq_getElem_cons hptr, ← hstuff, byteAt, List.getD_eq_getElem _ _ hptr]
  refine feedEnds_of_startPacket (o := .ok (s.counted ch cc)) hcc hlen ?_
  rw [startPacket_of_pointer hptr, finishPartial_of_nil hbuf, hpost]
  exact if_pos ⟨hbuf, rfl⟩

/-- Settles O36: a header from the pointer on ends the packet; one whose third byte arrives in a later packet drops the section, and
the parsing goes on only at a pointer. -/
theorem feedChecksDeclaredLength : Obligations.FeedChecksDeclaredLength := by
  intro ch cc reason s hcc
  refine ⟨?atPointer, ?withoutFlag, ?beforePointer⟩
  case atPointer =>
    intro pre h rest xs hlen hxs hbad hstuff hbuf
    have htail : PacketTail ch (h ++ rest) [] [.validationFailure ch reason] := .badLength h rest reason hbad hstuff
    have hends := feedEnds_start (pre := pre) hcc (by rw [List.length_append]; omega)
      (by rw [List.length_append, hbad.1]; omega) hxs htail hbuf
    rwa [closeThenEnd_of_badLength _ State.accepted_buf, ← List.append_assoc] at hends
  case withoutFlag =>
    intro pl k hlen hpos hk hne hbad
    have hpl : pl ≠ [] := List.ne_nil_of_length_pos (by omega)
    exact feedEnds_of_continuePacket hcc hlen hpl (continuePacket_of_badLength hne hpos hk hbad)
  case beforePointer =>
    intro pre rest y xs evs k hlen hpost hpos hk hne hbad hxs htail
    exact feedEnds_start_of_dropped hcc hlen hpost hxs htail (finishPartial_of_badLength hne hpos hk hbad)

end Sys2Proof.Machine
end

section
/-! PROOFS. The sections that FEED hands to the aggregator (41_reassembler.md rules R165 and R166, 42_demux.md rules R190 to R198). The
aggregator reads the aggregations alone, so that the sections a FEED reports, handed over by themselves, give its aggregations and its
events. -/

namespace Sys2Proof.Machine

open Config

/-! ## What the aggregator does with one section -/

section
variable {p : Params} {c : Channel} {r r' x : Rx} {s : Bytes}

/-- A section number above the last one (rule R196). -/
theorem aggregate_of_badSectionNumber (h : secLastSn s < secSn s) :
    aggregate p c r s = .ok (r.emit (.validationFailure c .badSectionNumber)) := if_pos h

section
variable {old : Agg} (hsn : ¬secLastSn s < secSn s)
  (hfor : aggFor p r.chan.aggs (aggKey (secTableId s) (secExt s)) (secVersion s) (secLastSn s) = .ok old)
include hsn hfor

/-- The section that completes its table (rules R195 and R198). -/
theorem aggregate_of_complete (hfull : (old.record (secSn s) s).complete = true) :
    aggregate p c r s =
      .ok ((r.emit (.tableCompleted c ((old.record (secSn s) s).table (secTableId s) (secExt s)))).withAggs
        (r.chan.aggs.erase (aggKey (secTableId s) (secExt s)))) := by
  simp [aggregate, hsn, hfor, hfull]

/-- A section that leaves an empty slot (rule R194). -/
theorem aggregate_of_incomplete (hopen : (old.record (secSn s) s).complete = false) :
    aggregate p c r s =
      .ok (r.withAggs (r.chan.aggs.insert (aggKey (secTableId s) (secExt s)) (old.record (secSn s) s))) := by
  simp [aggregate, hsn, hfor, hopen]

end

/-- On a channel with no aggregation the table of one section completes with that section (rules R190, R195 and R198). -/
theorem aggregate_of_singleSection (hroom : hasRoom p 0 = true) (haggs : r.chan.aggs = []) (hsn : secSn s = 0)
    (hlast : secLastSn s = 0) :
    aggregate p c r s = .ok ((r.emit (.tableCompleted c
      { tableId := secTableId s, tableIdExtension := secExt s, version := secVersion s, lastSectionNumber := 0
        sections := [s] })).withAggs []) := by
  have hnumber : ¬secLastSn s < secSn s := by simp [hsn, hlast]
  have hfor : aggFor p r.chan.aggs (aggKey (secTableId s) (secExt s)) (secVersion s) (secLastSn s) =
      .ok (Agg.fresh (secVersion s) 0) := by
    rw [haggs, hlast, aggFor, Keyed.find_nil]
    exact if_pos hroom
  have hfull : ((Agg.fresh (secVersion s) 0).record (secSn s) s).complete = true := by
    rw [hsn]
    rfl
  rw [aggregate_of_complete hnumber hfor hfull, haggs, hsn]
  rfl

/-- An event that the aggregator gives for a section, beside SECTION_COMPLETED (rules R195 and R196). -/
def Event.FromAggregator (e : Event) : Prop := e.ofSection = true ∧ e.completedSection = none

/-- The aggregator reads the aggregations alone: from two records that agree on them it leaves the same aggregations and gives the
same events. -/
theorem aggregate_of_aggs_eq (h : x.chan.aggs = r.chan.aggs) (ha : aggregate p c r s = .ok r') :
    ∃ evs x', aggregate p c x s = .ok x' ∧ x'.chan.aggs = r'.chan.aggs ∧ r'.events = r.events ++ evs ∧
      x'.events = x.events ++ evs ∧ ∀ e ∈ evs, e.FromAggregator := by
  rcases aggregate_cases ha with ⟨hsn, rfl⟩ | ⟨old, hsn, hfor, ⟨hfull, rfl⟩ | ⟨hopen, rfl⟩⟩
  case inl =>
    refine ⟨[_], _, aggregate_of_badSectionNumber hsn, h, rfl, rfl, fun e he => ?_⟩
    obtain rfl := List.mem_singleton.mp he
    exact ⟨rfl, rfl⟩
  case inr.inl =>
    refine ⟨[_], _, aggregate_of_complete hsn (h ▸ hfor) hfull, congrArg (Keyed.erase · _) h, rfl, rfl, fun e he => ?_⟩
    obtain rfl := List.mem_singleton.mp he
    exact ⟨rfl, rfl⟩
  case inr.inr =>
    exact ⟨[], _, aggregate_of_incomplete hsn (h ▸ hfor) hopen, congrArg (Keyed.insert · _ _) h, (List.append_nil _).symm,
      (List.append_nil _).symm, fun e he => nomatch he⟩

/-! ## The sections reported -/

/-- What a FEED has done is what the aggregator does, from the record `rec`, with the sections reported so far. -/
def AggregatesReported (p : Params) (c : Channel) (rec : ChanRec) (r : Rx) : Prop :=
  ∃ x, aggregateAll p c (r.events.filterMap Event.completedSection) ⟨rec, []⟩ = .ok x ∧ r.chan.aggs = x.chan.aggs ∧
    r.events.filter Event.ofSection = x.events

variable {rec : ChanRec}

theorem AggregatesReported.start {rec' : ChanRec} (h : rec'.aggs = rec.aggs) : AggregatesReported p c rec ⟨rec', []⟩ :=
  ⟨_, rfl, h, rfl⟩

theorem AggregatesReported.withBuf (h : AggregatesReported p c rec r) (b : Bytes) : AggregatesReported p c rec (r.withBuf b) := h

/-- An event that comes of no section reports none. -/
theorem AggregatesReported.emit (h : AggregatesReported p c rec r) {e : Event} (he : e.ofSection = false)
    (hnone : e.completedSection = none) : AggregatesReported p c rec (r.emit e) := by
  obtain ⟨x, hall, haggs, hevents⟩ := h
  refine ⟨x, ?_, haggs, ?_⟩
  · rw [Rx.emit_events, List.filterMap_append, List.filterMap_cons_none hnone, List.filterMap_nil, List.append_nil]
    exact hall
  · rw [Rx.emit_events, List.filter_append, List.filter_cons_of_neg (by simp [he]), List.filter_nil, List.append_nil]
    exact hevents

/-- A partial section is dropped with an event that comes of no section (rules R159, R160 and R164). -/
theorem AggregatesReported.dropPartial {reason : Reason} (hreason : reason ≠ .badSectionNumber)
    (h : AggregatesReported p c rec r) : AggregatesReported p c rec ((r.emit (.validationFailure c reason)).withBuf []) :=
  (h.emit (e := .validationFailure c reason) (decide_eq_false hreason) rfl).withBuf []

/-- A section is reported and handed to the aggregator (rules R165 and R166). -/
theorem AggregatesReported.aggregate (h : AggregatesReported p c rec r)
    (ha : aggregate p c (r.emit (.sectionCompleted c s)) s = .ok r') : AggregatesReported p c rec r' := by
  obtain ⟨x, hall, haggs, hevents⟩ := h
  obtain ⟨evs, x', hx', haggs', hr', hxe, hevs⟩ :=
    aggregate_of_aggs_eq (x := x.emit (.sectionCompleted c s)) (r := r.emit (.sectionCompleted c s)) haggs.symm ha
  have hsections : evs.filterMap Event.completedSection = [] :=
    List.filterMap_eq_nil_iff.mpr fun e he => (hevs e he).2
  have hkept : evs.filter Event.ofSection = evs := List.filter_eq_self.mpr fun e he => (hevs e he).1
  refine ⟨x', ?_, haggs'.symm, ?_⟩
  · have hreported : r'.events.filterMap Event.completedSection = r.events.filterMap Event.completedSection ++ [s] := by
      rw [hr', Rx.emit_events, List.filterMap_append, List.filterMap_append, hsections, List.append_nil]
      rfl
    rw [hreported, aggregateAll_append, hall]
    simp only [aggregateAll_cons, hx', aggregateAll_nil]
  · rw [hr', hxe, Rx.emit_events, Rx.emit_events, List.filter_append, List.filter_append, hevents, hkept]
    rfl

/-- A section that is closed is reported and handed over, or discarded (rule R165). -/
theorem AggregatesReported.closeSection (h : AggregatesReported p c rec r) (hc : closeSection p c r s = .ok r') :
    AggregatesReported p c rec r' := by
  rcases closeSection_cases hc with ⟨-, rfl⟩ | ⟨-, ha⟩
  · exact h.emit rfl rfl
  · exact h.aggregate ha

theorem aggregatesReported_keptByFeed (p : Params) (c : Channel) (rec : ChanRec) :
    KeptByFeed p c (AggregatesReported p c rec) where
  appendByte h _ ha := by
    rcases appendByte_cases ha with ⟨-, -, -, rfl⟩ | ⟨-, -, -, rfl⟩ | ⟨-, -, ⟨-, -, -, hc⟩ | ⟨-, -, rfl⟩⟩
    · exact h.dropPartial (by decide)
    · exact h.dropPartial (by decide)
    · exact (h.withBuf []).closeSection hc
    · exact h.withBuf _
  dropPartial := .dropPartial

/-- The counter check reports no section (rules R157 and R158). -/
theorem aggregatesReported_takeCounter (cc : Counter) : AggregatesReported p c rec (takeCounter c rec cc) := by
  rcases takeCounter_cases c rec cc with ⟨-, ht⟩ | ⟨prev, -, -, ht⟩
  · rw [ht]
    exact .start rfl
  · rw [ht]
    exact ((AggregatesReported.start (rec := rec) (rec' := { rec with lastCc := some cc }) rfl).emit
      (e := .discontinuity c (prev + 1) cc) rfl rfl).withBuf []

/-- The work of a FEED on a record is the aggregator's with the sections reported. -/
theorem aggregatesReported_feedPacket {cc : Counter} {pusi scr : Bool} {pl : Bytes}
    (h : feedPacket p c rec cc pusi scr pl = .ok r) : AggregatesReported p c rec r :=
  (aggregatesReported_keptByFeed p c rec).feedPacket h (.start rfl)
    (fun o => (AggregatesReported.start (rec := rec) (rec' := { rec with lastCc := o }) rfl).emit (e := .scrambledSkipped c) rfl rfl)
    (aggregatesReported_takeCounter cc)

end

/-! ## The statements -/

/-- Settles O32: closing a valid section is handing it to the aggregator, and every part of a FEED keeps `AggregatesReported`. -/
theorem feedRejectsBadSectionNumber : Obligations.FeedRejectsBadSectionNumber := by
  constructor
  case left =>
    intro ch cc pl k s hlen _ hbuf hne hcc hgood
    have hends := feedEnds_continue_of_section hcc hlen hne hbuf hgood.shape
    rw [closeSection_of_valid hgood.valid] at hends
    refine ⟨hends, fun hsn => ?_⟩
    rwa [aggregateAll_cons, aggregate_of_badSectionNumber hsn] at hends
  case right =>
    intro p ch cc pusi scr pl s t hlen ht
    obtain ⟨r, hr, hdmx, hret⟩ := feedPacket_of_feedWith hlen ht
    obtain ⟨x, hall, haggs, hevents⟩ := aggregatesReported_feedPacket hr
    have hrec : t.chanRec ch = r.chan := State.chanRec_of_chanAt (by rw [hdmx, Dmx.chanAt_setChan_self])
    rw [hret.events_eq, hrec]
    exact ⟨x, hall, haggs, hevents⟩

/-- Settles O37: valid sections that are closed are handed to the aggregator, and the table of one section completes at once. -/
theorem feedCompletesSingleSectionTable : Obligations.FeedCompletesSingleSectionTable := by
  intro ch cc s hcc
  constructor
  case left =>
    intro pre y xs n hlen hpost hxs hy hn
    have hok : ∀ x ∈ xs, outputSectionOk x = true := fun x hx => (hxs x hx).shape
    have htail : PacketTail ch (y ++ stuffing n) y [] := packetTail_stuffing n hy hn
    have hrest : (y ++ stuffing n).length = y.length + n := by rw [List.length_append, stuffing, List.length_replicate]
    rw [List.append_assoc _ y]
    constructor
    case left =>
      intro hbuf
      rw [← closeThenEnd_of_good y hxs]
      exact feedEnds_start hcc (by omega) (by omega) hok htail hbuf
    case right =>
      intro k hne hbuf _ hgood
      rw [← closeThenEnd_of_good y (List.forall_mem_cons.mpr ⟨hgood, hxs⟩)]
      exact feedEnds_start_of_section hcc (by omega) (by omega) hok htail hne hbuf hgood.shape
  case right =>
    intro pre x n hlen hgood hsn hlast hbuf haggs
    have hxs : ∀ x' ∈ [x], GoodSection x' := List.forall_mem_singleton.mpr hgood
    have htail : PacketTail ch (stuffing n) [] [] := packetTail_stuffing (y := []) n .nil (absurd rfl)
    have hrest : (stuffing n).length = n := List.length_replicate
    have hx : 12 ≤ x.length := (outputSectionOk_iff.mp hgood.shape).1
    have hends := feedEnds_start (pre := pre) (xs := [x]) hcc (by rw [List.flatten_singleton]; omega)
      (by rw [List.flatten_singleton]; omega) (fun x' hx' => (hxs x' hx').shape) htail hbuf
    have haggs' : ((s.accepted ch cc).emit (.sectionCompleted ch x)).chan.aggs = [] := haggs
    rwa [closeThenEnd_of_good [] hxs, List.flatten_singleton, aggregateAll_cons,
      aggregate_of_singleSection (hasRoom_zero params_inBounds) haggs' hsn hlast] at hends

end Sys2Proof.Machine
end

section
/-! PROOFS. One section in the aggregator, and the two resets (42_demux.md rules R190 to R200): the slots of an aggregation once the
section is recorded decide whether its table is complete; all else the aggregator leaves. -/

namespace Sys2Proof.Machine

open Config

/-! ## The slots of an aggregation -/

section
variable {a : Agg} {sn : BitVec 8} {s : Bytes} {n : Nat}

theorem Agg.getElem?_record (hsn : sn.toNat < a.slots.length) :
    (a.record sn s).slots[n]? = if n = sn.toNat then some (some s) else a.slots[n]? := by
  rw [Agg.record_slots, List.getElem?_set]
  by_cases hn : sn.toNat = n
  · subst hn
    simp [hsn]
  · rw [if_neg hn, if_neg (Ne.symm hn)]

/-- A table is complete when no slot is empty (rule R195). -/
theorem Agg.complete_iff : a.complete = true ↔ ∀ n : Nat, a.slots[n]? ≠ some none := by
  rw [Agg.complete, List.all_eq_true]
  constructor
  case mp =>
    intro h n hn
    have hnone := h none (List.mem_of_getElem? hn)
    cases hnone
  case mpr =>
    intro h o ho
    obtain ⟨n, hn⟩ := List.mem_iff_getElem?.mp ho
    exact Option.isSome_iff_ne_none.mpr fun hnone => h n (hnone ▸ hn)

/-- A recorded section completes its table when no other slot is empty (rules R194 and R195). -/
theorem Agg.record_complete_iff (hsn : sn.toNat < a.slots.length) :
    (a.record sn s).complete = true ↔ ∀ n : Nat, n ≠ sn.toNat → a.slots[n]? ≠ some none := by
  simp only [Agg.complete_iff, Agg.getElem?_record hsn]
  constructor
  case mp =>
    intro h n hn
    simpa only [if_neg hn] using h n
  case mpr =>
    intro h n
    by_cases hn : n = sn.toNat
    · simp [hn]
    · rw [if_neg hn]
      exact h n hn

/-- A recorded section leaves its table open while another slot is empty (rule R194). -/
theorem Agg.record_incomplete (hsn : sn.toNat < a.slots.length) (hne : n ≠ sn.toNat) (hempty : a.slots[n]? = some none) :
    (a.record sn s).complete = false :=
  Bool.eq_false_iff.mpr fun hfull => (Agg.record_complete_iff hsn).mp hfull n hne hempty

theorem Agg.getElem?_fresh {v : BitVec 5} {l : BitVec 8} (hn : n ≤ l.toNat) : (Agg.fresh v l).slots[n]? = some none := by
  rw [Agg.fresh_slots, List.getElem?_replicate, if_pos (Nat.lt_succ_of_le hn)]

section
variable {t : BitVec 8} {x : BitVec 16} (hfull : a.complete = true)
include hfull

/-- A reported table has one section for each slot (rule R198). -/
theorem Agg.length_table_sections : (a.table t x).sections.length = a.slots.length := by
  have hlen := congrArg List.length (map_some_reduceOption hfull)
  rwa [List.length_map] at hlen

/-- A reported table has the slots' sections in slot order (rule R198). -/
theorem Agg.getElem?_table_sections : (a.table t x).sections[n]? = a.slots[n]?.join := by
  have hslot : a.slots.reduceOption[n]?.map some = a.slots[n]? := by
    rw [← List.getElem?_map, map_some_reduceOption hfull]
  rw [← hslot]
  cases h : a.slots.reduceOption[n]? <;> exact h

end

end

/-! ## What the aggregator leaves -/

section
variable {p : Params} {c : Channel} {r r' : Rx} {s : Bytes} (h : aggregate p c r s = .ok r')
include h

/-- The aggregator keeps every aggregation but that of the section's key (rule R191). -/
theorem aggregate_find_of_ne {k : Nat} (hk : k ≠ aggKey (secTableId s) (secExt s)) :
    r'.chan.aggs.find k = r.chan.aggs.find k := by
  rcases aggregate_cases h with ⟨-, rfl⟩ | ⟨old, -, -, ⟨-, rfl⟩ | ⟨-, rfl⟩⟩
  · rfl
  · rw [Rx.withAggs_aggs, Keyed.find_erase, if_neg (Ne.symm hk)]
  · rw [Rx.withAggs_aggs, Keyed.find_insert, if_neg (Ne.symm hk)]

end

/-! ## The aggregation that a section is recorded in -/

/-- A channel with fewer aggregations than AGG_CAPACITY, or without a limit, has room for one more (rule R197). -/
theorem hasRoom_of_lt_capacity {p : Params} {n : Nat} (h : ∀ cap, p.aggCapacity = some cap → n < cap) : hasRoom p n = true :=
  Bool.eq_true_of_not_eq_false fun hfull => by
    obtain ⟨cap, hcap, hle⟩ := hasRoom_eq_false hfull
    exact absurd (h cap hcap) (Nat.not_lt.mpr hle)

section
variable {p : Params} {m : Keyed Agg} {k : Nat} {v : BitVec 5} {l : BitVec 8}

/-- The key's own aggregation, of the section's version and last section number (rule R194). -/
theorem aggFor_of_match {a : Agg} (hfind : m.find k = some a) (hv : a.version = v) (hl : a.lastSn = l) :
    aggFor p m k v l = .ok a := by
  simp only [aggFor, hfind]
  exact if_pos ⟨hv, hl⟩

/-- A fresh one, for a new key with room for it or in the place of a superseded one (rules R191 to R193 and R197). -/
theorem aggFor_of_afresh (h : (m.find k = none ∧ ∀ n, p.aggCapacity = some n → m.length < n) ∨
    ∃ a, m.find k = some a ∧ (a.version ≠ v ∨ a.lastSn ≠ l)) : aggFor p m k v l = .ok (Agg.fresh v l) := by
  rcases h with ⟨hnone, hroom⟩ | ⟨a, hfind, hother⟩
  · simp only [aggFor, hnone]
    exact if_pos (hasRoom_of_lt_capacity hroom)
  · simp only [aggFor, hfind]
    exact if_neg (not_and_or.mpr hother)

end

/-- A slot of a table of several sections beside one that is given. -/
theorem exists_other_slot {l : BitVec 8} (hl : l ≠ 0) (n : Nat) : ∃ m, m ≤ l.toNat ∧ m ≠ n := by
  have hpos : 0 < l.toNat := Nat.pos_of_ne_zero fun h => hl (BitVec.eq_of_toNat_eq h)
  by_cases hn : n = 0
  · exact ⟨1, hpos, by omega⟩
  · exact ⟨0, by omega, Ne.symm hn⟩

/-- The one section of a table completes it at once, with no other section (rules R190, R195 and R198). -/
theorem aggregate_of_fresh_singleSection {p : Params} {c : Channel} {r : Rx} {s : Bytes} (hsn : secSn s = 0) (hlast : secLastSn s = 0)
    (hfor : aggFor p r.chan.aggs (aggKey (secTableId s) (secExt s)) (secVersion s) (secLastSn s) =
      .ok (Agg.fresh (secVersion s) (secLastSn s))) :
    aggregate p c r s = .ok ((r.emit (.tableCompleted c
      { tableId := secTableId s, tableIdExtension := secExt s, version := secVersion s, lastSectionNumber := 0
        sections := [s] })).withAggs (r.chan.aggs.erase (aggKey (secTableId s) (secExt s)))) := by
  have hnumber : ¬secLastSn s < secSn s := by simp [hsn, hlast]
  have hfull : ((Agg.fresh (secVersion s) (secLastSn s)).record (secSn s) s).complete = true := by
    rw [hsn, hlast]
    rfl
  rw [aggregate_of_complete hnumber hfor hfull, hsn, hlast]
  rfl

/-! ## The statements -/

/-- Settles O41: the fresh aggregation has an empty slot beside the section's, unless the table has one section. -/
theorem aggregateStartsAfresh : Obligations.AggregateStartsAfresh := by
  intro p c r x hle hfor
  have hfor := aggFor_of_afresh hfor
  have hnumber : ¬secLastSn x < secSn x := BitVec.not_lt.mpr hle
  by_cases hlast : secLastSn x = 0
  case pos =>
    have hsn : secSn x = 0 := BitVec.le_zero_iff.mp (le_of_le_of_eq hle hlast)
    have hagg := aggregate_of_fresh_singleSection (c := c) hsn hlast hfor
    refine ⟨_, hagg, aggregate_buf hagg, aggregate_lastCc hagg, fun k => aggregate_find_of_ne hagg, fun hne => absurd hlast hne,
      fun _ => ⟨?_, rfl⟩⟩
    rw [Rx.withAggs_aggs, Keyed.find_erase, if_pos rfl]
  case neg =>
    have hslot : (secSn x).toNat < (Agg.fresh (secVersion x) (secLastSn x)).slots.length := by
      simpa using Nat.lt_succ_of_le (BitVec.le_def.mp hle)
    obtain ⟨m, hm, hne⟩ := exists_other_slot hlast (secSn x).toNat
    have hagg := aggregate_of_incomplete (c := c) hnumber hfor (Agg.record_incomplete hslot hne (Agg.getElem?_fresh hm))
    refine ⟨_, hagg, aggregate_buf hagg, aggregate_lastCc hagg, fun k => aggregate_find_of_ne hagg,
      fun _ => ⟨rfl, (Agg.fresh (secVersion x) (secLastSn x)).record (secSn x) x, ?_, rfl, rfl, by simp, fun n hn => ?_⟩,
      fun h => absurd h hlast⟩
    · rw [Rx.withAggs_aggs, Keyed.find_insert, if_pos rfl]
    · rw [Agg.getElem?_record hslot, Agg.getElem?_fresh hn, apply_ite some]

/-- Settles O42: the other empty slot leaves the table open. -/
theorem aggregateRecordsSection : Obligations.AggregateRecordsSection := by
  intro p c r x a m hle hfind hversion hlast hcount hne hempty
  have hslot : (secSn x).toNat < a.slots.length := hcount ▸ Nat.lt_succ_of_le (BitVec.le_def.mp hle)
  have hagg := aggregate_of_incomplete (p := p) (c := c) (BitVec.not_lt.mpr hle) (aggFor_of_match hfind hversion hlast)
    (Agg.record_incomplete hslot hne hempty)
  refine ⟨_, a.record (secSn x) x, hagg, rfl, aggregate_buf hagg, aggregate_lastCc hagg, ?_, rfl, rfl, ?_, fun n hn => ?_,
    fun k => aggregate_find_of_ne hagg⟩
  · rw [Rx.withAggs_aggs, Keyed.find_insert, if_pos rfl]
  · rw [Agg.getElem?_record hslot, if_pos rfl]
  · rw [Agg.getElem?_record hslot, if_neg hn]

/-- Settles O43: no slot is empty once the section is recorded, so that the table holds what the slots hold. -/
theorem aggregateCompletesTable : Obligations.AggregateCompletesTable := by
  intro p c r x a hle hfind hversion hlast hcount hothers
  have hslot : (secSn x).toNat < a.slots.length := hcount ▸ Nat.lt_succ_of_le (BitVec.le_def.mp hle)
  have hfull : (a.record (secSn x) x).complete = true := (Agg.record_complete_iff hslot).mpr fun n hn hempty => by
    have hlt : n < a.slots.length := (List.getElem?_eq_some_iff.mp hempty).1
    obtain ⟨y, hy⟩ := hothers n (by omega) hn
    cases hy.symm.trans hempty
  have hagg := aggregate_of_complete (p := p) (c := c) (BitVec.not_lt.mpr hle) (aggFor_of_match hfind hversion hlast) hfull
  refine ⟨_, _, hagg, rfl, aggregate_buf hagg, aggregate_lastCc hagg, rfl, rfl, hversion, hlast, ?_, fun n hn => ?_, ?_,
    fun k => aggregate_find_of_ne hagg⟩
  · rw [Agg.length_table_sections hfull, Agg.record_slots, List.length_set, hcount]
  · rw [Agg.getElem?_table_sections hfull, Agg.getElem?_record hslot, apply_ite Option.join]
    rfl
  · rw [Rx.withAggs_aggs, Keyed.find_erase, if_pos rfl]

/-- A channel without a record gives a FEED the fresh one (41_reassembler.md rule R152). -/
theorem State.chanRec_of_none {s : State} {ch : Channel} (h : s.dmx.chanAt ch = none) : s.chanRec ch = ChanRec.fresh := by
  rw [State.chanRec, h, Option.getD_none]

/-- Settles O44: DMX_RESET writes its channel's record away, and DMX_RESET_ALL the whole table of records. -/
theorem dmxResetsDiscardRecords : Obligations.DmxResetsDiscardRecords := by
  intro s
  constructor
  case left =>
    intro ch
    have hnone : (s.dmx.setChan ch none).chanAt ch = none := Dmx.chanAt_setChan_self s.dmx ch none
    exact ⟨_, rfl, hnone, fun c hc => Dmx.chanAt_setChan_of_ne s.dmx hc none, rfl, ⟨rfl, rfl⟩, State.chanRec_of_none hnone⟩
  case right => exact ⟨_, rfl, fun c => Keyed.find_nil c.toNat, rfl, rfl, ⟨rfl, rfl⟩⟩

end Sys2Proof.Machine
end

section
/-! PROOFS. AGG_CAPACITY and the one refusal of a FEED (42_demux.md rule R197). A FEED is run beside the same FEED with an unbounded
AGG_CAPACITY: the two go on alike until the aggregator refuses a section that the second reports. -/

namespace Sys2Proof.Machine

open Config

/-! ## The sections that the aggregator refuses -/

theorem hasRoom_eq_false_iff {p : Params} {n : Nat} : hasRoom p n = false ↔ ∃ cap, p.aggCapacity = some cap ∧ cap ≤ n :=
  ⟨hasRoom_eq_false, fun ⟨cap, hcap, hle⟩ => by simpa [hasRoom, hcap] using hle⟩

section
variable {p : Params} {c : Channel} {r : Rx} {s : Bytes} {e : Refusal}

/-- No aggregation can be had for a new key on a full channel, and only there (rule R197). -/
theorem aggFor_eq_error_iff {m : Keyed Agg} {k : Nat} {v : BitVec 5} {l : BitVec 8} :
    aggFor p m k v l = .error e ↔ e = .aggregationCapacity ∧ m.find k = none ∧ hasRoom p m.length = false := by
  rcases aggFor_cases (p := p) (m := m) (k := k) (v := v) (l := l) with
    ⟨a, hfind, -, -, hfor⟩ | ⟨a, hfind, -, hfor⟩ | ⟨hnone, hroom, hfor⟩ | ⟨hnone, hfull, hfor⟩
  · simp [hfor, hfind]
  · simp [hfor, hfind]
  · simp [hfor, hroom]
  · simp [hfor, hnone, hfull, eq_comm]

/-- The aggregator refuses a section when no aggregation can be had for it (rule R190). -/
theorem aggregate_eq_error_iff_aggFor : aggregate p c r s = .error e ↔
    ¬secLastSn s < secSn s ∧
      aggFor p r.chan.aggs (aggKey (secTableId s) (secExt s)) (secVersion s) (secLastSn s) = .error e := by
  by_cases hsn : secLastSn s < secSn s
  · simp [aggregate_of_badSectionNumber hsn, hsn]
  · cases hfor : aggFor p r.chan.aggs (aggKey (secTableId s) (secExt s)) (secVersion s) (secLastSn s) with
    | error e' => simp [aggregate, hsn, hfor]
    | ok old =>
      cases hfull : (old.record (secSn s) s).complete
      · simp [aggregate_of_incomplete hsn hfor hfull]
      · simp [aggregate_of_complete hsn hfor hfull]

/-- The aggregator refuses exactly the section that would open an aggregation on a full channel (rule R197, log 5). -/
theorem aggregate_eq_error_iff : aggregate p c r s = .error e ↔
    e = .aggregationCapacity ∧ secSn s ≤ secLastSn s ∧ r.chan.aggs.find (aggKey (secTableId s) (secExt s)) = none ∧
      ∃ cap, p.aggCapacity = some cap ∧ cap ≤ r.chan.aggs.length := by
  rw [aggregate_eq_error_iff_aggFor, aggFor_eq_error_iff, hasRoom_eq_false_iff, BitVec.not_lt]
  exact and_left_comm

/-- The aggregator's refusal depends on the aggregations alone. -/
theorem aggregate_eq_error_of_aggs_eq {x : Rx} (h : x.chan.aggs = r.chan.aggs) (ha : aggregate p c r s = .error e) :
    aggregate p c x s = .error e := by
  rw [aggregate_eq_error_iff] at ha ⊢
  rwa [h]

end

/-! ## The aggregator without a limit -/

/-- The parameters with an unbounded AGG_CAPACITY. -/
abbrev withoutCapacity (p : Params) : Params := { p with aggCapacity := none }

section
variable {p : Params} {c : Channel} {r r' : Rx} {s : Bytes}

theorem aggregate_withoutCapacity_runs (p : Params) (c : Channel) (r : Rx) (s : Bytes) :
    ∃ r', aggregate (withoutCapacity p) c r s = .ok r' := by
  cases h : aggregate (withoutCapacity p) c r s with
  | ok r' => exact ⟨r', rfl⟩
  | error e =>
    obtain ⟨-, -, -, cap, hcap, -⟩ := aggregate_eq_error_iff.mp h
    cases hcap

theorem aggFor_withoutCapacity {m : Keyed Agg} {k : Nat} {v : BitVec 5} {l : BitVec 8} {a : Agg}
    (h : aggFor p m k v l = .ok a) : aggFor (withoutCapacity p) m k v l = .ok a := by
  rcases aggFor_cases (p := p) (m := m) (k := k) (v := v) (l := l) with
    ⟨old, hfind, hv, hl, hfor⟩ | ⟨old, hfind, hother, hfor⟩ | ⟨hnone, -, hfor⟩ | ⟨-, -, hfor⟩
  · exact (aggFor_of_match hfind hv hl).trans (hfor.symm.trans h)
  · exact (aggFor_of_afresh (.inr ⟨old, hfind, not_and_or.mp hother⟩)).trans (hfor.symm.trans h)
  · exact (aggFor_of_afresh (p := withoutCapacity p) (.inl ⟨hnone, nofun⟩)).trans (hfor.symm.trans h)
  · cases hfor.symm.trans h

/-- What the aggregator does with a section within AGG_CAPACITY it does without a limit as well. -/
theorem aggregate_withoutCapacity (h : aggregate p c r s = .ok r') : aggregate (withoutCapacity p) c r s = .ok r' := by
  rcases aggregate_cases h with ⟨hsn, rfl⟩ | ⟨old, hsn, hfor, ⟨hfull, rfl⟩ | ⟨hopen, rfl⟩⟩
  · exact aggregate_of_badSectionNumber hsn
  · exact aggregate_of_complete hsn (aggFor_withoutCapacity hfor) hfull
  · exact aggregate_of_incomplete hsn (aggFor_withoutCapacity hfor) hopen

/-- The aggregator adds its events behind those before. -/
theorem aggregate_events_prefix (h : aggregate p c r s = .ok r') : r.events <+: r'.events := by
  obtain ⟨evs, -, -, -, hevents, -⟩ := aggregate_of_aggs_eq (x := r) rfl h
  exact ⟨evs, hevents.symm⟩

end

/-! ## The work of a FEED as parts in sequence -/

/-- What one byte does, and where AGG_CAPACITY enters: only where a section closes (41_reassembler.md rule R164). -/
theorem appendByte_forms (c : Channel) (r : Rx) (b : Byte) :
    (∃ reason, reason ≠ .badSectionNumber ∧
      ∀ p, appendByte p c r b = .ok ((r.emit (.validationFailure c reason)).withBuf [], .bad)) ∨
    (∀ p, appendByte p c r b = .ok (r.withBuf (r.chan.buf ++ [b]), .unfinished)) ∨
    ∀ p, appendByte p c r b =
      (closeSection p c (r.withBuf []) (r.chan.buf ++ [b])).bind fun r' => .ok (r', .closed) := by
  by_cases hlong : (r.chan.buf ++ [b]).length = 3 ∧ maxSectionSize < declLen (r.chan.buf ++ [b])
  · exact .inl ⟨.sectionTooLong, by decide, fun p => if_pos hlong⟩
  by_cases hshort : (r.chan.buf ++ [b]).length = 3 ∧ declLen (r.chan.buf ++ [b]) < minSectionSize
  · exact .inl ⟨.sectionTooShort, by decide, fun p => (if_neg hlong).trans (if_pos hshort)⟩
  by_cases hclosed : 3 ≤ (r.chan.buf ++ [b]).length ∧ (r.chan.buf ++ [b]).length = declLen (r.chan.buf ++ [b])
  · refine .inr (.inr fun p => ((if_neg hlong).trans (if_neg hshort)).trans ((if_pos hclosed).trans ?_))
    cases closeSection p c (r.withBuf []) (r.chan.buf ++ [b]) <;> rfl
  · exact .inr (.inl fun p => ((if_neg hlong).trans (if_neg hshort)).trans (if_neg hclosed))

section
variable (p : Params) (c : Channel)

/-- `append` takes one byte, and goes on while the section is open (rule R164). -/
theorem append_cons (r : Rx) (b : Byte) (bs : Bytes) :
    append p c r (b :: bs) = (appendByte p c r b).bind fun x =>
      if x.2 = .unfinished then append p c x.1 bs else .ok (x.1, bs, x.2) := by
  rw [append]
  rcases appendByte p c r b with e | ⟨r', o⟩
  · rfl
  · cases o <;> rfl

/-- The bytes before the pointer, of a packet that continues a section (rule R160). -/
theorem finishPartial_of_ne_nil {r : Rx} (h : r.chan.buf ≠ []) (pre : Bytes) :
    finishPartial p c r pre = (append p c r pre).bind fun x =>
      .ok (if x.2.2 = .unfinished then (x.1.emit (.validationFailure c .lengthInconsistent)).withBuf [] else x.1) := by
  rw [finishPartial, if_neg h]
  rcases append p c r pre with e | ⟨r', rest, o⟩
  · rfl
  · cases o <;> rfl

/-- The bytes from the pointer on, one at a time until a header fails (rules R161 and R162). -/
theorem parseSections_cons {r : Rx} {b : Byte} (h : ¬(r.chan.buf = [] ∧ b = stuffByte)) (bs : Bytes) :
    parseSections p c r (b :: bs) = (appendByte p c r b).bind fun x =>
      if x.2 = .bad then .ok x.1 else parseSections p c x.1 bs := by
  rw [parseSections, if_neg h]
  rcases appendByte p c r b with e | ⟨r', o⟩
  · rfl
  · cases o <;> rfl

/-- A packet without the flag, on a channel with a partial section (rule R163). -/
theorem continuePacket_of_ne_nil {r : Rx} (h : r.chan.buf ≠ []) (pl : Bytes) :
    continuePacket p c r pl = (append p c r pl).bind fun x => .ok x.1 := by
  rw [continuePacket, if_neg h]
  cases append p c r pl <;> rfl

end

/-! ## The sections reported before a refusal -/

/-- The aggregator, from the record `rec`, refuses one of the sections reported so far. -/
def RefusesReported (p : Params) (c : Channel) (rec : ChanRec) (e : Refusal) (r : Rx) : Prop :=
  aggregateAll p c (r.events.filterMap Event.completedSection) ⟨rec, []⟩ = .error e

section
variable {p : Params} {c : Channel} {rec : ChanRec} {e : Refusal} {r r' : Rx} {s : Bytes}

/-- What is reported behind a refused section changes nothing. -/
theorem RefusesReported.of_prefix (h : RefusesReported p c rec e r) (hevents : r.events <+: r'.events) :
    RefusesReported p c rec e r' := by
  obtain ⟨evs, hevs⟩ := hevents
  rw [RefusesReported] at h ⊢
  rw [← hevs, List.filterMap_append, aggregateAll_append, h]

/-- A section that the aggregator refuses, reported behind sections it has taken. -/
theorem AggregatesReported.refuses (h : AggregatesReported p c rec r)
    (ha : Machine.aggregate p c (r.emit (.sectionCompleted c s)) s = .error e) :
    RefusesReported p c rec e (r.emit (.sectionCompleted c s)) := by
  obtain ⟨x, hall, haggs, -⟩ := h
  have hx : Machine.aggregate p c (x.emit (.sectionCompleted c s)) s = .error e :=
    aggregate_eq_error_of_aggs_eq (r := r.emit (.sectionCompleted c s)) haggs.symm ha
  have hreported : (r.emit (.sectionCompleted c s)).events.filterMap Event.completedSection =
      r.events.filterMap Event.completedSection ++ [s] := List.filterMap_append
  rw [RefusesReported, hreported, aggregateAll_append, hall]
  simp only [aggregateAll_cons, hx]

/-- Sections that are aggregated are not refused. -/
theorem AggregatesReported.not_refuses (h : AggregatesReported p c rec r) : ¬RefusesReported p c rec e r := by
  obtain ⟨x, hall, -⟩ := h
  exact fun hrefused => nomatch hall.symm.trans hrefused

/-- Sections are refused in one way only. -/
theorem RefusesReported.unique {e' : Refusal} (h : RefusesReported p c rec e r) (h' : RefusesReported p c rec e' r) : e = e' :=
  Except.error.inj (h.symm.trans h')

end

/-! ## A FEED beside the same FEED without a limit -/

/-- Work on the record `r` that ends as `own`, beside the same work with an unbounded AGG_CAPACITY, that ends as `free`: the second
runs, and its events stand behind those of `r`; and where the sections reported so far are aggregated, either the first ends as it does
and the sections it reports are aggregated, or the first is refused as one of those sections is. `rx` is the record in what the work
ends with. -/
def Alongside (p : Params) (c : Channel) (rec : ChanRec) {α : Type} (rx : α → Rx) (r : Rx) (own free : Except Refusal α) : Prop :=
  ∃ a, free = .ok a ∧ r.events <+: (rx a).events ∧
    (AggregatesReported p c rec r →
      (own = .ok a ∧ AggregatesReported p c rec (rx a)) ∨ ∃ e, own = .error e ∧ RefusesReported p c rec e (rx a))

section
variable {p : Params} {c : Channel} {rec : ChanRec} {α β : Type} {rx : α → Rx} {r : Rx}

/-- Work that runs whatever AGG_CAPACITY is. -/
theorem Alongside.ok {a : α} (hevents : r.events <+: (rx a).events)
    (hreported : AggregatesReported p c rec r → AggregatesReported p c rec (rx a)) :
    Alongside p c rec rx r (.ok a) (.ok a) := ⟨a, rfl, hevents, fun h => .inl ⟨rfl, hreported h⟩⟩

/-- Work that leaves the record. -/
theorem Alongside.same {a : α} (h : rx a = r) : Alongside p c rec rx r (.ok a) (.ok a) :=
  .ok (h ▸ List.prefix_rfl) (h ▸ id)

/-- Work in two parts. -/
theorem Alongside.bind {own free : Except Refusal α} {rx' : β → Rx} {f g : α → Except Refusal β}
    (h : Alongside p c rec rx r own free) (hnext : ∀ a, Alongside p c rec rx' (rx a) (f a) (g a)) :
    Alongside p c rec rx' r (own.bind f) (free.bind g) := by
  obtain ⟨a, rfl, hevents, ha⟩ := h
  obtain ⟨b, hb, hevents', hb'⟩ := hnext a
  refine ⟨b, hb, hevents.trans hevents', fun hr => ?_⟩
  rcases ha hr with ⟨rfl, hreported⟩ | ⟨e, rfl, hrefused⟩
  · exact hb' hreported
  · exact .inr ⟨e, rfl, hrefused.of_prefix hevents'⟩

end

/-! ### The parts of a FEED -/

section
variable (p : Params) (c : Channel) (rec : ChanRec)

/-- A partial section is dropped with its event. -/
theorem alongside_dropPartial {r : Rx} {reason : Reason} (h : reason ≠ .badSectionNumber) :
    Alongside p c rec id r (.ok ((r.emit (.validationFailure c reason)).withBuf []))
      (.ok ((r.emit (.validationFailure c reason)).withBuf [])) :=
  .ok (List.prefix_append _ _) fun hr => hr.dropPartial h

theorem alongside_closeSection (r : Rx) (s : Bytes) :
    Alongside p c rec id r (closeSection p c r s) (closeSection (withoutCapacity p) c r s) := by
  cases hv : crcValid s with
  | false =>
    rw [closeSection_of_invalid hv, closeSection_of_invalid hv]
    exact .ok (List.prefix_append _ _) fun hr => hr.emit rfl rfl
  | true =>
    simp only [closeSection, hv, if_true]
    obtain ⟨r', hfree⟩ := aggregate_withoutCapacity_runs p c (r.emit (.sectionCompleted c s)) s
    have hevents := aggregate_events_prefix hfree
    refine ⟨r', hfree, (List.prefix_append _ _).trans hevents, fun hr => ?_⟩
    cases hown : aggregate p c (r.emit (.sectionCompleted c s)) s with
    | ok r₁ =>
      obtain rfl := Except.ok.inj ((aggregate_withoutCapacity hown).symm.trans hfree)
      exact .inl ⟨rfl, hr.aggregate hown⟩
    | error e => exact .inr ⟨e, rfl, (hr.refuses hown).of_prefix hevents⟩

theorem alongside_appendByte (r : Rx) (b : Byte) :
    Alongside p c rec Prod.fst r (appendByte p c r b) (appendByte (withoutCapacity p) c r b) := by
  rcases appendByte_forms c r b with ⟨reason, hreason, heq⟩ | heq | heq
  · rw [heq p, heq (withoutCapacity p)]
    exact .ok (List.prefix_append _ _) fun hr => hr.dropPartial hreason
  · rw [heq p, heq (withoutCapacity p)]
    exact .ok List.prefix_rfl fun hr => hr.withBuf _
  · rw [heq p, heq (withoutCapacity p)]
    exact (alongside_closeSection p c rec _ _).bind fun r' => .same rfl

theorem alongside_append (r : Rx) (bs : Bytes) :
    Alongside p c rec Prod.fst r (append p c r bs) (append (withoutCapacity p) c r bs) := by
  induction bs generalizing r with
  | nil => exact .same rfl
  | cons b bs ih =>
    rw [append_cons, append_cons]
    refine (alongside_appendByte p c rec r b).bind fun ⟨r', o⟩ => ?_
    by_cases ho : o = .unfinished
    · simpa only [if_pos ho] using ih r'
    · simpa only [if_neg ho] using .same rfl

theorem alongside_finishPartial (r : Rx) (pre : Bytes) :
    Alongside p c rec id r (finishPartial p c r pre) (finishPartial (withoutCapacity p) c r pre) := by
  by_cases hbuf : r.chan.buf = []
  · rw [finishPartial_of_nil hbuf, finishPartial_of_nil hbuf]
    exact .same rfl
  · rw [finishPartial_of_ne_nil p c hbuf, finishPartial_of_ne_nil _ c hbuf]
    refine (alongside_append p c rec r pre).bind fun ⟨r', rest, o⟩ => ?_
    by_cases ho : o = .unfinished
    · simpa only [if_pos ho] using alongside_dropPartial p c rec (by decide)
    · simpa only [if_neg ho] using .same rfl

theorem alongside_parseSections (r : Rx) (bs : Bytes) :
    Alongside p c rec id r (parseSections p c r bs) (parseSections (withoutCapacity p) c r bs) := by
  induction bs generalizing r with
  | nil => exact .same rfl
  | cons b bs ih =>
    by_cases hstuff : r.chan.buf = [] ∧ b = stuffByte
    · rw [parseSections, parseSections, if_pos hstuff, if_pos hstuff]
      exact .same rfl
    · rw [parseSections_cons p c hstuff, parseSections_cons _ c hstuff]
      refine (alongside_appendByte p c rec r b).bind fun ⟨r', o⟩ => ?_
      by_cases ho : o = .bad
      · simpa only [if_pos ho] using .same rfl
      · simpa only [if_neg ho] using ih r'

theorem alongside_startPacket (r : Rx) (pl : Bytes) :
    Alongside p c rec id r (startPacket p c r pl) (startPacket (withoutCapacity p) c r pl) := by
  cases pl with
  | nil => exact .same rfl
  | cons ptr data =>
    by_cases hptr : data.length ≤ ptr.toNat
    · rw [startPacket_of_badPointer hptr, startPacket_of_badPointer hptr]
      exact alongside_dropPartial p c rec (by decide)
    · rw [startPacket_of_pointer (Nat.not_le.mp hptr), startPacket_of_pointer (Nat.not_le.mp hptr)]
      exact (alongside_finishPartial p c rec r _).bind fun r' => alongside_parseSections p c rec r' _

theorem alongside_continuePacket (r : Rx) (pl : Bytes) :
    Alongside p c rec id r (continuePacket p c r pl) (continuePacket (withoutCapacity p) c r pl) := by
  by_cases hbuf : r.chan.buf = []
  · rw [continuePacket, continuePacket, if_pos hbuf, if_pos hbuf]
    exact .same rfl
  · rw [continuePacket_of_ne_nil p c hbuf, continuePacket_of_ne_nil _ c hbuf]
    exact (alongside_append p c rec r pl).bind fun x => .same rfl

/-- A packet's work on a record, from a point where the sections reported are aggregated, may be taken as begun at the start. -/
theorem Alongside.from_start {p : Params} {c : Channel} {rec : ChanRec} {r : Rx} {own free : Except Refusal Rx}
    (h : Alongside p c rec id r own free) (hr : AggregatesReported p c rec r) : Alongside p c rec id ⟨rec, []⟩ own free := by
  obtain ⟨a, ha, -, hend⟩ := h
  exact ⟨a, ha, List.nil_prefix, fun _ => hend hr⟩

/-- A whole packet (rule R150). -/
theorem alongside_feedPacket (cc : Counter) (pusi scr : Bool) (pl : Bytes) :
    Alongside p c rec id ⟨rec, []⟩ (feedPacket p c rec cc pusi scr pl) (feedPacket (withoutCapacity p) c rec cc pusi scr pl) := by
  have htake : AggregatesReported p c rec (takeCounter c rec cc) := aggregatesReported_takeCounter cc
  by_cases hscr : scr = true
  · simp only [feedPacket, if_pos hscr]
    exact .ok List.nil_prefix fun _ => (AggregatesReported.start rfl).emit (e := .scrambledSkipped c) rfl rfl
  by_cases hignored : pl = [] ∨ rec.lastCc = some cc
  · rw [Bool.eq_false_of_not_eq_true hscr, feedPacket_ignored hignored, feedPacket_ignored hignored]
    exact .same rfl
  obtain ⟨hpl, hdup⟩ := not_or.mp hignored
  simp only [feedPacket, if_neg hscr, if_neg hpl, if_neg hdup]
  by_cases hpusi : pusi = true
  · simp only [if_pos hpusi]
    exact (alongside_startPacket p c rec _ pl).from_start htake
  · simp only [if_neg hpusi]
    exact (alongside_continuePacket p c rec _ pl).from_start htake

/-- A packet's work without a limit runs, and the work within AGG_CAPACITY is refused exactly as the aggregator refuses the sections
it reports. -/
theorem feedPacket_refused_iff (cc : Counter) (pusi scr : Bool) (pl : Bytes) :
    ∃ r, feedPacket (withoutCapacity p) c rec cc pusi scr pl = .ok r ∧
      ∀ e, feedPacket p c rec cc pusi scr pl = .error e ↔ RefusesReported p c rec e r := by
  obtain ⟨r, hfree, -, hend⟩ := alongside_feedPacket p c rec cc pusi scr pl
  refine ⟨r, hfree, fun e => ?_⟩
  rcases hend (.start rfl) with ⟨hown, hreported⟩ | ⟨e', hown, hrefused⟩
  · rw [hown]
    exact iff_of_false nofun hreported.not_refuses
  · rw [hown, Except.error.injEq]
    exact ⟨fun he => he ▸ hrefused, hrefused.unique⟩

end

/-! ## The statement -/

/-- A FEED of an admitted payload is refused exactly when its work on the record is. -/
theorem feedWith_refused_iff {p : Params} {ch : Channel} {cc : Counter} {pusi scr : Bool} {pl : Bytes} {s : State} {e : Refusal}
    (hpl : pl.length ≤ payloadMax) :
    feedWith p ch cc pusi scr pl s = .refused e ↔ feedPacket p ch (s.chanRec ch) cc pusi scr pl = .error e := by
  rcases feedWith_cases p ch cc pusi scr pl s with ⟨hlong, -⟩ | ⟨-, ⟨e', he, heq⟩ | ⟨r, hr, heq⟩⟩
  · omega
  · rw [heq, State.chanRec, he, Host.Outcome.refused.injEq, Except.error.injEq]
  · rw [heq, State.chanRec, hr]
    exact iff_of_false nofun nofun

/-- A FEED of an admitted payload whose work on the record runs goes on. -/
theorem feedWith_of_feedPacket {p : Params} {ch : Channel} {cc : Counter} {pusi scr : Bool} {pl : Bytes} {s : State} {r : Rx}
    (hpl : pl.length ≤ payloadMax) (h : feedPacket p ch (s.chanRec ch) cc pusi scr pl = .ok r) :
    ∃ t, feedWith p ch cc pusi scr pl s = .next t ∧ t.events = r.events := by
  rcases feedWith_cases p ch cc pusi scr pl s with ⟨hlong, -⟩ | ⟨-, ⟨e, he, -⟩ | ⟨x, hx, heq⟩⟩
  · omega
  · cases he.symm.trans h
  · obtain rfl := Except.ok.inj (hx.symm.trans h)
    exact ⟨_, heq, rfl⟩

/-- Settles O17: every other command ends, and a FEED runs beside the one with an unbounded AGG_CAPACITY up to the first section that
the aggregator refuses. -/
theorem refusesOnlyBeyondAggCapacity : Obligations.RefusesOnlyBeyondAggCapacity := by
  refine ⟨?onlyFeed, ?feed, fun p c r x o => aggregate_eq_error_iff⟩
  case onlyFeed =>
    intro i s o h
    rcases exec_ends_or_refused i s with ⟨s', r, hnext, -⟩ | ⟨⟨ch, cc, pusi, scr, payload, rfl⟩, -⟩
    · cases hnext.symm.trans h
    · exact ⟨ch, cc, pusi, scr, payload, rfl, h⟩
  case feed =>
    intro p ch cc pusi scr pl s hlen
    obtain ⟨r, hfree, hrefused⟩ := feedPacket_refused_iff p ch (s.chanRec ch) cc pusi scr pl
    obtain ⟨t, ht, hevents⟩ := feedWith_of_feedPacket hlen hfree
    refine ⟨t, ht, fun o => ?_⟩
    rw [feedWith_refused_iff hlen, hevents]
    exact hrefused o

end Sys2Proof.Machine
end

section
/-! PROOFS. The Packetizer's commands (43_packetizer.md rules R211 to R224), and the tick with nothing to send (44_cycling.md rule
R250): what a write to a channel's Packetizer and what a packet slot leave alone. -/

namespace Sys2Proof.Machine

open Config

/-! ## A command that writes its channel's Packetizer alone -/

/-- A command that ends OK with its channel's Packetizer written leaves the rest of the ENC unit and the DMX unit alone. -/
theorem exists_next_setPk {s : State} {o : Host.Outcome State Fault Refusal} {ch : Channel} {q : Packetizer}
    (h : o = .next (State.reply { s with enc := s.enc.setPk ch q } ⟨.ok, none, []⟩)) :
    ∃ t, o = .next t ∧ t.enc.pkAt ch = q ∧ EncElsewhere s t ch ∧ t.enc.timeAt ch = s.enc.timeAt ch ∧
      t.enc.inflightAt ch = s.enc.inflightAt ch ∧ SameSchedule s t ∧ t.dmx = s.dmx ∧ Returned s t .ok none [] := by
  refine ⟨_, h, ?written, fun c hc => ⟨?elsewhere, rfl, rfl⟩, rfl, rfl, ⟨fun _ => rfl, rfl⟩, rfl, rfl, rfl⟩
  case written => rw [State.reply_enc, Enc.pkAt_setPk, if_pos rfl]
  case elsewhere => rw [State.reply_enc, Enc.pkAt_setPk, if_neg hc.symm]

/-- Settles O50. -/
theorem pktConfigSetsMode : Obligations.PktConfigSetsMode := fun _ _ _ => exists_next_setPk rfl

/-- Settles O45: the three outcomes of `pktLoadWith_cases`, told apart by the output-section check and by whether the queue is
full. -/
theorem pktLoadQueuesStampedSection : Obligations.PktLoadQueuesStampedSection := by
  intro ch d s
  rcases pktLoadWith_cases params ch d s with ⟨hbad, heq⟩ | ⟨hok, hfull, heq⟩ | ⟨hok, hroom, heq⟩
  case inl =>
    have hno : ¬(12 ≤ d.length ∧ d.length ≤ 4093 ∧ declLen d = d.length ∧ byteAt d 0 ≠ stuffByte) := fun hd => by
      cases hbad.symm.trans (outputSectionOk_iff.mpr hd)
    exact ⟨fun hmin hmax hdecl hfirst => absurd ⟨hmin, hmax, hdecl, hfirst⟩ hno,
      fun hmin hmax hdecl hfirst => absurd ⟨hmin, hmax, hdecl, hfirst⟩ hno, fun _ => exists_next_reply heq⟩
  case inr.inl =>
    exact ⟨fun _ _ _ _ hroom => absurd hfull hroom, fun _ _ _ _ _ => exists_next_reply heq,
      fun hno => absurd (outputSectionOk_iff.mp hok) hno⟩
  case inr.inr =>
    exact ⟨fun _ _ _ _ _ => exists_next_setPk heq, fun _ _ _ _ hfull => absurd hfull hroom,
      fun hno => absurd (outputSectionOk_iff.mp hok) hno⟩

/-! ## A packet slot -/

section
variable (e : Enc) (c : Channel)

/-- A packet slot ends in `finish_emission`, before which it has written neither the entries nor which of them are in flight. -/
theorem Enc.emitPacket_eq_finishEmission : ∃ e₁ : Enc, (e.emitPacket c).2 = e₁.finishEmission c ∧
    (∀ c', e₁.inflightAt c' = e.inflightAt c') ∧ ∀ j, e₁.entryAt j = e.entryAt j := by
  by_cases hq : (e.pkAt c).queue = []
  · exact ⟨e.setTime c _, congrArg Prod.snd (Enc.emitPacket_of_empty hq), fun _ => rfl, fun _ => rfl⟩
  · exact ⟨(e.setPk c _).setTime c _, congrArg Prod.snd (Enc.emitPacket_of_queue hq), fun _ => rfl, fun _ => rfl⟩

/-- The entries in flight after a packet slot: the channel's own one lands when the slot leaves the queue empty (44_cycling.md rule
R251). -/
theorem Enc.inflightAt_emitPacket (c' : Channel) : (e.emitPacket c).2.inflightAt c' =
    if c = c' ∧ ((e.emitPacket c).2.pkAt c).queue = [] then none else e.inflightAt c' := by
  obtain ⟨e₁, heq, hflight, -⟩ := e.emitPacket_eq_finishEmission c
  rw [heq, Enc.inflightAt_finishEmission, Enc.pkAt_finishEmission, hflight]

/-- The entries after a packet slot: the one whose emission ends is SCHEDULED again (44_cycling.md rule R251). -/
theorem Enc.entryAt_emitPacket_eq (j : Nat) : (e.emitPacket c).2.entryAt j =
    if ((e.emitPacket c).2.pkAt c).queue = [] ∧ e.inflightAt c = some j then
      (e.entryAt j).map fun n => { n with state := .scheduled }
    else e.entryAt j := by
  obtain ⟨e₁, heq, hflight, hentry⟩ := e.emitPacket_eq_finishEmission c
  rw [heq, Enc.entryAt_finishEmission, Enc.pkAt_finishEmission, hflight, hentry]

/-- A packet slot leaves every other channel's Packetizer, packet time and entry in flight alone. -/
theorem encElsewhere_emitPacket (s : State) (ch : Channel) (r : Result) :
    EncElsewhere s (State.reply { s with enc := (s.enc.emitPacket ch).2 } r) ch := by
  intro c hc
  rw [State.reply_enc, Enc.pkAt_emitPacket, Enc.timeAt_emitPacket, Enc.inflightAt_emitPacket]
  exact ⟨if_neg fun h => hc h.1.symm, if_neg hc.symm, if_neg fun h => hc h.1.symm⟩

end

/-- Every built payload is 184 bytes long (43_packetizer.md rule R217). -/
theorem Packetizer.build_payload_length (q : Packetizer) (c : Channel) : (q.build c).1.payload.length = 184 := by
  have hptr : q.pointer.length ≤ payloadMax := by
    rw [q.pointer_length]
    split <;> decide
  have hfill := fillPayload_length_le q.startsSection q.pointer q.off q.queue hptr
  rw [q.build_payload, List.length_append, stuffing, List.length_replicate]
  exact Nat.add_sub_cancel' hfill

/-- Settles O47: PKT_NEXT is one packet slot, whose packet is built. -/
theorem pktNextBuildsPacket : Obligations.PktNextBuildsPacket := by
  intro P ch s _ hq
  rcases execPktNext_cases ch s with ⟨hempty, -, -⟩ | ⟨-, heq⟩
  · exact absurd hempty hq
  · have hpacket : (s.enc.emitPacket ch).1 = ((s.enc.pkAt ch).build ch).1 := congrArg Prod.fst (Enc.emitPacket_of_queue hq)
    have hpk : (s.enc.emitPacket ch).2.pkAt ch = ((s.enc.pkAt ch).build ch).2 := by
      rw [Enc.pkAt_emitPacket, if_pos ⟨rfl, hq⟩]
    refine ⟨_, (s.enc.emitPacket ch).1, heq, ⟨rfl, rfl⟩, congrArg Packet.channel hpacket, congrArg Packet.cc hpacket,
      congrArg Packet.scrambled hpacket, ?length, Prod.ext hpacket hpk, congrArg Packetizer.cc hpk,
      (congrArg Packetizer.mode hpk :), ?time, ?inflight, encElsewhere_emitPacket s ch _, Enc.nextId_emitPacket _ ch, rfl,
      Enc.entryAt_emitPacket_eq _ ch⟩
    case length => exact (congrArg (·.payload.length) hpacket).trans (Packetizer.build_payload_length _ ch)
    case time => rw [State.reply_enc, Enc.timeAt_emitPacket, if_pos rfl]
    case inflight =>
      rw [State.reply_enc, Enc.inflightAt_emitPacket]
      exact if_congr (and_iff_right rfl) rfl rfl

/-! ## A packet slot of an idle channel -/

/-- The packet that fills an idle channel's slot: stuffing, under the counter before the next one (43_packetizer.md rule R219). -/
theorem Packetizer.stuffingPacket_eq (q : Packetizer) (c : Channel) :
    q.stuffingPacket c = ⟨c, q.cc - 1, false, false, List.replicate 184 0xFF#8⟩ := by
  have hprev : ∀ cc : Counter, cc + 15 = cc - 1 := by decide
  rw [stuffingPacket, hprev]
  rfl

/-- With no entry in flight there is no emission to end. -/
theorem Enc.finishEmission_of_inflightAt_none {e : Enc} {c : Channel} (h : e.inflightAt c = none) : e.finishEmission c = e := by
  unfold Enc.finishEmission
  split
  · rw [h]
  · rfl

/-- An idle channel has no entry in flight, so that its packet slot writes the packet time alone (rule R222). -/
theorem GoodEnc.emitPacket_of_empty {P : Params} {e : Enc} {c : Channel} (h : GoodEnc P e) (hq : (e.pkAt c).queue = []) :
    e.emitPacket c =
      (⟨c, (e.pkAt c).cc - 1, false, false, List.replicate 184 0xFF#8⟩, e.setTime c (e.timeAt c + 1)) := by
  have hnone : (e.setTime c (e.timeAt c + 1)).inflightAt c = none := h.queued.inflightAt_eq_none hq
  rw [Enc.emitPacket_of_empty hq, Packetizer.stuffingPacket_eq, Enc.finishEmission_of_inflightAt_none hnone]

/-- Settles O46. -/
theorem pktNextOnEmptyQueue : Obligations.PktNextOnEmptyQueue := by
  intro ch s hq
  rcases execPktNext_cases ch s with ⟨-, hsignal, heq⟩ | ⟨hbusy, heq⟩
  case inl =>
    refine ⟨fun _ => exists_next_reply heq, fun P _ hstuff => ?_⟩
    cases hsignal.symm.trans hstuff
  case inr =>
    refine ⟨fun hsignal => absurd ⟨hq, hsignal⟩ hbusy, fun P hgood _ => ?_⟩
    rw [hgood.emitPacket_of_empty hq] at heq
    refine ⟨_, heq, ⟨rfl, rfl⟩, rfl, ?time, rfl, fun c hc => ⟨rfl, ?elsewhere, rfl⟩, ⟨fun _ => rfl, rfl⟩, rfl⟩
    case time => rw [State.reply_enc, Enc.timeAt_setTime, if_pos rfl]
    case elsewhere => rw [State.reply_enc, Enc.timeAt_setTime, if_neg hc.symm]

/-! ## A tick with nothing ready -/

/-- A table whose values all stay stays. -/
theorem Keyed.mapValues_eq_self {β : Type} {f : β → β} {m : Keyed β} (h : ∀ k v, (k, v) ∈ m → f v = v) :
    Keyed.mapValues f m = m := by
  induction m with
  | nil => rfl
  | cons a m ih =>
    obtain ⟨k, v⟩ := a
    rw [Keyed.mapValues, h k v (by simp), ih fun k' v' hv => h k' v' (List.mem_cons_of_mem _ hv)]

section
variable {e : Enc} {c : Channel} {now : Nat} (hready : ∀ k n, (k, n) ∈ e.entries → n.ch = c → ¬Ready n now)
include hready

/-- With no entry of the channel ready, none becomes DUE (44_cycling.md rule R247). -/
theorem Enc.markDue_of_not_ready : e.markDue c now = e := by
  have hsame : Keyed.mapValues (Entry.markDue c now) e.entries = e.entries :=
    Keyed.mapValues_eq_self fun k n hn => if_neg fun hdue => hready k n hn hdue.1 (.inr hdue.2)
  rw [Enc.markDue, hsame]

/-- With no entry of the channel ready, none is selected (44_cycling.md rule R248). -/
theorem Enc.selectAndLoad_of_not_ready : e.selectAndLoad c now = e := by
  rcases e.selectAndLoad_cases c now with ⟨-, heq⟩ | ⟨i, n, -, hsel, -⟩
  · exact heq
  · obtain ⟨hmem, hch, hdue, -⟩ := selectDue_eq_some hsel
    exact absurd (.inl hdue) (hready i n hmem hch)

end

/-- Settles O58: the tick marks and selects nothing, and its packet slot is an idle one, whatever the mode. -/
theorem cycTickNothingDue : Obligations.CycTickNothingDue := by
  intro P ch s hgood hq hnone
  have hready : ∀ k n, (k, n) ∈ s.enc.entries → n.ch = ch → ¬Ready n (s.enc.timeAt ch) := fun k n hn =>
    hnone k n (Keyed.find_of_mem hgood.entries_rising hn)
  have htick : s.enc.tick ch = s.enc.emitPacket ch := by
    rw [Enc.tick, Enc.markDue_of_not_ready hready, Enc.selectAndLoad_of_not_ready hready]
  have heq : exec (.cycTick ch) s = .next (State.reply { s with enc := (s.enc.tick ch).2 }
      ⟨.ok, some (.packet (s.enc.tick ch).1), []⟩) := rfl
  rw [htick, hgood.emitPacket_of_empty hq] at heq
  exact ⟨_, heq, ⟨rfl, rfl⟩, rfl, rfl, fun _ => rfl, rfl⟩

end Sys2Proof.Machine
end

section
/-! PROOFS. Where sections begin in a built packet (43_packetizer.md rules R215 and R216): with the flag it is section bytes behind the
rest of the head section, or behind nothing; without it, the rest of the head section alone. -/

namespace Sys2Proof.Machine

open Config

section
variable {P : Params} {q : Packetizer} {x : Bytes} {rest : List Bytes}

/-! ## With the flag -/

/-- The next packet has the flag: behind its pointer byte come the bytes `z`, and then section bytes from the beginning of the
sections `qs` on. -/
structure StartsBehind (q : Packetizer) (z : Bytes) (qs : List Bytes) : Prop where
  pointer : q.pointer = [BitVec.ofNat 8 z.length]
  room : z.length < 183
  fill : fillPayload true q.pointer q.off q.queue = fillPayload true (q.pointer ++ z) 0 qs

/-- A packet with the flag begins with the head section, or with the rest of it and then the next section (rule R215). -/
theorem GoodPk.startsBehind (h : GoodPk P q) (hq : q.queue = x :: rest) (hs : q.startsSection = true) :
    (q.off = 0 ∧ StartsBehind q [] (x :: rest)) ∨ (q.off ≠ 0 ∧ rest ≠ [] ∧ StartsBehind q (x.drop q.off) rest) := by
  by_cases hoff : q.off = 0
  · refine .inl ⟨hoff, if_pos hoff, by decide, ?_⟩
    rw [hoff, hq, List.append_nil]
  · have hleft : q.headLeft = x.length - q.off := by rw [Packetizer.headLeft, hq, List.headD_cons]
    have hbegins : x.length - q.off < 183 ∧ 2 ≤ q.queue.length := by
      simpa [Packetizer.startsSection, hoff, hleft, payloadMax] using hs
    have hrest : rest ≠ [] := by
      rintro rfl
      simp [hq] at hbegins
    have hlen := q.pointer_length
    rw [if_pos hs] at hlen
    refine .inr ⟨hoff, hrest, ?_, by rw [List.length_drop]; exact hbegins.1, ?_⟩
    · rw [Packetizer.pointer, if_neg hoff, if_pos hs, hleft, List.length_drop]
    · rw [hq, fillPayload_cons_through (by rw [hlen]; decide) (h.off_head x rest hq).le (by rw [hlen]; unfold payloadMax; omega),
        if_pos rfl]

section
variable {z : Bytes} {qs : List Bytes} (hb : StartsBehind q z qs) (hs : q.startsSection = true) (hne : ∀ s ∈ qs, s ≠ [])
include hb hs hne

/-- Behind the bytes `z` the payload takes as many bytes of the sections `qs` as fit (rule R216). -/
theorem StartsBehind.takes : Takes (q.pointer ++ z) 0 qs (min (183 - z.length) qs.flatten.length)
    (fillPayload q.startsSection q.pointer q.off q.queue) := by
  have hlen : (q.pointer ++ z).length = 1 + z.length := by
    rw [List.length_append, hb.pointer, List.length_singleton]
  have hroom := hb.room
  have htakes := fillPayload_true_takes (pl := q.pointer ++ z) (by rw [hlen]; unfold payloadMax; omega) (.zero hne) hne
  rwa [hlen, List.drop_zero, Nat.sub_add_eq, ← hb.fill, ← hs] at htakes

/-- The byte behind the pointer byte and the bytes `z` is the first byte of a section (rule R215). -/
theorem StartsBehind.byteAt_payload {y : Bytes} (hhead : qs.head? = some y) (c : Channel) :
    byteAt (q.build c).1.payload (1 + z.length) = byteAt y 0 := by
  obtain ⟨qs, rfl⟩ := List.head?_eq_some_iff.mp hhead
  obtain ⟨b, y, rfl⟩ := List.exists_cons_of_ne_nil (hne y (by simp))
  have hroom := hb.room
  have hlen : (q.pointer ++ z).length = 1 + z.length := by
    rw [List.length_append, hb.pointer, List.length_singleton]
  obtain ⟨n, hn⟩ : ∃ n, min (183 - z.length) ((b :: y) :: qs).flatten.length = n + 1 :=
    Nat.exists_eq_add_one.mpr (by rw [List.flatten_cons, List.length_append, List.length_cons]; omega)
  have htakes := (hb.takes hs hne).payload
  rw [hn, List.drop_zero, List.flatten_cons, List.cons_append, List.take_succ_cons] at htakes
  rw [Packetizer.build_payload, htakes, List.append_assoc, byteAt_append_right hlen.le, hlen, Nat.sub_self]
  rfl

end

/-! ## Without the flag -/

/-- Without the flag the packet has no pointer byte, and carries as many bytes as fit of the head section's rest. -/
theorem GoodPk.fill_without_flag (h : GoodPk P q) (hq : q.queue = x :: rest) (hs : q.startsSection = false) :
    q.off ≠ 0 ∧ q.pointer = [] ∧ fillPayload q.startsSection q.pointer q.off q.queue =
      if q.off + 184 < x.length then ⟨(x.drop q.off).take 184, x :: rest, q.off + 184⟩ else ⟨x.drop q.off, rest, 0⟩ := by
  have hoff : q.off ≠ 0 := fun hzero => by simp [Packetizer.startsSection, hzero] at hs
  have hptr : q.pointer = [] := by simp [Packetizer.pointer, hoff, hs]
  refine ⟨hoff, hptr, ?_⟩
  rw [hs, hptr, hq]
  split
  next hlong => exact fillPayload_cons_within (pl := []) (by decide) hlong
  next hfits => exact fillPayload_cons_through (pl := []) (by decide) (h.off_head x rest hq).le (Nat.not_lt.mp hfits)

end

/-! ## The statement -/

/-- Settles O49. -/
theorem flagMarksSectionStart : Obligations.FlagMarksSectionStart := by
  intro p q c x rest h hq
  refine ⟨fun hs => ?withFlag, fun hs => ?withoutFlag⟩
  case withFlag =>
    have hsections : ∀ s ∈ x :: rest, s ≠ [] := fun s hmem => (h.sections s (hq ▸ hmem)).ne_nil
    have hptr : ∀ z qs, StartsBehind q z qs → (BitVec.ofNat 8 z.length).toNat = z.length := fun z qs hb => by
      have hroom := hb.room
      exact Nat.mod_eq_of_lt (by omega)
    rcases h.startsBehind hq hs with ⟨hoff, hb⟩ | ⟨hoff, hrest, hb⟩
    · refine ⟨_, x, hb.pointer, if_pos hoff, ?_⟩
      rw [hptr _ _ hb, if_pos hoff]
      exact ⟨rfl, by decide, hb.byteAt_payload hs hsections rfl c⟩
    · obtain ⟨y, ys, rfl⟩ := List.exists_cons_of_ne_nil hrest
      refine ⟨_, y, hb.pointer, if_neg hoff, ?_⟩
      rw [hptr _ _ hb, if_neg hoff]
      exact ⟨List.length_drop, Nat.add_lt_add_left hb.room 1,
        hb.byteAt_payload hs (fun s hmem => hsections s (List.mem_cons_of_mem x hmem)) rfl c⟩
  case withoutFlag =>
    obtain ⟨hoff, hptr, hfill⟩ := h.fill_without_flag hq hs
    have hlen : min 184 (x.length - q.off) = ((x.drop q.off).take 184).length := by rw [List.length_take, List.length_drop]
    rw [Packetizer.build_payload, Packetizer.build_queue, Packetizer.build_off, hfill, hlen]
    refine ⟨hptr, hoff, ?_⟩
    split
    next => exact ⟨List.take_left, .inl rfl⟩
    next hfits =>
      have hall : (x.drop q.off).take 184 = x.drop q.off := List.take_of_length_le (by rw [List.length_drop]; omega)
      rw [hall]
      exact ⟨List.take_left, .inr ⟨rfl, rfl⟩⟩

end Sys2Proof.Machine
end

section
/-! PROOFS. The round trip from one channel's Packetizer to a DMX channel (43_packetizer.md rule R225). The receiver is in step with
the Packetizer when its partial section is what the Packetizer has emitted of its head section, and the next packet's counter
continues. A packet slot keeps them in step, and the packet reports the sections that the slot takes off the queue. -/

namespace Sys2Proof.Machine

open Config

/-! ## What the receiver reports of valid sections -/

section
variable {p : Params} {c : Channel} {r r' : Rx}

/-- A section that is reported and handed to the aggregator is the one more section completed (rules R166 and R190). -/
theorem aggregate_completedSection {x : Bytes} (h : aggregate p c (r.emit (.sectionCompleted c x)) x = .ok r') :
    r'.events.filterMap Event.completedSection = r.events.filterMap Event.completedSection ++ [x] := by
  obtain ⟨evs, -, -, -, hr', -, hevs⟩ := aggregate_of_aggs_eq (x := r.emit (.sectionCompleted c x)) rfl h
  have hnone : evs.filterMap Event.completedSection = [] := List.filterMap_eq_nil_iff.mpr fun e he => (hevs e he).2
  rw [hr', Rx.emit_events, List.filterMap_append, List.filterMap_append, hnone, List.append_nil]
  rfl

/-- Valid sections are completed in order, and leave the counter. -/
theorem aggregateAll_completedSections {xs : List Bytes} (h : aggregateAll p c xs r = .ok r') :
    r'.events.filterMap Event.completedSection = r.events.filterMap Event.completedSection ++ xs ∧
      r'.chan.lastCc = r.chan.lastCc := by
  induction xs generalizing r with
  | nil =>
    cases h
    exact ⟨(List.append_nil _).symm, rfl⟩
  | cons x xs ih =>
    rw [aggregateAll_cons] at h
    cases ha : aggregate p c (r.emit (.sectionCompleted c x)) x with
    | error e => simp [ha] at h
    | ok r₁ =>
      obtain ⟨hcompleted, hcc⟩ := ih (by simpa [ha] using h)
      rw [hcompleted, hcc, aggregate_completedSection ha, aggregate_lastCc ha, List.append_assoc]
      exact ⟨rfl, rfl⟩

/-- A packet that closes valid sections and leaves the partial section `y` completes them in order. -/
theorem closeThenEnd_completedSections {xs : List Bytes} {y : Bytes} (hxs : ∀ x ∈ xs, GoodSection x)
    (h : closeThenEnd p c xs y [] r = .ok r') :
    r'.events.filterMap Event.completedSection = r.events.filterMap Event.completedSection ++ xs ∧ r'.chan.buf = y ∧
      r'.chan.lastCc = r.chan.lastCc := by
  rw [closeThenEnd_of_good y hxs] at h
  cases ha : aggregateAll p c xs r with
  | error e => simp [ha, Except.map] at h
  | ok r₁ =>
    obtain rfl : r₁.withBuf y = r' := by simpa [ha, Except.map] using h
    obtain ⟨hcompleted, hcc⟩ := aggregateAll_completedSections ha
    exact ⟨hcompleted, rfl, hcc⟩

/-- A packet that closes one section and leaves no partial section. -/
theorem closeThenEnd_singleton {x : Bytes} (hr : r.chan.buf = []) : closeThenEnd p c [x] [] [] r = closeSection p c r x := by
  rw [closeThenEnd_cons]
  cases hc : closeSection p c r x with
  | error e => rfl
  | ok r' =>
    have hbuf : r'.chan.buf = [] := (closeSection_buf hc).trans hr
    simp [closeThenEnd, Except.bind, Except.map, ← hbuf]

/-- The work of a packet with the flag once the bytes before the pointer are dealt with and leave no partial section (rules R159 to
R161). -/
theorem startPacket_closeThenEnd {pre tail y : Bytes} {xs : List Bytes} {evs : List Event} {o : Except Refusal Rx}
    (hlen : pre.length < 256) (hpost : 1 ≤ (xs.flatten ++ tail).length) (hxs : ∀ x ∈ xs, outputSectionOk x = true)
    (htail : PacketTail c tail y evs) (hpre : finishPartial p c r pre = o) (hbuf : ∀ r', o = .ok r' → r'.chan.buf = []) :
    startPacket p c r (BitVec.ofNat 8 pre.length :: (pre ++ (xs.flatten ++ tail))) = o.bind (closeThenEnd p c xs y evs) := by
  rw [startPacket_of_parts hlen hpost, hpre]
  cases o with
  | error e => rfl
  | ok r' => exact parseSections_eq_closeThenEnd (hbuf r' rfl) hxs htail

end

/-- The work of a FEED of an accepted packet with the flag (rule R159). -/
theorem Continues.feedPacket_start {r : ChanRec} {cc : Counter} (h : Continues r cc) (p : Params) (c : Channel) {pl : Bytes}
    (hpl : pl ≠ []) : feedPacket p c r cc true false pl = startPacket p c ⟨{ r with lastCc := some cc }, []⟩ pl := by
  rw [← h.takeCounter c]
  simp [feedPacket, hpl, h.not_duplicate]

/-! ## What the Packetizer has begun -/

/-- The bytes of the head section already emitted. -/
def Packetizer.begun (q : Packetizer) : Bytes := q.queue.flatten.take q.off

/-- A section without its end is a partial section. -/
theorem GoodSection.goodBuf_take {x : Bytes} (h : GoodSection x) {n : Nat} (hn : n < x.length) : GoodBuf (x.take n) := by
  have hlast := List.dropLast_append_getLast h.ne_nil
  have hbuf : GoodBuf x.dropLast := GoodBuf.of_section (b := x.getLast h.ne_nil) (by rw [hlast]; exact h.shape)
  have htake : x.take n = x.dropLast.take n := by
    rw [List.dropLast_eq_take, List.take_take, Nat.min_eq_left (by omega)]
  rw [htake]
  rw [← List.take_append_drop n x.dropLast] at hbuf
  exact hbuf.of_append

section
variable {P : Params} {q : Packetizer} {x : Bytes} {rest : List Bytes}

theorem GoodPk.begun_cons (h : GoodPk P q) (hq : q.queue = x :: rest) : q.begun = x.take q.off := by
  rw [Packetizer.begun, hq, List.flatten_cons, List.take_append_of_le_length (h.off_head x rest hq).le]

/-- What has been emitted of the head section is a partial section. -/
theorem GoodPk.goodBuf_begun (h : GoodPk P q) : GoodBuf q.begun := by
  cases hq : q.queue with
  | nil =>
    rw [Packetizer.begun, hq]
    simpa using GoodBuf.nil
  | cons x rest =>
    rw [h.begun_cons hq]
    exact (h.sections x (by simp [hq])).goodBuf_take (h.off_head x rest hq)

end

/-- A filling from the beginning of a section takes whole sections, and behind them the beginning of the section at the new
offset. -/
theorem Takes.whole_sections {pl : Bytes} {q : List Bytes} {n : Nat} {f : Filled} (h : Takes pl 0 q n f) :
    ∃ done, q = done ++ f.queue ∧ f.payload = pl ++ (done.flatten ++ f.queue.flatten.take f.off) := by
  obtain ⟨done, rfl⟩ := h.suffix
  refine ⟨done, rfl, ?_⟩
  have hunsent : f.queue.flatten.drop f.off = (done ++ f.queue).flatten.drop n := h.unsent
  have hbytes : (done ++ f.queue).flatten.take n ++ f.queue.flatten.drop f.off =
      done.flatten ++ f.queue.flatten.take f.off ++ f.queue.flatten.drop f.off := by
    rw [hunsent, List.take_append_drop, ← hunsent, List.append_assoc, List.take_append_drop, List.flatten_append]
  rw [h.payload, List.drop_zero, List.append_cancel_right hbytes]

/-- A filling that stops within a section has not run out of bytes. -/
theorem Takes.lt_of_begun {pl : Bytes} {off n : Nat} {q : List Bytes} {f : Filled} (h : Takes pl off q n f)
    (hbegun : f.queue.flatten.take f.off ≠ []) : n < (q.flatten.drop off).length := by
  by_contra hall
  have hnone : f.queue.flatten.drop f.off = [] := by rw [h.unsent, List.drop_of_length_le (Nat.not_lt.mp hall)]
  obtain ⟨s, rest, hq⟩ := List.exists_cons_of_ne_nil (show f.queue ≠ [] from fun hq => hbegun (by simp [hq]))
  have hhead := h.offset.head s rest hq
  rw [hq, drop_flatten_cons hhead.le] at hnone
  have hlen := congrArg List.length hnone
  rw [List.length_append, List.length_drop, List.length_nil] at hlen
  omega

/-- The payload of a packet with the flag: behind the bytes `z` whole sections, then the beginning of the next one up to the
packet's end, or else stuffing (43_packetizer.md rules R216 and R217). -/
theorem StartsBehind.build_payload_sections {q : Packetizer} {z : Bytes} {qs : List Bytes} (hb : StartsBehind q z qs)
    (hs : q.startsSection = true) (hne : ∀ s ∈ qs, s ≠ []) (c : Channel) :
    ∃ done m, qs = done ++ (q.build c).2.queue ∧ ((q.build c).2.begun ≠ [] → m = 0) ∧
      1 ≤ (done.flatten ++ ((q.build c).2.begun ++ stuffing m)).length ∧
      (q.build c).1.payload =
        BitVec.ofNat 8 z.length :: (z ++ (done.flatten ++ ((q.build c).2.begun ++ stuffing m))) := by
  have htakes := hb.takes hs hne
  obtain ⟨done, hqs, hfilled⟩ := htakes.whole_sections
  have hroom := hb.room
  have hpayload : (q.build c).1.payload = BitVec.ofNat 8 z.length :: (z ++ (done.flatten ++ ((q.build c).2.begun ++
      stuffing (payloadMax - (fillPayload q.startsSection q.pointer q.off q.queue).payload.length)))) :=
    calc (q.build c).1.payload = q.pointer ++ z ++ (done.flatten ++ (q.build c).2.begun) ++ stuffing _ :=
          (q.build_payload c).trans (congrArg (· ++ stuffing _) hfilled)
      _ = _ := by simp only [hb.pointer, List.append_assoc, List.cons_append, List.nil_append]
  refine ⟨done, _, hqs, fun hbegun => Nat.sub_eq_zero_of_le ?full, ?post, hpayload⟩
  case full =>
    have hlt := htakes.lt_of_begun hbegun
    rw [htakes.payload, List.length_append, List.length_append, hb.pointer, List.length_singleton, List.length_take]
    rw [List.drop_zero] at hlt ⊢
    unfold payloadMax
    omega
  case post =>
    have hlen := congrArg List.length hpayload
    rw [q.build_payload_length c, List.length_cons, List.length_append] at hlen
    omega

/-! ## A packet slot keeps the receiver in step -/

/-- The receiver's record is in step with the Packetizer: it holds what has been emitted of the head section, and the next packet's
counter continues its own. -/
structure InStep (q : Packetizer) (rec : ChanRec) : Prop where
  buf : rec.buf = q.begun
  counter : Continues rec q.cc

section
variable {P : Params} {q : Packetizer} {rec : ChanRec} (hstep : InStep q rec) (h : GoodPk P q)
include hstep h

/-- Within its head section the Packetizer finds the receiver with an open section, which the rest of the head section completes. -/
theorem InStep.buf_of_off_ne_zero {x : Bytes} {rest : List Bytes} (hcons : q.queue = x :: rest) (hoff : q.off ≠ 0) :
    rec.buf ≠ [] ∧ StillOpen rec.buf ∧ rec.buf = x.take q.off ∧ rec.buf ++ x.drop q.off = x := by
  have hlt := h.off_head x rest hcons
  have hbuf : rec.buf = x.take q.off := hstep.buf.trans (h.begun_cons hcons)
  refine ⟨?_, hstep.buf ▸ h.goodBuf_begun.stillOpen, hbuf, by rw [hbuf, List.take_append_drop]⟩
  rw [hbuf]
  exact List.ne_nil_of_length_pos (by rw [List.length_take]; omega)

variable (hq : q.queue ≠ [])
include hq

/-- The work of a FEED of the next packet with the flag: the sections that the packet completes, and the one it begins. -/
theorem InStep.feedPacket_with_flag (hs : q.startsSection = true) (p : Params) (c d : Channel) :
    ∃ done, q.queue = done ++ (q.build c).2.queue ∧
      feedPacket p d rec q.cc true false (q.build c).1.payload =
        closeThenEnd p d done (q.build c).2.begun [] ⟨{ rec with lastCc := some q.cc, buf := [] }, []⟩ := by
  obtain ⟨x, rest, hcons⟩ := List.exists_cons_of_ne_nil hq
  have hsections : ∀ s ∈ x :: rest, GoodSection s := hcons ▸ h.sections
  have hbegun := (h.build hq c).goodBuf_begun
  rcases h.startsBehind hcons hs with ⟨hoff, hb⟩ | ⟨hoff, -, hb⟩
  case inl =>
    obtain ⟨done, m, hdone, hm, hpost, hpayload⟩ := hb.build_payload_sections hs (fun s hmem => (hsections s hmem).ne_nil) c
    have hbuf : rec.buf = [] := by rw [hstep.buf, h.begun_cons hcons, hoff, List.take_zero]
    refine ⟨done, hcons.trans hdone, ?_⟩
    rw [hstep.counter.feedPacket_start p d (by simp [hpayload]), hpayload,
      startPacket_closeThenEnd (by decide) hpost (fun s hmem => (hsections s (by simp [hdone, hmem])).shape)
        (packetTail_stuffing m hbegun hm) (finishPartial_of_nil hbuf) (fun r' hr => by cases hr; exact hbuf), ← hbuf]
    rfl
  case inr =>
    have hrest : ∀ s ∈ rest, GoodSection s := fun s hmem => hsections s (List.mem_cons_of_mem x hmem)
    obtain ⟨done, m, hdone, hm, hpost, hpayload⟩ := hb.build_payload_sections hs (fun s hmem => (hrest s hmem).ne_nil) c
    obtain ⟨hne, hopen, -, hwhole⟩ := hstep.buf_of_off_ne_zero h hcons hoff
    have hroom := hb.room
    have hpre : finishPartial p d ⟨{ rec with lastCc := some q.cc }, []⟩ (x.drop q.off) =
        closeSection p d ⟨{ rec with lastCc := some q.cc, buf := [] }, []⟩ x := by
      have hsection := finishPartial_of_section (p := p) (c := d) (r := ⟨{ rec with lastCc := some q.cc }, []⟩)
        (bs := x.drop q.off) (k := (x.drop q.off).length) hne hopen
      rw [List.take_length, hwhole] at hsection
      exact hsection (hsections x (by simp)).shape
    refine ⟨x :: done, by rw [hcons, hdone, List.cons_append], ?_⟩
    rw [hstep.counter.feedPacket_start p d (by simp [hpayload]), hpayload,
      startPacket_closeThenEnd (by omega) hpost (fun s hmem => (hrest s (by simp [hdone, hmem])).shape)
        (packetTail_stuffing m hbegun hm) hpre (fun r' hr => closeSection_buf hr), closeThenEnd_cons]

/-- The work of a FEED of the next packet without the flag: the section that the packet completes, or goes on with. -/
theorem InStep.feedPacket_without_flag (hs : q.startsSection = false) (p : Params) (c d : Channel) :
    ∃ done, q.queue = done ++ (q.build c).2.queue ∧
      feedPacket p d rec q.cc false false (q.build c).1.payload =
        closeThenEnd p d done (q.build c).2.begun [] ⟨{ rec with lastCc := some q.cc, buf := [] }, []⟩ := by
  obtain ⟨x, rest, hcons⟩ := List.exists_cons_of_ne_nil hq
  obtain ⟨hoff, -, hfill⟩ := h.fill_without_flag hcons hs
  obtain ⟨hne, hopen, hbuf, hwhole⟩ := hstep.buf_of_off_ne_zero h hcons hoff
  have hx : GoodSection x := h.sections x (by simp [hcons])
  have hnil : (q.build c).1.payload ≠ [] := List.ne_nil_of_length_pos (by rw [q.build_payload_length c]; decide)
  rw [hstep.counter.feedPacket_continue p d hnil]
  by_cases hlong : q.off + 184 < x.length
  case pos =>
    rw [if_pos hlong] at hfill
    have hlen : ((x.drop q.off).take 184).length = 184 := by
      rw [List.length_take, List.length_drop]
      omega
    have hpayload : (q.build c).1.payload = (x.drop q.off).take 184 := by
      rw [q.build_payload, hfill, hlen]
      exact List.append_nil _
    have hbegun : (q.build c).2.begun = rec.buf ++ (x.drop q.off).take 184 := by
      rw [Packetizer.begun, q.build_queue, q.build_off, hfill, List.flatten_cons, List.take_append_of_le_length hlong.le,
        List.take_add, hbuf]
    refine ⟨[], by rw [q.build_queue, hfill, hcons, List.nil_append], ?_⟩
    rw [hbegun, hpayload]
    refine continuePacket_of_stillOpen hne ?_
    rw [← hbegun]
    exact (h.build hq c).goodBuf_begun.stillOpen
  case neg =>
    rw [if_neg hlong] at hfill
    have hbegun : (q.build c).2.begun = [] := by
      rw [Packetizer.begun, q.build_off, hfill, List.take_zero]
    refine ⟨[x], by rw [q.build_queue, hfill, hcons, List.singleton_append], ?_⟩
    have hsection := continuePacket_of_section (p := p) (c := d) (r := ⟨{ rec with lastCc := some q.cc }, []⟩)
      (bs := (q.build c).1.payload) (k := (x.drop q.off).length) hne hopen
    rw [q.build_payload, hfill, List.take_left, hwhole] at hsection
    rw [hbegun, closeThenEnd_singleton rfl, q.build_payload, hfill]
    exact hsection hx.shape

/-- The work of a FEED of the next packet. -/
theorem InStep.feedPacket_build (p : Params) (c d : Channel) :
    ∃ done, q.queue = done ++ (q.build c).2.queue ∧
      feedPacket p d rec q.cc q.startsSection false (q.build c).1.payload =
        closeThenEnd p d done (q.build c).2.begun [] ⟨{ rec with lastCc := some q.cc, buf := [] }, []⟩ := by
  cases hs : q.startsSection with
  | true => exact hstep.feedPacket_with_flag h hq hs p c d
  | false => exact hstep.feedPacket_without_flag h hq hs p c d

/-- The next packet of the queue, fed, keeps the receiver in step and completes the sections that it takes off the queue. -/
theorem InStep.build {p : Params} {c d : Channel} {r : Rx}
    (hfeed : feedPacket p d rec q.cc q.startsSection false (q.build c).1.payload = .ok r) :
    InStep (q.build c).2 r.chan ∧ r.events.filterMap Event.completedSection ++ (q.build c).2.queue = q.queue := by
  obtain ⟨done, hdone, heq⟩ := hstep.feedPacket_build h hq p c d
  have hsections : ∀ s ∈ done, GoodSection s := fun s hs => h.sections s (by simp [hdone, hs])
  obtain ⟨hcompleted, hbuf, hcc⟩ := closeThenEnd_completedSections hsections (heq.symm.trans hfeed)
  refine ⟨⟨hbuf, fun prev hprev => ?_⟩, by rw [hcompleted, hdone]; rfl⟩
  obtain rfl := Option.some.inj (hcc.symm.trans hprev)
  rfl

end

section
variable {rec : ChanRec} {p : Params} {d : Channel}

/-- A stuffing packet, fed, does nothing: it is a duplicate, or the receiver has no partial section (rules R156, R163 and R219). -/
theorem InStep.stuffing {q : Packetizer} (hstep : InStep q rec) (hq : q.queue = []) {r : Rx}
    (hfeed : feedPacket p d rec (q.cc - 1) false false (List.replicate 184 0xFF#8) = .ok r) :
    InStep q r.chan ∧ r.events = [] := by
  have hbuf : rec.buf = [] := by rw [hstep.buf, Packetizer.begun, hq, List.flatten_nil, List.take_nil]
  cases hcc : rec.lastCc with
  | some prev =>
    have hdup : rec.lastCc = some (q.cc - 1) := by rw [hcc, hstep.counter prev hcc, BitVec.add_sub_cancel]
    obtain rfl := Except.ok.inj ((feedPacket_ignored (.inr hdup)).symm.trans hfeed)
    exact ⟨hstep, rfl⟩
  | none =>
    have hcounter : Continues rec (q.cc - 1) := fun prev hsome => by cases hcc.symm.trans hsome
    rw [hcounter.feedPacket_continue p d (by simp), continuePacket, if_pos hbuf] at hfeed
    obtain rfl := Except.ok.inj hfeed
    refine ⟨⟨hstep.buf, fun prev hsome => ?_⟩, rfl⟩
    obtain rfl := Option.some.inj hsome
    exact (BitVec.sub_add_cancel q.cc 1).symm

/-- One packet slot, its packet fed: the receiver stays in step, and the packet completes the sections that the slot takes off the
queue. -/
theorem InStep.emitPacket {P : Params} {e : Enc} {c : Channel} (hstep : InStep (e.pkAt c) rec) (h : GoodPk P (e.pkAt c)) {r : Rx}
    (hfeed : feedPacket p d rec (e.emitPacket c).1.cc (e.emitPacket c).1.pusi (e.emitPacket c).1.scrambled
      (e.emitPacket c).1.payload = .ok r) :
    GoodPk P ((e.emitPacket c).2.pkAt c) ∧ InStep ((e.emitPacket c).2.pkAt c) r.chan ∧
      r.events.filterMap Event.completedSection ++ ((e.emitPacket c).2.pkAt c).queue = (e.pkAt c).queue := by
  rw [Enc.pkAt_emitPacket]
  by_cases hq : (e.pkAt c).queue = []
  · rw [Enc.emitPacket_of_empty hq, Packetizer.stuffingPacket_eq] at hfeed
    obtain ⟨hstep', hevents⟩ := hstep.stuffing hq hfeed
    rw [if_neg fun hbusy => hbusy.2 hq, hevents]
    exact ⟨h, hstep', rfl⟩
  · rw [Enc.emitPacket_of_queue hq] at hfeed
    rw [if_pos ⟨rfl, hq⟩]
    exact ⟨h.build hq c, hstep.build h hq hfeed⟩

/-- The packets of `n` slots, fed in order, complete the sections that the slots take off the queue. -/
theorem InStep.emitMany {P : Params} {c : Channel} {n : Nat} {e e' : Enc} {ks : List Packet} {evs : List Event} {r : ChanRec}
    (hstep : InStep (e.pkAt c) rec) (h : GoodPk P (e.pkAt c)) (hemit : e.emitMany c n = (ks, e'))
    (hfeed : feedAll p d ks rec = .ok (evs, r)) :
    evs.filterMap Event.completedSection ++ (e'.pkAt c).queue = (e.pkAt c).queue := by
  induction n generalizing e rec ks evs with
  | zero =>
    cases hemit
    cases hfeed
    rfl
  | succ n ih =>
    obtain ⟨rfl, rfl⟩ := Prod.mk.inj hemit
    rw [feedAll] at hfeed
    cases hx : feedPacket p d rec (e.emitPacket c).1.cc (e.emitPacket c).1.pusi (e.emitPacket c).1.scrambled
        (e.emitPacket c).1.payload with
    | error err => simp [hx] at hfeed
    | ok x =>
      obtain ⟨hgood, hstep', hqueue⟩ := hstep.emitPacket h hx
      cases hrest : feedAll p d ((e.emitPacket c).2.emitMany c n).1 x.chan with
      | error err => simp [hx, hrest] at hfeed
      | ok y =>
        simp only [hx, hrest] at hfeed
        obtain ⟨rfl, rfl⟩ := Prod.mk.inj (Except.ok.inj hfeed)
        rw [List.filterMap_append, List.append_assoc, ih hstep' hgood rfl hrest, hqueue]

end

/-- Settles O51: a fresh record is in step with a Packetizer that has emitted nothing of its head section, and with the queue empty at
the end every section has been completed. -/
theorem packetizedSectionsArriveInOrder : Obligations.PacketizedSectionsArriveInOrder := by
  intro p c d xs n e e' ks evs r hxs hqueue hoff hemit hend hfeed
  have hsections : ∀ s ∈ (e.pkAt c).queue, GoodSection s := by
    rw [hqueue]
    intro s hs
    obtain ⟨x, hx, rfl⟩ := List.mem_map.mp hs
    exact goodSection_stamp (hxs x hx)
  have hgood : GoodPk { p with pktQueueDepth := (e.pkAt c).queue.length } (e.pkAt c) :=
    { depth := Nat.le_refl _
      off_empty := fun _ => hoff
      off_head := fun s rest hq => by
        rw [hoff]
        exact List.length_pos_iff.mpr (hsections s (by simp [hq])).ne_nil
      sections := hsections }
  have hstep : InStep (e.pkAt c) ChanRec.fresh := ⟨by rw [Packetizer.begun, hoff]; rfl, fun _ hprev => nomatch hprev⟩
  have harrive := hstep.emitMany hgood hemit hfeed
  rwa [hend, List.append_nil, hqueue] at harrive

end Sys2Proof.Machine
end

section
/-! PROOFS. The commands that write the cycle schedule (44_cycling.md rules R242 to R245): CYC_ADD, CYC_REMOVE and CYC_REPLACE. -/

namespace Sys2Proof.Machine

open Config

/-! ## The operands -/

/-- The table operand of 1 to 256 sections of the right shape parses to them (rule R243). -/
theorem parseTable_tableOperand {t : List Bytes} (hpos : 1 ≤ t.length) (hle : t.length ≤ 256)
    (hok : ∀ x ∈ t, outputSectionOk x = true) : parseTable (tableOperand t) = some t :=
  (tableOperandParsesExactly (tableOperand t) t).mpr ⟨hpos, hle, hok, rfl⟩

section
variable (interval : BitVec 32) (t : List Bytes)

/-- The interval stands before the table (30_encoding.md rule R94). -/
theorem be32_cycAddOperand : be32 (cycAddOperand interval t) 0 = interval := be32_toBe32 interval

theorem six_le_length_cycAddOperand : 6 ≤ (cycAddOperand interval t).length := by
  rw [cycAddOperand, tableOperand, List.length_append, List.length_append, toBe32_length, toBe16_length]
  omega

theorem drop_cycAddOperand : (cycAddOperand interval t).drop 4 = tableOperand t := List.drop_left' (toBe32_length interval)

end

/-! ## CYC_ADD -/

/-- Settles O52: with every check of `cycAddWith_cases` passed, the entry is written under the next id. -/
theorem cycAddRegistersEntry : Obligations.CycAddRegistersEntry := by
  intro ch interval tbl s hpos hle hok hinterval hroom hid
  have hlen := six_le_length_cycAddOperand interval tbl
  have hparse := parseTable_tableOperand hpos hle hok
  have hcases := cycAddWith_cases params ch (cycAddOperand interval tbl) s
  rw [drop_cycAddOperand, be32_cycAddOperand, hparse] at hcases
  rcases hcases with ⟨hshort | hbad, -⟩ | ⟨t, -, ht, ⟨hzero, -⟩ | ⟨-, hfull, -⟩ | ⟨-, -, heq⟩⟩
  · omega
  · cases hbad
  · exact absurd hzero hinterval
  · exact absurd hfull (not_or.mpr ⟨hroom, hid⟩)
  · obtain rfl := Option.some.inj ht
    have hentry := fun i => Enc.entryAt_setEntry s.enc s.enc.nextId i ⟨ch, interval, tbl, s.enc.timeAt ch, .scheduled⟩
    exact ⟨_, heq, ⟨rfl, rfl⟩, (hentry _).trans (if_pos rfl), fun i hi => (hentry i).trans (if_neg hi.symm), rfl,
      fun _ => ⟨rfl, rfl, rfl⟩, rfl⟩

/-- Settles O53: the failures of `cycAddWith_cases`, told apart by the checks before each. -/
theorem cycAddFailuresInOrder : Obligations.CycAddFailuresInOrder := by
  intro ch d s
  rcases cycAddWith_cases params ch d s with ⟨hbad, heq⟩ | ⟨t, hlen, ht, hrest⟩
  · have hno : 6 ≤ d.length → parseTable (d.drop 4) = none := fun hlen => hbad.resolve_left (Nat.not_lt.mpr hlen)
    exact ⟨fun _ => exists_next_reply heq, fun hlen hparse => absurd (hno hlen) hparse,
      fun hlen hparse => absurd (hno hlen) hparse⟩
  · have hgood : ¬(d.length < 6 ∨ parseTable (d.drop 4) = none) := by simp [ht, hlen]
    refine ⟨fun hbad => absurd hbad hgood, fun _ _ hzero => ?interval, fun _ _ hne hfull => ?capacity⟩
    case interval =>
      rcases hrest with ⟨-, heq⟩ | ⟨hne, -⟩ | ⟨hne, -⟩
      · exact exists_next_reply heq
      · exact absurd hzero hne
      · exact absurd hzero hne
    case capacity =>
      rcases hrest with ⟨hzero, -⟩ | ⟨-, -, heq⟩ | ⟨-, hroom, -⟩
      · exact absurd hzero hne
      · exact exists_next_reply heq
      · exact absurd hfull hroom

/-! ## CYC_REMOVE and CYC_REPLACE -/

/-- Settles O54: the entry leaves the table, and its flight ends where it is in flight. -/
theorem cycRemoveDeletesEntry : Obligations.CycRemoveDeletesEntry := by
  intro id s
  rcases execCycRemove_cases id s with ⟨hnone, heq⟩ | ⟨n, hn, e, heq, he⟩
  case inl => exact ⟨fun n hn => (nomatch hnone.symm.trans hn), fun _ => exists_next_reply heq⟩
  case inr =>
    refine ⟨fun n' hn' => ?_, fun hnone => (nomatch hnone.symm.trans hn)⟩
    obtain rfl := Option.some.inj (hn.symm.trans hn')
    have hentry := Enc.entryAt_removeEntry s.enc id.toNat
    have hgone := (hentry id.toNat).trans (if_pos rfl)
    have hothers : ∀ i, i ≠ id.toNat → (s.enc.removeEntry id.toNat).entryAt i = s.enc.entryAt i :=
      fun i hi => (hentry i).trans (if_neg hi.symm)
    rcases he with ⟨hflight, rfl⟩ | ⟨hfree, rfl⟩
    case inl =>
      refine ⟨_, heq, ⟨rfl, rfl⟩, hgone, hothers, rfl, fun _ => ⟨rfl, rfl⟩, fun c => ?_, rfl⟩
      rw [State.reply_enc, Enc.inflightAt_setInflight, Enc.inflightAt_removeEntry]
      by_cases hc : n.ch = c
      · rw [if_pos hc, if_pos ⟨hc.symm, hc ▸ hflight⟩]
      · rw [if_neg hc, if_neg fun hflight => hc hflight.1.symm]
    case inr =>
      refine ⟨_, heq, ⟨rfl, rfl⟩, hgone, hothers, rfl, fun _ => ⟨rfl, rfl⟩, fun c => ?_, rfl⟩
      have hother : ¬(c = n.ch ∧ s.enc.inflightAt c = some id.toNat) := fun hflight => hfree (hflight.1 ▸ hflight.2)
      rw [State.reply_enc, Enc.inflightAt_removeEntry, if_neg hother]

/-- Settles O55: the id is looked up before the operand is parsed, and what parses is the operand of its sections. -/
theorem cycReplaceSwapsTable : Obligations.CycReplaceSwapsTable := by
  intro id s
  refine ⟨fun n tbl hn hpos hle hok => ?swaps, fun d hnone => ?noEntry, fun d n hn hbad => ?malformed⟩
  case swaps =>
    have hparse := parseTable_tableOperand hpos hle hok
    rcases execCycReplace_cases id (tableOperand tbl) s with ⟨hnone, -⟩ | ⟨-, -, ⟨hbad, -⟩ | ⟨tbl', htbl, heq⟩⟩
    · cases hnone.symm.trans hn
    · cases hbad.symm.trans hparse
    · obtain rfl := Option.some.inj (htbl.symm.trans hparse)
      have hentry := fun i => Enc.entryAt_modifyEntry s.enc id.toNat i fun n => { n with table := tbl' }
      have hself := (hentry id.toNat).trans (if_pos rfl)
      rw [hn] at hself
      exact ⟨_, heq, ⟨rfl, rfl⟩, hself, fun i hi => (hentry i).trans (if_neg hi.symm), rfl, fun _ => ⟨rfl, rfl, rfl⟩, rfl⟩
  case noEntry =>
    rcases execCycReplace_cases id d s with ⟨-, heq⟩ | ⟨n, hn, -⟩
    · exact exists_next_reply heq
    · cases hnone.symm.trans hn
  case malformed =>
    rcases execCycReplace_cases id d s with ⟨hnone, -⟩ | ⟨-, -, ⟨-, heq⟩ | ⟨tbl, htbl, -⟩⟩
    · cases hnone.symm.trans hn
    · exact exists_next_reply heq
    · cases hbad.symm.trans htbl

end Sys2Proof.Machine
end

section
/-! PROOFS. The tick (44_cycling.md rules R246 to R251): the channel's ready entries become DUE, on an empty queue the first of them is
loaded, and a packet slot follows. -/

namespace Sys2Proof.Machine

open Config

/-- CYC_TICK ends OK with the packet of its tick (rule R246). -/
theorem exec_cycTick (ch : Channel) (s : State) : exec (.cycTick ch) s =
    .next (State.reply { s with enc := (s.enc.tick ch).2 } ⟨.ok, some (.packet (s.enc.tick ch).1), []⟩) := rfl

/-! ## What every tick does -/

section
variable (e : Enc) (c : Channel)

/-- The packet of a slot, built or stuffing, is one of 184 bytes of its channel (43_packetizer.md rules R217 to R219). -/
theorem Enc.emitPacket_fields : (e.emitPacket c).1.channel = c ∧ (e.emitPacket c).1.scrambled = false ∧
    (e.emitPacket c).1.payload.length = 184 := by
  by_cases hq : (e.pkAt c).queue = []
  · rw [Enc.emitPacket_of_empty hq, Packetizer.stuffingPacket_eq]
    exact ⟨rfl, rfl, List.length_replicate⟩
  · rw [Enc.emitPacket_of_queue hq]
    exact ⟨rfl, rfl, Packetizer.build_payload_length _ c⟩

theorem Enc.mode_emitPacket : ((e.emitPacket c).2.pkAt c).mode = (e.pkAt c).mode := by
  rw [Enc.pkAt_emitPacket]
  split <;> rfl

/-- A tick ends in a packet slot, before which it has written no packet time and no mode, and of the other channels neither the
Packetizer nor the entry in flight (rules R246 and R249). -/
theorem Enc.tick_eq_emitPacket : ∃ e₁ : Enc, e.tick c = e₁.emitPacket c ∧ (∀ c', e₁.timeAt c' = e.timeAt c') ∧
    (e₁.pkAt c).mode = (e.pkAt c).mode ∧
    ∀ c', c' ≠ c → e₁.pkAt c' = e.pkAt c' ∧ e₁.inflightAt c' = e.inflightAt c' := by
  refine ⟨(e.markDue c (e.timeAt c)).selectAndLoad c (e.timeAt c), rfl, ?_⟩
  rcases (e.markDue c (e.timeAt c)).selectAndLoad_cases c (e.timeAt c) with ⟨-, heq⟩ | ⟨i, n, -, -, heq⟩
  · rw [heq]
    exact ⟨fun _ => rfl, rfl, fun _ _ => ⟨rfl, rfl⟩⟩
  · rw [heq]
    refine ⟨fun _ => rfl, ?mode, fun c' hc => ⟨?queue, ?inflight⟩⟩
    case mode => rw [Enc.pkAt_loadEntry, if_pos rfl, Enc.pkAt_markDue]
    case queue => rw [Enc.pkAt_loadEntry, if_neg hc.symm, Enc.pkAt_markDue]
    case inflight => rw [Enc.inflightAt_loadEntry, if_neg hc.symm, Enc.inflightAt_markDue]

end

/-- Settles O56: the packet and the packet time are the packet slot's, and neither the slot nor what comes before it writes other
channels. -/
theorem cycTickEmitsOnePacket : Obligations.CycTickEmitsOnePacket := by
  intro ch s
  have hid : (s.enc.tick ch).2.nextId = s.enc.nextId := Enc.nextId_tick s.enc ch
  have hexec := exec_cycTick ch s
  obtain ⟨e₁, htick, htime, hmode, helsewhere⟩ := s.enc.tick_eq_emitPacket ch
  rw [htick] at hexec hid
  obtain ⟨hchannel, hclear, hlen⟩ := e₁.emitPacket_fields ch
  refine ⟨_, _, hexec, ⟨rfl, rfl⟩, hchannel, hclear, hlen, ?time, (e₁.mode_emitPacket ch).trans hmode,
    fun c hc => ?elsewhere, hid, rfl⟩
  case time => rw [State.reply_enc, Enc.timeAt_emitPacket, if_pos rfl, htime]
  case elsewhere =>
    obtain ⟨hpk, htime', hflight⟩ := encElsewhere_emitPacket { s with enc := e₁ } ch
      ⟨.ok, some (.packet (e₁.emitPacket ch).1), []⟩ c hc
    obtain ⟨hpk₁, hflight₁⟩ := helsewhere c hc
    exact ⟨hpk.trans hpk₁, htime'.trans (htime c), hflight.trans hflight₁⟩

/-! ## The packet slot of a channel with sections queued -/

/-- The packet that is built and the Packetizer it leaves (43_packetizer.md rules R214 and R218). -/
theorem Enc.emitPacket_eq_build {e : Enc} {c : Channel} (h : (e.pkAt c).queue ≠ []) :
    ((e.emitPacket c).1, (e.emitPacket c).2.pkAt c) = (e.pkAt c).build c := by
  rw [Enc.pkAt_emitPacket, if_pos ⟨rfl, h⟩, Enc.emitPacket_of_queue h]

/-- The channel's own entry in flight after its packet slot (44_cycling.md rule R251). -/
theorem Enc.inflightAt_emitPacket_self (e : Enc) (c : Channel) : (e.emitPacket c).2.inflightAt c =
    if ((e.emitPacket c).2.pkAt c).queue = [] then none else e.inflightAt c := by
  rw [Enc.inflightAt_emitPacket]
  exact if_congr (and_iff_right rfl) rfl rfl

/-- With sections queued a tick selects nothing (rule R246). -/
theorem Enc.tick_of_queue {e : Enc} {c : Channel} (h : (e.pkAt c).queue ≠ []) :
    e.tick c = (e.markDue c (e.timeAt c)).emitPacket c :=
  congrArg (Enc.emitPacket · c) (if_neg h)

/-- The marking writes the state alone (rule R247). -/
theorem Entry.markDue_eq (c : Channel) (now : Nat) (n : Entry) : n.markDue c now =
    { n with state := if n.ch = c ∧ n.state = .scheduled ∧ n.nextDue ≤ now then .due else n.state } := by
  unfold Entry.markDue
  split <;> rfl

/-- Settles O59: the entries become DUE, and the packet slot may end an emission. -/
theorem cycTickBusyQueue : Obligations.CycTickBusyQueue := by
  intro P ch s _ hq
  have hexec := exec_cycTick ch s
  rw [Enc.tick_of_queue hq] at hexec
  have hentry := (s.enc.markDue ch (s.enc.timeAt ch)).entryAt_emitPacket_eq ch
  simp only [Enc.inflightAt_markDue, Enc.entryAt_markDue] at hentry
  refine ⟨_, _, hexec, ⟨rfl, rfl⟩, Enc.emitPacket_eq_build hq, Enc.inflightAt_emitPacket_self _ ch, fun j hj => ?absent,
    fun j m hm => ?present⟩
  case absent =>
    rw [State.reply_enc, hentry, hj]
    exact ite_self none
  case present =>
    rw [State.reply_enc, hentry, hm, Option.map_some, Option.map_some, Entry.markDue_eq]
    split <;> rfl

/-! ## The tick that selects an entry -/

section
variable {c : Channel} {now : Nat} {n : Entry}

@[simp] theorem Entry.markDue_nextDue (c : Channel) (now : Nat) (n : Entry) : (n.markDue c now).nextDue = n.nextDue := by
  rw [Entry.markDue_eq]

/-- A ready entry of the tick's channel is DUE after the marking (rule R247). -/
theorem Entry.markDue_of_ready (hc : n.ch = c) (h : Ready n now) : n.markDue c now = { n with state := .due } := by
  unfold Entry.markDue
  split
  next => rfl
  next hnot =>
    have hdue : n.state = .due := h.resolve_right fun hs => hnot ⟨hc, hs⟩
    rw [← hdue]

/-- Every other entry stays (rule R247). -/
theorem Entry.markDue_of_not_ready (h : ¬(n.ch = c ∧ Ready n now)) : n.markDue c now = n :=
  if_neg fun hdue => h ⟨hdue.1, .inr hdue.2⟩

/-- The DUE entries of the channel after the marking are those that were ready. -/
theorem Entry.markDue_state_due (hc : n.ch = c) : (n.markDue c now).state = .due ↔ Ready n now := by
  by_cases h : Ready n now
  · rw [Entry.markDue_of_ready hc h]
    exact iff_of_true rfl h
  · rw [Entry.markDue_of_not_ready fun hr => h hr.2]
    exact iff_of_false (fun hdue => h (.inl hdue)) h

end

/-- The entry `n` at the id `i` is the ready one of channel `c` with the least pair `(next_due, i)` (rule R248). -/
structure FirstReady (e : Enc) (c : Channel) (now i : Nat) (n : Entry) : Prop where
  entry : e.entryAt i = some n
  ch : n.ch = c
  ready : Ready n now
  least : ∀ j m, e.entryAt j = some m → m.ch = c → Ready m now →
    n.nextDue < m.nextDue ∨ (n.nextDue = m.nextDue ∧ i ≤ j)

section
variable {e : Enc} {c : Channel} {now i : Nat} {n : Entry}

/-- The selection after the marking is the first ready entry: no other has the same least pair (rule R248). -/
theorem FirstReady.selectDue_markDue (h : FirstReady e c now i n) (hrising : e.entries.Rising) :
    selectDue c (e.markDue c now).entries = some (i, n.markDue c now) := by
  have hrising' : (e.markDue c now).entries.Rising := Keyed.mapValues_rising hrising _
  have hat : (e.markDue c now).entryAt i = some (n.markDue c now) := by rw [Enc.entryAt_markDue, h.entry]; rfl
  have hch : (n.markDue c now).ch = c := (Entry.markDue_ch c now n).trans h.ch
  have hdue : (n.markDue c now).state = .due := (Entry.markDue_state_due h.ch).mpr h.ready
  cases hsel : selectDue c (e.markDue c now).entries with
  | none => exact absurd ⟨hch, hdue⟩ (selectDue_eq_none hsel i _ (Keyed.mem_of_find hat))
  | some b =>
    obtain ⟨j, m'⟩ := b
    obtain ⟨hmem, hch', hdue', hleast'⟩ := selectDue_eq_some hsel
    have hat' : (e.markDue c now).entryAt j = some m' := Keyed.find_of_mem hrising' hmem
    obtain ⟨m, hm, rfl⟩ := Option.map_eq_some_iff.mp ((Enc.entryAt_markDue e c now j).symm.trans hat')
    rw [Entry.markDue_ch] at hch'
    have hle := h.least j m hm hch' ((Entry.markDue_state_due hch').mp hdue')
    have hge := hleast' i _ (Keyed.mem_of_find hat) hch hdue
    rw [Entry.markDue_nextDue, Entry.markDue_nextDue] at hge
    obtain rfl : i = j := by omega
    rw [Option.some.inj (hm.symm.trans h.entry)]

/-- On an empty queue a tick loads the first ready entry, and a packet slot follows: the entry's stamped table is queued, and the entry
is in flight and re-armed (rules R246 and R249). -/
theorem FirstReady.tick (h : FirstReady e c (e.timeAt c) i n) (hrising : e.entries.Rising) (hq : (e.pkAt c).queue = []) :
    ∃ e₁ : Enc, e.tick c = e₁.emitPacket c ∧ e₁.pkAt c = { e.pkAt c with queue := n.table.map stamp } ∧
      e₁.inflightAt c = some i ∧
      e₁.entryAt i = some { n with nextDue := e.timeAt c + n.interval.toNat, state := .emitted } ∧
      ∀ j, j ≠ i → e₁.entryAt j = (e.entryAt j).map (Entry.markDue c (e.timeAt c)) := by
  refine ⟨(e.markDue c (e.timeAt c)).loadEntry c i (n.markDue c (e.timeAt c)) (e.timeAt c), ?tick, ?queue, ?inflight, ?entry,
    fun j hj => ?others⟩
  case tick => rw [Enc.tick, Enc.selectAndLoad, Enc.pkAt_markDue, if_pos hq, h.selectDue_markDue hrising]
  case queue => rw [Enc.pkAt_loadEntry, if_pos rfl, Entry.markDue_table, Enc.pkAt_markDue]
  case inflight => rw [Enc.inflightAt_loadEntry, if_pos rfl]
  case entry => rw [Enc.entryAt_loadEntry, if_pos rfl, Enc.entryAt_markDue, h.entry, Option.map_some, Option.map_some,
      Entry.markDue_of_ready h.ch h.ready]
  case others => rw [Enc.entryAt_loadEntry, if_neg hj.symm, Enc.entryAt_markDue]

end

/-- Settles O57: the tick loads the entry, and the packet slot that follows may end its emission and no other. -/
theorem cycTickSelectsEarliestDue : Obligations.CycTickSelectsEarliestDue := by
  intro P ch s i n hgood hq hn hch hready hleast
  have hfirst : FirstReady s.enc ch (s.enc.timeAt ch) i n := ⟨hn, hch, hready, hleast⟩
  obtain ⟨e₁, htick, hpk, hflight, hself, hothers⟩ := hfirst.tick hgood.entries_rising hq
  have hqueue : (e₁.pkAt ch).queue ≠ [] := by
    rw [hpk]
    simpa using List.length_pos_iff.mp (hgood.entries i n (Keyed.mem_of_find hn)).table_pos
  have hentry := e₁.entryAt_emitPacket_eq ch
  have hinflight := e₁.inflightAt_emitPacket_self ch
  rw [hflight] at hentry hinflight
  have hexec := exec_cycTick ch s
  rw [htick] at hexec
  refine ⟨_, _, hexec, ⟨rfl, rfl⟩, hpk ▸ Enc.emitPacket_eq_build hqueue, ?entry, hinflight, fun j m hj hm => ?others⟩
  case entry =>
    rw [State.reply_enc, hentry, hself, Option.map_some]
    simp only [and_true]
    split <;> rfl
  case others =>
    have hmark : (e₁.emitPacket ch).2.entryAt j = some (m.markDue ch (s.enc.timeAt ch)) := by
      rw [hentry, if_neg fun hend => hj (Option.some.inj hend.2).symm, hothers j hj, hm, Option.map_some]
    exact ⟨fun hc hr => hmark.trans (congrArg some (Entry.markDue_of_ready hc hr)),
      fun hnot => hmark.trans (congrArg some (Entry.markDue_of_not_ready hnot))⟩

end Sys2Proof.Machine
end

section
/-! PROOFS. A command that fails (60_exceptions.md rule R271): every meaning tests what can fail before it writes a unit, so that a
failure status comes from `State.fail` on the state the command was given. -/

namespace Sys2Proof.Machine

open Config

/-! ## How a command given the state `s` can conclude -/

/-- A failure is `State.fail` on `s` itself. What a success writes, and why a command is refused, is left open. -/
inductive Concludes (s : State) : Host.Outcome State Fault Refusal → Prop where
  | failed (st : Status) : Concludes s (s.fail st)
  | succeeded (t : State) {r : Result} : r.status.isFailure = false → Concludes s (.next (t.reply r))
  | refused (e : Refusal) : Concludes s (.refused e)

theorem Concludes.done (s t : State) (v : Option Value) (evs : List Event) : Concludes s (t.done v evs) := .succeeded t rfl

/-- With a failure status the state after is the one before with the failure's result alone. -/
theorem Concludes.eq_reply_of_isFailure {s t : State} {o : Host.Outcome State Fault Refusal} {st : Status}
    (h : Concludes s o) (ho : o = .next t) (hst : t.status = some st) (hfail : st.isFailure = true) :
    t = s.reply ⟨st, none, []⟩ := by
  cases h with
  | failed st' =>
    obtain rfl := Host.Outcome.next.inj ho
    obtain rfl : st' = st := Option.some.inj hst
    rfl
  | succeeded u hr =>
    obtain rfl := Host.Outcome.next.inj ho
    obtain rfl := Option.some.inj hst
    exact absurd (hr.symm.trans hfail) Bool.false_ne_true
  | refused e => cases ho

/-! ## Each meaning -/

section
variable (s : State)

theorem execCrcCompute_concludes (data : Bytes) : Concludes s (execCrcCompute data s) := by
  unfold execCrcCompute
  split
  · exact .failed _
  · exact .done s s _ _

theorem execCrcVerify_concludes (data : Bytes) : Concludes s (execCrcVerify data s) := by
  unfold execCrcVerify
  split
  · exact .failed _
  · exact .done s s _ _

theorem feedWith_concludes (p : Params) (ch : Channel) (cc : Counter) (pusi scr : Bool) (payload : Bytes) :
    Concludes s (feedWith p ch cc pusi scr payload s) := by
  rcases feedWith_cases p ch cc pusi scr payload s with ⟨-, h⟩ | ⟨-, ⟨e, -, h⟩ | ⟨r, -, h⟩⟩
  · exact h ▸ .failed _
  · exact h ▸ .refused e
  · exact h ▸ .succeeded _ rfl

theorem pktLoadWith_concludes (p : Params) (ch : Channel) (data : Bytes) : Concludes s (pktLoadWith p ch data s) := by
  rcases pktLoadWith_cases p ch data s with ⟨-, h⟩ | ⟨-, -, h⟩ | ⟨-, -, h⟩
  · exact h ▸ .failed _
  · exact h ▸ .failed _
  · exact h ▸ .succeeded _ rfl

/-- Both ends of PKT_NEXT are successes, EXHAUSTED as well (rule R272). -/
theorem execPktNext_concludes (ch : Channel) : Concludes s (execPktNext ch s) := by
  rcases execPktNext_cases ch s with ⟨-, -, h⟩ | ⟨-, h⟩
  · exact h ▸ .succeeded _ rfl
  · exact h ▸ .succeeded _ rfl

theorem cycAddWith_concludes (p : Params) (ch : Channel) (data : Bytes) : Concludes s (cycAddWith p ch data s) := by
  rcases cycAddWith_cases p ch data s with ⟨-, h⟩ | ⟨_, -, -, ⟨-, h⟩ | ⟨-, -, h⟩ | ⟨-, -, h⟩⟩
  · exact h ▸ .failed _
  · exact h ▸ .failed _
  · exact h ▸ .failed _
  · exact h ▸ .succeeded _ rfl

theorem execCycRemove_concludes (id : EntryId) : Concludes s (execCycRemove id s) := by
  rcases execCycRemove_cases id s with ⟨-, h⟩ | ⟨_, -, _, h, -⟩
  · exact h ▸ .failed _
  · exact h ▸ .succeeded _ rfl

theorem execCycReplace_concludes (id : EntryId) (data : Bytes) : Concludes s (execCycReplace id data s) := by
  rcases execCycReplace_cases id data s with ⟨-, h⟩ | ⟨_, -, ⟨-, h⟩ | ⟨_, -, h⟩⟩
  · exact h ▸ .failed _
  · exact h ▸ .failed _
  · exact h ▸ .succeeded _ rfl

end

/-- Rule R271 for every command. DMX_RESET, DMX_RESET_ALL, PKT_CONFIG and CYC_TICK end OK in every state. -/
theorem exec_concludes (i : Instr) (s : State) : Concludes s (exec i s) := by
  cases i with
  | feed ch cc pusi scr payload => exact feedWith_concludes s params ch cc pusi scr payload
  | dmxReset ch => exact .done s _ _ _
  | dmxResetAll => exact .done s _ _ _
  | crcCompute data => exact execCrcCompute_concludes s data
  | crcVerify data => exact execCrcVerify_concludes s data
  | pktLoad ch data => exact pktLoadWith_concludes s params ch data
  | pktNext ch => exact execPktNext_concludes s ch
  | pktConfig ch mode => exact .done s _ _ _
  | cycAdd ch data => exact cycAddWith_concludes s params ch data
  | cycRemove id => exact execCycRemove_concludes s id
  | cycReplace id data => exact execCycReplace_concludes s id data
  | cycTick ch => exact .done s _ _ _

/-! ## The step -/

/-- A step concludes on the state whose port no longer holds the command: as its instruction does, ILLEGAL, or refused for the
operand's length. -/
theorem step_concludes {s : State} {c : Command} {rest : List HostInput} (h : s.port.inputs = .command c :: rest) :
    Concludes { s with port := { s.port with inputs := rest } } (step s) := by
  cases hd : decode c with
  | ok i => exact step_of_decode_ok h hd ▸ exec_concludes i _
  | error err =>
    cases err with
    | illegal => exact step_of_decode_illegal h hd ▸ .failed .illegal
    | operandLength => exact step_of_decode_operandLength h hd ▸ .refused .operandLength

/-- Settles O13: a step that ends with a failure status leaves the state without the command and with the failure's result. -/
theorem failedCommandChangesNothing : Obligations.FailedCommandChangesNothing := by
  intro s t c rest st hin hstep hst hfail
  obtain rfl := (step_concludes hin).eq_reply_of_isFailure hstep hst hfail
  exact ⟨⟨rfl, rfl⟩, rfl, rfl, rfl⟩

end Sys2Proof.Machine
end

section
/-! PROOFS. The step on the reset input, and the step with no input waiting (70_reset_and_hazards.md rule R300; that
inputs wait in the port is log 2). -/

namespace Sys2Proof.Machine

theorem State.nextInput_of_nil {s : State} (h : s.port.inputs = []) : s.nextInput = none := by
  simp only [State.nextInput, h]

/-- Nothing of the state before is left but the inputs that wait behind the reset. -/
theorem step_of_reset {s : State} {rest : List HostInput} (h : s.port.inputs = .reset :: rest) :
    step s = .next { State.reset with port := { inputs := rest, result := none } } := by
  simp only [step, State.nextInput_of_cons h]
  rfl

theorem step_of_no_input {s : State} (h : s.port.inputs = []) : step s = .next s := by
  simp only [step, State.nextInput_of_nil h]

/-- Settles O10: the reset state with the inputs behind it is the one that the first clause asks for. -/
theorem resetInputAndIdle : Obligations.ResetInputAndIdle :=
  ⟨fun _ _ h => ⟨_, step_of_reset h, rfl, rfl, rfl, rfl⟩, fun _ h => step_of_no_input h⟩

end Sys2Proof.Machine
end
